-- ==== Sys2Proof/Word.lean ====
section
/-! DEFINITION. The word types: an 8-bit data byte and a 16-bit bus address (00_scope.md R5, R6). -/

namespace Sys2Proof

/-- An 8-bit value, the spec's `u8`. -/
abbrev Byte := BitVec 8

/-- A 16-bit address, the spec's `u16`. -/
abbrev Addr := BitVec 16

end Sys2Proof
end

