-- ==== Sys2Proof/Syntax.lean ====
section
/-! DEFINITION. Instructions as syntax: the twelve addressing-mode tags, operands, the 75 mnemonic identities of the
opcode table, and Instr (30_encoding.md R101, R104, R110, R111, R112). A row of the table is a constructor of Instr
together with the form of its operand (log entry 15). -/

namespace Sys2Proof

/-- The twelve addressing-mode tags (30 R101). The accumulator forms of the shifts are `implicit` (90 C9). -/
inductive Mode where
  | implicit
  | immediate
  | zeroPage
  | zeroPageX
  | zeroPageY
  | indexedIndirect
  | indirectIndexed
  | absolute
  | absoluteX
  | absoluteY
  | indirect
  | relative
  deriving DecidableEq, Repr

/-- An addressing mode with its operand field (30 R101, R103). -/
inductive Operand where
  /-- No operand bytes; for a shift or rotate, the accumulator (40 R141). -/
  | implicit
  /-- The operand value itself (40 R142). -/
  | immediate (imm8 : Byte)
  | zeroPage (zp8 : Byte)
  | zeroPageX (zp8 : Byte)
  | zeroPageY (zp8 : Byte)
  /-- `($nn,X)` (40 R146). -/
  | indexedIndirect (zp8 : Byte)
  /-- `($nn),Y` (40 R147). -/
  | indirectIndexed (zp8 : Byte)
  | absolute (addr16 : Addr)
  | absoluteX (addr16 : Addr)
  | absoluteY (addr16 : Addr)
  /-- `($hhll)`, the indirect jump (40 R151). -/
  | indirect (ptr16 : Addr)
  /-- A signed branch offset (40 R152). -/
  | relative (rel8 : Byte)
  deriving DecidableEq, Repr

/-- The mode tag of an operand. -/
def Operand.mode : Operand → Mode
  | .implicit => .implicit
  | .immediate _ => .immediate
  | .zeroPage _ => .zeroPage
  | .zeroPageX _ => .zeroPageX
  | .zeroPageY _ => .zeroPageY
  | .indexedIndirect _ => .indexedIndirect
  | .indirectIndexed _ => .indirectIndexed
  | .absolute _ => .absolute
  | .absoluteX _ => .absoluteX
  | .absoluteY _ => .absoluteY
  | .indirect _ => .indirect
  | .relative _ => .relative

/-- The 75 mnemonic identities of the opcode table (30 R104, 90 C5). -/
inductive Mnemonic where
  | adc | sbc | and | ora | eor | bit | asl | lsr | rol | ror
  | cmp | cpx | cpy | bcc | bcs | beq | bne | bmi | bpl | bvc
  | bvs | pha | php | pla | plp | jsr | rts | rti | jmp | brk
  | tax | txa | tay | tya | tsx | txs | clc | sec | cli | sei
  | cld | sed | clv | nop | lda | ldx | ldy | sta | stx | sty
  | inc | dec | inx | iny | dex | dey | kil | slo | rla | sre
  | rra | sax | lax | dcp | isc | anc | alr | arr | xaa | axs
  | ahx | shy | shx | tas | las
  deriving DecidableEq, Repr

/-- An instruction. Where one mnemonic has one mode its operand field is the argument itself; where it has several
the argument is an Operand, and WellFormed says which forms exist. `sbcUndoc` is opcode 0xEB (49 R303); `nop` is
0xEA (47 R260) and `nopUndoc` the 27 undocumented NOP bytes (49 R302); `kil`, `nopUndoc` and `anc` carry their opcode
byte, since several bytes share one mnemonic and mode. -/
inductive Instr where
  | adc (o : Operand)
  | sbc (o : Operand)
  | sbcUndoc (imm8 : Byte)
  | and (o : Operand)
  | ora (o : Operand)
  | eor (o : Operand)
  | bit (o : Operand)
  | asl (o : Operand)
  | lsr (o : Operand)
  | rol (o : Operand)
  | ror (o : Operand)
  | cmp (o : Operand)
  | cpx (o : Operand)
  | cpy (o : Operand)
  | bcc (rel8 : Byte)
  | bcs (rel8 : Byte)
  | beq (rel8 : Byte)
  | bne (rel8 : Byte)
  | bmi (rel8 : Byte)
  | bpl (rel8 : Byte)
  | bvc (rel8 : Byte)
  | bvs (rel8 : Byte)
  | pha
  | php
  | pla
  | plp
  | jsr (addr16 : Addr)
  | rts
  | rti
  | jmp (o : Operand)
  | brk
  | tax
  | txa
  | tay
  | tya
  | tsx
  | txs
  | clc
  | sec
  | cli
  | sei
  | cld
  | sed
  | clv
  | nop
  | nopUndoc (opcode : Byte) (o : Operand)
  | lda (o : Operand)
  | ldx (o : Operand)
  | ldy (o : Operand)
  | sta (o : Operand)
  | stx (o : Operand)
  | sty (o : Operand)
  | inc (o : Operand)
  | dec (o : Operand)
  | inx
  | iny
  | dex
  | dey
  | kil (opcode : Byte)
  | slo (o : Operand)
  | rla (o : Operand)
  | sre (o : Operand)
  | rra (o : Operand)
  | sax (o : Operand)
  | lax (o : Operand)
  | dcp (o : Operand)
  | isc (o : Operand)
  | anc (opcode : Byte) (imm8 : Byte)
  | alr (imm8 : Byte)
  | arr (imm8 : Byte)
  | xaa (imm8 : Byte)
  | axs (imm8 : Byte)
  | ahx (o : Operand)
  | shy (addr16 : Addr)
  | shx (addr16 : Addr)
  | tas (addr16 : Addr)
  | las (addr16 : Addr)
  deriving DecidableEq, Repr

/-- The mnemonic identity an instruction stands for (30 R104). -/
def Instr.mnemonic : Instr → Mnemonic
  | .adc _ => .adc
  | .sbc _ => .sbc
  | .sbcUndoc _ => .sbc
  | .and _ => .and
  | .ora _ => .ora
  | .eor _ => .eor
  | .bit _ => .bit
  | .asl _ => .asl
  | .lsr _ => .lsr
  | .rol _ => .rol
  | .ror _ => .ror
  | .cmp _ => .cmp
  | .cpx _ => .cpx
  | .cpy _ => .cpy
  | .bcc _ => .bcc
  | .bcs _ => .bcs
  | .beq _ => .beq
  | .bne _ => .bne
  | .bmi _ => .bmi
  | .bpl _ => .bpl
  | .bvc _ => .bvc
  | .bvs _ => .bvs
  | .pha => .pha
  | .php => .php
  | .pla => .pla
  | .plp => .plp
  | .jsr _ => .jsr
  | .rts => .rts
  | .rti => .rti
  | .jmp _ => .jmp
  | .brk => .brk
  | .tax => .tax
  | .txa => .txa
  | .tay => .tay
  | .tya => .tya
  | .tsx => .tsx
  | .txs => .txs
  | .clc => .clc
  | .sec => .sec
  | .cli => .cli
  | .sei => .sei
  | .cld => .cld
  | .sed => .sed
  | .clv => .clv
  | .nop => .nop
  | .nopUndoc _ _ => .nop
  | .lda _ => .lda
  | .ldx _ => .ldx
  | .ldy _ => .ldy
  | .sta _ => .sta
  | .stx _ => .stx
  | .sty _ => .sty
  | .inc _ => .inc
  | .dec _ => .dec
  | .inx => .inx
  | .iny => .iny
  | .dex => .dex
  | .dey => .dey
  | .kil _ => .kil
  | .slo _ => .slo
  | .rla _ => .rla
  | .sre _ => .sre
  | .rra _ => .rra
  | .sax _ => .sax
  | .lax _ => .lax
  | .dcp _ => .dcp
  | .isc _ => .isc
  | .anc _ _ => .anc
  | .alr _ => .alr
  | .arr _ => .arr
  | .xaa _ => .xaa
  | .axs _ => .axs
  | .ahx _ => .ahx
  | .shy _ => .shy
  | .shx _ => .shx
  | .tas _ => .tas
  | .las _ => .las

/-- The operand of an instruction, as the resolver sees it (40 R141 to R152). -/
def Instr.operand : Instr → Operand
  | .adc o => o
  | .sbc o => o
  | .sbcUndoc imm8 => .immediate imm8
  | .and o => o
  | .ora o => o
  | .eor o => o
  | .bit o => o
  | .asl o => o
  | .lsr o => o
  | .rol o => o
  | .ror o => o
  | .cmp o => o
  | .cpx o => o
  | .cpy o => o
  | .bcc rel8 => .relative rel8
  | .bcs rel8 => .relative rel8
  | .beq rel8 => .relative rel8
  | .bne rel8 => .relative rel8
  | .bmi rel8 => .relative rel8
  | .bpl rel8 => .relative rel8
  | .bvc rel8 => .relative rel8
  | .bvs rel8 => .relative rel8
  | .pha => .implicit
  | .php => .implicit
  | .pla => .implicit
  | .plp => .implicit
  | .jsr addr16 => .absolute addr16
  | .rts => .implicit
  | .rti => .implicit
  | .jmp o => o
  | .brk => .implicit
  | .tax => .implicit
  | .txa => .implicit
  | .tay => .implicit
  | .tya => .implicit
  | .tsx => .implicit
  | .txs => .implicit
  | .clc => .implicit
  | .sec => .implicit
  | .cli => .implicit
  | .sei => .implicit
  | .cld => .implicit
  | .sed => .implicit
  | .clv => .implicit
  | .nop => .implicit
  | .nopUndoc _ o => o
  | .lda o => o
  | .ldx o => o
  | .ldy o => o
  | .sta o => o
  | .stx o => o
  | .sty o => o
  | .inc o => o
  | .dec o => o
  | .inx => .implicit
  | .iny => .implicit
  | .dex => .implicit
  | .dey => .implicit
  | .kil _ => .implicit
  | .slo o => o
  | .rla o => o
  | .sre o => o
  | .rra o => o
  | .sax o => o
  | .lax o => o
  | .dcp o => o
  | .isc o => o
  | .anc _ imm8 => .immediate imm8
  | .alr imm8 => .immediate imm8
  | .arr imm8 => .immediate imm8
  | .xaa imm8 => .immediate imm8
  | .axs imm8 => .immediate imm8
  | .ahx o => o
  | .shy addr16 => .absoluteX addr16
  | .shx addr16 => .absoluteY addr16
  | .tas addr16 => .absoluteY addr16
  | .las addr16 => .absoluteY addr16

/-- The addressing-mode tag of an instruction. -/
def Instr.mode (i : Instr) : Mode := i.operand.mode

end Sys2Proof
end

