-- ==== Sys2Proof/WellFormed.lean ====
section
/-! DEFINITION. Which instruction terms have an encoding: the forms of 30_encoding.md R111 and of the encodings tables of
49_undocumented.md. -/

namespace Sys2Proof

/-- The addressing modes a mnemonic has (30 R111; 49 R301 to R321). -/
def Mnemonic.modes : Mnemonic → List Mode
  | .adc => [.indexedIndirect, .zeroPage, .immediate, .absolute, .indirectIndexed, .zeroPageX, .absoluteY, .absoluteX]
  | .sbc => [.indexedIndirect, .zeroPage, .immediate, .absolute, .indirectIndexed, .zeroPageX, .absoluteY, .absoluteX]
  | .and => [.indexedIndirect, .zeroPage, .immediate, .absolute, .indirectIndexed, .zeroPageX, .absoluteY, .absoluteX]
  | .ora => [.indexedIndirect, .zeroPage, .immediate, .absolute, .indirectIndexed, .zeroPageX, .absoluteY, .absoluteX]
  | .eor => [.indexedIndirect, .zeroPage, .immediate, .absolute, .indirectIndexed, .zeroPageX, .absoluteY, .absoluteX]
  | .bit => [.zeroPage, .absolute]
  | .asl => [.zeroPage, .implicit, .absolute, .zeroPageX, .absoluteX]
  | .lsr => [.zeroPage, .implicit, .absolute, .zeroPageX, .absoluteX]
  | .rol => [.zeroPage, .implicit, .absolute, .zeroPageX, .absoluteX]
  | .ror => [.zeroPage, .implicit, .absolute, .zeroPageX, .absoluteX]
  | .cmp => [.indexedIndirect, .zeroPage, .immediate, .absolute, .indirectIndexed, .zeroPageX, .absoluteY, .absoluteX]
  | .cpx => [.immediate, .zeroPage, .absolute]
  | .cpy => [.immediate, .zeroPage, .absolute]
  | .bcc => [.relative]
  | .bcs => [.relative]
  | .beq => [.relative]
  | .bne => [.relative]
  | .bmi => [.relative]
  | .bpl => [.relative]
  | .bvc => [.relative]
  | .bvs => [.relative]
  | .pha => [.implicit]
  | .php => [.implicit]
  | .pla => [.implicit]
  | .plp => [.implicit]
  | .jsr => [.absolute]
  | .rts => [.implicit]
  | .rti => [.implicit]
  | .jmp => [.absolute, .indirect]
  | .brk => [.implicit]
  | .tax => [.implicit]
  | .txa => [.implicit]
  | .tay => [.implicit]
  | .tya => [.implicit]
  | .tsx => [.implicit]
  | .txs => [.implicit]
  | .clc => [.implicit]
  | .sec => [.implicit]
  | .cli => [.implicit]
  | .sei => [.implicit]
  | .cld => [.implicit]
  | .sed => [.implicit]
  | .clv => [.implicit]
  | .nop => [.zeroPage, .absolute, .zeroPageX, .implicit, .absoluteX, .immediate]
  | .lda => [.indexedIndirect, .zeroPage, .immediate, .absolute, .indirectIndexed, .zeroPageX, .absoluteY, .absoluteX]
  | .ldx => [.immediate, .zeroPage, .absolute, .zeroPageY, .absoluteY]
  | .ldy => [.immediate, .zeroPage, .absolute, .zeroPageX, .absoluteX]
  | .sta => [.indexedIndirect, .zeroPage, .absolute, .indirectIndexed, .zeroPageX, .absoluteY, .absoluteX]
  | .stx => [.zeroPage, .absolute, .zeroPageY]
  | .sty => [.zeroPage, .absolute, .zeroPageX]
  | .inc => [.zeroPage, .absolute, .zeroPageX, .absoluteX]
  | .dec => [.zeroPage, .absolute, .zeroPageX, .absoluteX]
  | .inx => [.implicit]
  | .iny => [.implicit]
  | .dex => [.implicit]
  | .dey => [.implicit]
  | .kil => [.implicit]
  | .slo => [.indexedIndirect, .zeroPage, .absolute, .indirectIndexed, .zeroPageX, .absoluteY, .absoluteX]
  | .rla => [.indexedIndirect, .zeroPage, .absolute, .indirectIndexed, .zeroPageX, .absoluteY, .absoluteX]
  | .sre => [.indexedIndirect, .zeroPage, .absolute, .indirectIndexed, .zeroPageX, .absoluteY, .absoluteX]
  | .rra => [.indexedIndirect, .zeroPage, .absolute, .indirectIndexed, .zeroPageX, .absoluteY, .absoluteX]
  | .sax => [.indexedIndirect, .zeroPage, .absolute, .zeroPageY]
  | .lax => [.indexedIndirect, .zeroPage, .immediate, .absolute, .indirectIndexed, .zeroPageY, .absoluteY]
  | .dcp => [.indexedIndirect, .zeroPage, .absolute, .indirectIndexed, .zeroPageX, .absoluteY, .absoluteX]
  | .isc => [.indexedIndirect, .zeroPage, .absolute, .indirectIndexed, .zeroPageX, .absoluteY, .absoluteX]
  | .anc => [.immediate]
  | .alr => [.immediate]
  | .arr => [.immediate]
  | .xaa => [.immediate]
  | .axs => [.immediate]
  | .ahx => [.indirectIndexed, .absoluteY]
  | .shy => [.absoluteX]
  | .shx => [.absoluteY]
  | .tas => [.absoluteY]
  | .las => [.absoluteY]

/-- The twelve KIL bytes (30 R112, 49 R301). -/
def kilOpcodes : List Byte :=
  [0x02#8, 0x12#8, 0x22#8, 0x32#8, 0x42#8, 0x52#8, 0x62#8, 0x72#8, 0x92#8, 0xb2#8, 0xd2#8, 0xf2#8]

/-- The undocumented NOP bytes of each mode (30 R112, 49 R302). -/
def nopUndocOpcodes : Mode → List Byte
  | .implicit => [0x1a#8, 0x3a#8, 0x5a#8, 0x7a#8, 0xda#8, 0xfa#8]
  | .immediate => [0x80#8, 0x82#8, 0x89#8, 0xc2#8, 0xe2#8]
  | .zeroPage => [0x04#8, 0x44#8, 0x64#8]
  | .zeroPageX => [0x14#8, 0x34#8, 0x54#8, 0x74#8, 0xd4#8, 0xf4#8]
  | .absolute => [0x0c#8]
  | .absoluteX => [0x1c#8, 0x3c#8, 0x5c#8, 0x7c#8, 0xdc#8, 0xfc#8]
  | .zeroPageY | .indexedIndirect | .indirectIndexed | .absoluteY | .indirect | .relative => []

/-- The two ANC bytes (30 R112, 49 R312). -/
def ancOpcodes : List Byte := [0x0b#8, 0x2b#8]

/-- Where an instruction carries its opcode byte, that byte is one of its mnemonic's and mode's. -/
def Instr.opcodeOk : Instr → Bool
  | .kil opcode => kilOpcodes.contains opcode
  | .nopUndoc opcode o => (nopUndocOpcodes o.mode).contains opcode
  | .anc opcode _ => ancOpcodes.contains opcode
  | .adc _ => true
  | .sbc _ => true
  | .sbcUndoc _ => true
  | .and _ => true
  | .ora _ => true
  | .eor _ => true
  | .bit _ => true
  | .asl _ => true
  | .lsr _ => true
  | .rol _ => true
  | .ror _ => true
  | .cmp _ => true
  | .cpx _ => true
  | .cpy _ => true
  | .bcc _ => true
  | .bcs _ => true
  | .beq _ => true
  | .bne _ => true
  | .bmi _ => true
  | .bpl _ => true
  | .bvc _ => true
  | .bvs _ => true
  | .pha => true
  | .php => true
  | .pla => true
  | .plp => true
  | .jsr _ => true
  | .rts => true
  | .rti => true
  | .jmp _ => true
  | .brk => true
  | .tax => true
  | .txa => true
  | .tay => true
  | .tya => true
  | .tsx => true
  | .txs => true
  | .clc => true
  | .sec => true
  | .cli => true
  | .sei => true
  | .cld => true
  | .sed => true
  | .clv => true
  | .nop => true
  | .lda _ => true
  | .ldx _ => true
  | .ldy _ => true
  | .sta _ => true
  | .stx _ => true
  | .sty _ => true
  | .inc _ => true
  | .dec _ => true
  | .inx => true
  | .iny => true
  | .dex => true
  | .dey => true
  | .slo _ => true
  | .rla _ => true
  | .sre _ => true
  | .rra _ => true
  | .sax _ => true
  | .lax _ => true
  | .dcp _ => true
  | .isc _ => true
  | .alr _ => true
  | .arr _ => true
  | .xaa _ => true
  | .axs _ => true
  | .ahx _ => true
  | .shy _ => true
  | .shx _ => true
  | .tas _ => true
  | .las _ => true

/-- The check that an instruction term has an encoding. -/
def Instr.wf (i : Instr) : Bool := i.mnemonic.modes.contains i.mode && i.opcodeOk

/-- The instruction term has an encoding. -/
abbrev WellFormed (i : Instr) : Prop := i.wf = true

end Sys2Proof
end

