-- ==== Sys2Proof/Decode.lean ====
section
/-! DEFINITION. The decoder: the 256-entry opcode table of 30_encoding.md R110 and the assembly of operand bytes
(R101, R103); then the encoder, written from the encodings tables of the instruction rules (R111, 49_undocumented.md). -/

namespace Sys2Proof

/-- `{hi, lo}` (00 R6). -/
def word16 (hi lo : Byte) : Addr := hi ++ lo

/-- `v[15:8]`, which is also `page(v)` (00 R6). -/
def hiByte (v : Addr) : Byte := v.extractLsb' 8 8

/-- `v[7:0]` (00 R6). -/
def loByte (v : Addr) : Byte := v.extractLsb' 0 8

/-- An entry of the opcode table (30 R104). -/
structure OpcodeEntry where
  mnemonic : Mnemonic
  mode : Mode
  /-- Base cycles. -/
  base : Nat
  /-- Extra-cycle eligible (40 R153). -/
  eligible : Bool
  deriving DecidableEq, Repr

/-- Opcodes 0x00 to 0x0F (30 R110). -/
def opcodeRow0 : List OpcodeEntry := [
  ⟨.brk, .implicit, 7, false⟩,
  ⟨.ora, .indexedIndirect, 6, false⟩,
  ⟨.kil, .implicit, 2, false⟩,
  ⟨.slo, .indexedIndirect, 8, false⟩,
  ⟨.nop, .zeroPage, 3, false⟩,
  ⟨.ora, .zeroPage, 3, false⟩,
  ⟨.asl, .zeroPage, 5, false⟩,
  ⟨.slo, .zeroPage, 5, false⟩,
  ⟨.php, .implicit, 3, false⟩,
  ⟨.ora, .immediate, 2, false⟩,
  ⟨.asl, .implicit, 2, false⟩,
  ⟨.anc, .immediate, 2, false⟩,
  ⟨.nop, .absolute, 4, false⟩,
  ⟨.ora, .absolute, 4, false⟩,
  ⟨.asl, .absolute, 6, false⟩,
  ⟨.slo, .absolute, 6, false⟩]

/-- Opcodes 0x10 to 0x1F (30 R110). -/
def opcodeRow1 : List OpcodeEntry := [
  ⟨.bpl, .relative, 2, true⟩,
  ⟨.ora, .indirectIndexed, 5, true⟩,
  ⟨.kil, .implicit, 2, false⟩,
  ⟨.slo, .indirectIndexed, 8, false⟩,
  ⟨.nop, .zeroPageX, 4, false⟩,
  ⟨.ora, .zeroPageX, 4, false⟩,
  ⟨.asl, .zeroPageX, 6, false⟩,
  ⟨.slo, .zeroPageX, 6, false⟩,
  ⟨.clc, .implicit, 2, false⟩,
  ⟨.ora, .absoluteY, 4, true⟩,
  ⟨.nop, .implicit, 2, false⟩,
  ⟨.slo, .absoluteY, 7, false⟩,
  ⟨.nop, .absoluteX, 4, true⟩,
  ⟨.ora, .absoluteX, 4, true⟩,
  ⟨.asl, .absoluteX, 7, false⟩,
  ⟨.slo, .absoluteX, 7, false⟩]

/-- Opcodes 0x20 to 0x2F (30 R110). -/
def opcodeRow2 : List OpcodeEntry := [
  ⟨.jsr, .absolute, 6, false⟩,
  ⟨.and, .indexedIndirect, 6, false⟩,
  ⟨.kil, .implicit, 2, false⟩,
  ⟨.rla, .indexedIndirect, 8, false⟩,
  ⟨.bit, .zeroPage, 3, false⟩,
  ⟨.and, .zeroPage, 3, false⟩,
  ⟨.rol, .zeroPage, 5, false⟩,
  ⟨.rla, .zeroPage, 5, false⟩,
  ⟨.plp, .implicit, 4, false⟩,
  ⟨.and, .immediate, 2, false⟩,
  ⟨.rol, .implicit, 2, false⟩,
  ⟨.anc, .immediate, 2, false⟩,
  ⟨.bit, .absolute, 4, false⟩,
  ⟨.and, .absolute, 4, false⟩,
  ⟨.rol, .absolute, 6, false⟩,
  ⟨.rla, .absolute, 6, false⟩]

/-- Opcodes 0x30 to 0x3F (30 R110). -/
def opcodeRow3 : List OpcodeEntry := [
  ⟨.bmi, .relative, 2, true⟩,
  ⟨.and, .indirectIndexed, 5, true⟩,
  ⟨.kil, .implicit, 2, false⟩,
  ⟨.rla, .indirectIndexed, 8, false⟩,
  ⟨.nop, .zeroPageX, 4, false⟩,
  ⟨.and, .zeroPageX, 4, false⟩,
  ⟨.rol, .zeroPageX, 6, false⟩,
  ⟨.rla, .zeroPageX, 6, false⟩,
  ⟨.sec, .implicit, 2, false⟩,
  ⟨.and, .absoluteY, 4, true⟩,
  ⟨.nop, .implicit, 2, false⟩,
  ⟨.rla, .absoluteY, 7, false⟩,
  ⟨.nop, .absoluteX, 4, true⟩,
  ⟨.and, .absoluteX, 4, true⟩,
  ⟨.rol, .absoluteX, 7, false⟩,
  ⟨.rla, .absoluteX, 7, false⟩]

/-- Opcodes 0x40 to 0x4F (30 R110). -/
def opcodeRow4 : List OpcodeEntry := [
  ⟨.rti, .implicit, 6, false⟩,
  ⟨.eor, .indexedIndirect, 6, false⟩,
  ⟨.kil, .implicit, 2, false⟩,
  ⟨.sre, .indexedIndirect, 8, false⟩,
  ⟨.nop, .zeroPage, 3, false⟩,
  ⟨.eor, .zeroPage, 3, false⟩,
  ⟨.lsr, .zeroPage, 5, false⟩,
  ⟨.sre, .zeroPage, 5, false⟩,
  ⟨.pha, .implicit, 3, false⟩,
  ⟨.eor, .immediate, 2, false⟩,
  ⟨.lsr, .implicit, 2, false⟩,
  ⟨.alr, .immediate, 2, false⟩,
  ⟨.jmp, .absolute, 3, false⟩,
  ⟨.eor, .absolute, 4, false⟩,
  ⟨.lsr, .absolute, 6, false⟩,
  ⟨.sre, .absolute, 6, false⟩]

/-- Opcodes 0x50 to 0x5F (30 R110). -/
def opcodeRow5 : List OpcodeEntry := [
  ⟨.bvc, .relative, 2, true⟩,
  ⟨.eor, .indirectIndexed, 5, true⟩,
  ⟨.kil, .implicit, 2, false⟩,
  ⟨.sre, .indirectIndexed, 8, false⟩,
  ⟨.nop, .zeroPageX, 4, false⟩,
  ⟨.eor, .zeroPageX, 4, false⟩,
  ⟨.lsr, .zeroPageX, 6, false⟩,
  ⟨.sre, .zeroPageX, 6, false⟩,
  ⟨.cli, .implicit, 2, false⟩,
  ⟨.eor, .absoluteY, 4, true⟩,
  ⟨.nop, .implicit, 2, false⟩,
  ⟨.sre, .absoluteY, 7, false⟩,
  ⟨.nop, .absoluteX, 4, true⟩,
  ⟨.eor, .absoluteX, 4, true⟩,
  ⟨.lsr, .absoluteX, 7, false⟩,
  ⟨.sre, .absoluteX, 7, false⟩]

/-- Opcodes 0x60 to 0x6F (30 R110). -/
def opcodeRow6 : List OpcodeEntry := [
  ⟨.rts, .implicit, 6, false⟩,
  ⟨.adc, .indexedIndirect, 6, false⟩,
  ⟨.kil, .implicit, 2, false⟩,
  ⟨.rra, .indexedIndirect, 8, false⟩,
  ⟨.nop, .zeroPage, 3, false⟩,
  ⟨.adc, .zeroPage, 3, false⟩,
  ⟨.ror, .zeroPage, 5, false⟩,
  ⟨.rra, .zeroPage, 5, false⟩,
  ⟨.pla, .implicit, 4, false⟩,
  ⟨.adc, .immediate, 2, false⟩,
  ⟨.ror, .implicit, 2, false⟩,
  ⟨.arr, .immediate, 2, false⟩,
  ⟨.jmp, .indirect, 5, false⟩,
  ⟨.adc, .absolute, 4, false⟩,
  ⟨.ror, .absolute, 6, false⟩,
  ⟨.rra, .absolute, 6, false⟩]

/-- Opcodes 0x70 to 0x7F (30 R110). -/
def opcodeRow7 : List OpcodeEntry := [
  ⟨.bvs, .relative, 2, true⟩,
  ⟨.adc, .indirectIndexed, 5, true⟩,
  ⟨.kil, .implicit, 2, false⟩,
  ⟨.rra, .indirectIndexed, 8, false⟩,
  ⟨.nop, .zeroPageX, 4, false⟩,
  ⟨.adc, .zeroPageX, 4, false⟩,
  ⟨.ror, .zeroPageX, 6, false⟩,
  ⟨.rra, .zeroPageX, 6, false⟩,
  ⟨.sei, .implicit, 2, false⟩,
  ⟨.adc, .absoluteY, 4, true⟩,
  ⟨.nop, .implicit, 2, false⟩,
  ⟨.rra, .absoluteY, 7, false⟩,
  ⟨.nop, .absoluteX, 4, true⟩,
  ⟨.adc, .absoluteX, 4, true⟩,
  ⟨.ror, .absoluteX, 7, false⟩,
  ⟨.rra, .absoluteX, 7, false⟩]

/-- Opcodes 0x80 to 0x8F (30 R110). -/
def opcodeRow8 : List OpcodeEntry := [
  ⟨.nop, .immediate, 2, false⟩,
  ⟨.sta, .indexedIndirect, 6, false⟩,
  ⟨.nop, .immediate, 2, false⟩,
  ⟨.sax, .indexedIndirect, 6, false⟩,
  ⟨.sty, .zeroPage, 3, false⟩,
  ⟨.sta, .zeroPage, 3, false⟩,
  ⟨.stx, .zeroPage, 3, false⟩,
  ⟨.sax, .zeroPage, 3, false⟩,
  ⟨.dey, .implicit, 2, false⟩,
  ⟨.nop, .immediate, 2, false⟩,
  ⟨.txa, .implicit, 2, false⟩,
  ⟨.xaa, .immediate, 2, false⟩,
  ⟨.sty, .absolute, 4, false⟩,
  ⟨.sta, .absolute, 4, false⟩,
  ⟨.stx, .absolute, 4, false⟩,
  ⟨.sax, .absolute, 4, false⟩]

/-- Opcodes 0x90 to 0x9F (30 R110). -/
def opcodeRow9 : List OpcodeEntry := [
  ⟨.bcc, .relative, 2, true⟩,
  ⟨.sta, .indirectIndexed, 6, false⟩,
  ⟨.kil, .implicit, 2, false⟩,
  ⟨.ahx, .indirectIndexed, 6, false⟩,
  ⟨.sty, .zeroPageX, 4, false⟩,
  ⟨.sta, .zeroPageX, 4, false⟩,
  ⟨.stx, .zeroPageY, 4, false⟩,
  ⟨.sax, .zeroPageY, 4, false⟩,
  ⟨.tya, .implicit, 2, false⟩,
  ⟨.sta, .absoluteY, 5, false⟩,
  ⟨.txs, .implicit, 2, false⟩,
  ⟨.tas, .absoluteY, 5, false⟩,
  ⟨.shy, .absoluteX, 5, false⟩,
  ⟨.sta, .absoluteX, 5, false⟩,
  ⟨.shx, .absoluteY, 5, false⟩,
  ⟨.ahx, .absoluteY, 5, false⟩]

/-- Opcodes 0xA0 to 0xAF (30 R110). -/
def opcodeRowA : List OpcodeEntry := [
  ⟨.ldy, .immediate, 2, false⟩,
  ⟨.lda, .indexedIndirect, 6, false⟩,
  ⟨.ldx, .immediate, 2, false⟩,
  ⟨.lax, .indexedIndirect, 6, false⟩,
  ⟨.ldy, .zeroPage, 3, false⟩,
  ⟨.lda, .zeroPage, 3, false⟩,
  ⟨.ldx, .zeroPage, 3, false⟩,
  ⟨.lax, .zeroPage, 3, false⟩,
  ⟨.tay, .implicit, 2, false⟩,
  ⟨.lda, .immediate, 2, false⟩,
  ⟨.tax, .implicit, 2, false⟩,
  ⟨.lax, .immediate, 2, false⟩,
  ⟨.ldy, .absolute, 4, false⟩,
  ⟨.lda, .absolute, 4, false⟩,
  ⟨.ldx, .absolute, 4, false⟩,
  ⟨.lax, .absolute, 4, false⟩]

/-- Opcodes 0xB0 to 0xBF (30 R110). -/
def opcodeRowB : List OpcodeEntry := [
  ⟨.bcs, .relative, 2, true⟩,
  ⟨.lda, .indirectIndexed, 5, true⟩,
  ⟨.kil, .implicit, 2, false⟩,
  ⟨.lax, .indirectIndexed, 5, true⟩,
  ⟨.ldy, .zeroPageX, 4, false⟩,
  ⟨.lda, .zeroPageX, 4, false⟩,
  ⟨.ldx, .zeroPageY, 4, false⟩,
  ⟨.lax, .zeroPageY, 4, false⟩,
  ⟨.clv, .implicit, 2, false⟩,
  ⟨.lda, .absoluteY, 4, true⟩,
  ⟨.tsx, .implicit, 2, false⟩,
  ⟨.las, .absoluteY, 4, true⟩,
  ⟨.ldy, .absoluteX, 4, true⟩,
  ⟨.lda, .absoluteX, 4, true⟩,
  ⟨.ldx, .absoluteY, 4, true⟩,
  ⟨.lax, .absoluteY, 4, true⟩]

/-- Opcodes 0xC0 to 0xCF (30 R110). -/
def opcodeRowC : List OpcodeEntry := [
  ⟨.cpy, .immediate, 2, false⟩,
  ⟨.cmp, .indexedIndirect, 6, false⟩,
  ⟨.nop, .immediate, 2, false⟩,
  ⟨.dcp, .indexedIndirect, 8, false⟩,
  ⟨.cpy, .zeroPage, 3, false⟩,
  ⟨.cmp, .zeroPage, 3, false⟩,
  ⟨.dec, .zeroPage, 5, false⟩,
  ⟨.dcp, .zeroPage, 5, false⟩,
  ⟨.iny, .implicit, 2, false⟩,
  ⟨.cmp, .immediate, 2, false⟩,
  ⟨.dex, .implicit, 2, false⟩,
  ⟨.axs, .immediate, 2, false⟩,
  ⟨.cpy, .absolute, 4, false⟩,
  ⟨.cmp, .absolute, 4, false⟩,
  ⟨.dec, .absolute, 6, false⟩,
  ⟨.dcp, .absolute, 6, false⟩]

/-- Opcodes 0xD0 to 0xDF (30 R110). -/
def opcodeRowD : List OpcodeEntry := [
  ⟨.bne, .relative, 2, true⟩,
  ⟨.cmp, .indirectIndexed, 5, true⟩,
  ⟨.kil, .implicit, 2, false⟩,
  ⟨.dcp, .indirectIndexed, 8, false⟩,
  ⟨.nop, .zeroPageX, 4, false⟩,
  ⟨.cmp, .zeroPageX, 4, false⟩,
  ⟨.dec, .zeroPageX, 6, false⟩,
  ⟨.dcp, .zeroPageX, 6, false⟩,
  ⟨.cld, .implicit, 2, false⟩,
  ⟨.cmp, .absoluteY, 4, true⟩,
  ⟨.nop, .implicit, 2, false⟩,
  ⟨.dcp, .absoluteY, 7, false⟩,
  ⟨.nop, .absoluteX, 4, true⟩,
  ⟨.cmp, .absoluteX, 4, true⟩,
  ⟨.dec, .absoluteX, 7, false⟩,
  ⟨.dcp, .absoluteX, 7, false⟩]

/-- Opcodes 0xE0 to 0xEF (30 R110). -/
def opcodeRowE : List OpcodeEntry := [
  ⟨.cpx, .immediate, 2, false⟩,
  ⟨.sbc, .indexedIndirect, 6, false⟩,
  ⟨.nop, .immediate, 2, false⟩,
  ⟨.isc, .indexedIndirect, 8, false⟩,
  ⟨.cpx, .zeroPage, 3, false⟩,
  ⟨.sbc, .zeroPage, 3, false⟩,
  ⟨.inc, .zeroPage, 5, false⟩,
  ⟨.isc, .zeroPage, 5, false⟩,
  ⟨.inx, .implicit, 2, false⟩,
  ⟨.sbc, .immediate, 2, false⟩,
  ⟨.nop, .implicit, 2, false⟩,
  ⟨.sbc, .immediate, 2, false⟩,
  ⟨.cpx, .absolute, 4, false⟩,
  ⟨.sbc, .absolute, 4, false⟩,
  ⟨.inc, .absolute, 6, false⟩,
  ⟨.isc, .absolute, 6, false⟩]

/-- Opcodes 0xF0 to 0xFF (30 R110). -/
def opcodeRowF : List OpcodeEntry := [
  ⟨.beq, .relative, 2, true⟩,
  ⟨.sbc, .indirectIndexed, 5, true⟩,
  ⟨.kil, .implicit, 2, false⟩,
  ⟨.isc, .indirectIndexed, 8, false⟩,
  ⟨.nop, .zeroPageX, 4, false⟩,
  ⟨.sbc, .zeroPageX, 4, false⟩,
  ⟨.inc, .zeroPageX, 6, false⟩,
  ⟨.isc, .zeroPageX, 6, false⟩,
  ⟨.sed, .implicit, 2, false⟩,
  ⟨.sbc, .absoluteY, 4, true⟩,
  ⟨.nop, .implicit, 2, false⟩,
  ⟨.isc, .absoluteY, 7, false⟩,
  ⟨.nop, .absoluteX, 4, true⟩,
  ⟨.sbc, .absoluteX, 4, true⟩,
  ⟨.inc, .absoluteX, 7, false⟩,
  ⟨.isc, .absoluteX, 7, false⟩]

/-- The opcode table, by high nibble and then low nibble (30 R110). -/
def opcodeTable : List (List OpcodeEntry) :=
  [opcodeRow0, opcodeRow1, opcodeRow2, opcodeRow3, opcodeRow4, opcodeRow5, opcodeRow6, opcodeRow7,
   opcodeRow8, opcodeRow9, opcodeRowA, opcodeRowB, opcodeRowC, opcodeRowD, opcodeRowE, opcodeRowF]

/-- The table entry of an opcode byte: reading the table with any byte succeeds (30 R100). -/
def entryOf (opcode : Byte) : OpcodeEntry :=
  (opcodeTable.getD (opcode.toNat / 16) []).getD (opcode.toNat % 16) ⟨.kil, .implicit, 0, false⟩

/-- How many operand bytes follow the opcode byte (30 R101, R115). -/
def Mode.operandCount : Mode → Nat
  | .implicit => 0
  | .immediate | .zeroPage | .zeroPageX | .zeroPageY | .indexedIndirect | .indirectIndexed | .relative => 1
  | .absolute | .absoluteX | .absoluteY | .indirect => 2

/-- The length of an instruction of a mode in bytes (30 R115). -/
def Mode.length (m : Mode) : Nat := 1 + m.operandCount

/-- The operand field assembled from the operand bytes, little-endian (30 R101, R103). -/
def operandOf (m : Mode) (b1 b2 : Byte) : Operand :=
  match m with
  | .implicit => .implicit
  | .immediate => .immediate b1
  | .zeroPage => .zeroPage b1
  | .zeroPageX => .zeroPageX b1
  | .zeroPageY => .zeroPageY b1
  | .indexedIndirect => .indexedIndirect b1
  | .indirectIndexed => .indirectIndexed b1
  | .absolute => .absolute (word16 b2 b1)
  | .absoluteX => .absoluteX (word16 b2 b1)
  | .absoluteY => .absoluteY (word16 b2 b1)
  | .indirect => .indirect (word16 b2 b1)
  | .relative => .relative b1

/-- The instruction of an opcode byte and its operand bytes; an operand byte the mode does not have is not used. -/
def instrOf (opcode b1 b2 : Byte) : Instr :=
  match (entryOf opcode).mnemonic with
  | .adc => .adc (operandOf (entryOf opcode).mode b1 b2)
  | .sbc => if opcode = 0xeb#8 then .sbcUndoc b1 else .sbc (operandOf (entryOf opcode).mode b1 b2)
  | .and => .and (operandOf (entryOf opcode).mode b1 b2)
  | .ora => .ora (operandOf (entryOf opcode).mode b1 b2)
  | .eor => .eor (operandOf (entryOf opcode).mode b1 b2)
  | .bit => .bit (operandOf (entryOf opcode).mode b1 b2)
  | .asl => .asl (operandOf (entryOf opcode).mode b1 b2)
  | .lsr => .lsr (operandOf (entryOf opcode).mode b1 b2)
  | .rol => .rol (operandOf (entryOf opcode).mode b1 b2)
  | .ror => .ror (operandOf (entryOf opcode).mode b1 b2)
  | .cmp => .cmp (operandOf (entryOf opcode).mode b1 b2)
  | .cpx => .cpx (operandOf (entryOf opcode).mode b1 b2)
  | .cpy => .cpy (operandOf (entryOf opcode).mode b1 b2)
  | .bcc => .bcc b1
  | .bcs => .bcs b1
  | .beq => .beq b1
  | .bne => .bne b1
  | .bmi => .bmi b1
  | .bpl => .bpl b1
  | .bvc => .bvc b1
  | .bvs => .bvs b1
  | .pha => .pha
  | .php => .php
  | .pla => .pla
  | .plp => .plp
  | .jsr => .jsr (word16 b2 b1)
  | .rts => .rts
  | .rti => .rti
  | .jmp => .jmp (operandOf (entryOf opcode).mode b1 b2)
  | .brk => .brk
  | .tax => .tax
  | .txa => .txa
  | .tay => .tay
  | .tya => .tya
  | .tsx => .tsx
  | .txs => .txs
  | .clc => .clc
  | .sec => .sec
  | .cli => .cli
  | .sei => .sei
  | .cld => .cld
  | .sed => .sed
  | .clv => .clv
  | .nop => if opcode = 0xea#8 then .nop else .nopUndoc opcode (operandOf (entryOf opcode).mode b1 b2)
  | .lda => .lda (operandOf (entryOf opcode).mode b1 b2)
  | .ldx => .ldx (operandOf (entryOf opcode).mode b1 b2)
  | .ldy => .ldy (operandOf (entryOf opcode).mode b1 b2)
  | .sta => .sta (operandOf (entryOf opcode).mode b1 b2)
  | .stx => .stx (operandOf (entryOf opcode).mode b1 b2)
  | .sty => .sty (operandOf (entryOf opcode).mode b1 b2)
  | .inc => .inc (operandOf (entryOf opcode).mode b1 b2)
  | .dec => .dec (operandOf (entryOf opcode).mode b1 b2)
  | .inx => .inx
  | .iny => .iny
  | .dex => .dex
  | .dey => .dey
  | .kil => .kil opcode
  | .slo => .slo (operandOf (entryOf opcode).mode b1 b2)
  | .rla => .rla (operandOf (entryOf opcode).mode b1 b2)
  | .sre => .sre (operandOf (entryOf opcode).mode b1 b2)
  | .rra => .rra (operandOf (entryOf opcode).mode b1 b2)
  | .sax => .sax (operandOf (entryOf opcode).mode b1 b2)
  | .lax => .lax (operandOf (entryOf opcode).mode b1 b2)
  | .dcp => .dcp (operandOf (entryOf opcode).mode b1 b2)
  | .isc => .isc (operandOf (entryOf opcode).mode b1 b2)
  | .anc => .anc opcode b1
  | .alr => .alr b1
  | .arr => .arr b1
  | .xaa => .xaa b1
  | .axs => .axs b1
  | .ahx => .ahx (operandOf (entryOf opcode).mode b1 b2)
  | .shy => .shy (word16 b2 b1)
  | .shx => .shx (word16 b2 b1)
  | .tas => .tas (word16 b2 b1)
  | .las => .las (word16 b2 b1)

/-- Why bytes hold no instruction: there are too few of them. No opcode byte is rejected (30 R113). -/
inductive DecodeError where
  | noOpcodeByte
  | operandBytesMissing (opcode : Byte)
  deriving DecidableEq, Repr

/-- What the decoder answers: the instruction at the head of the bytes with the bytes after it, or a rejection. -/
inductive Decoded where
  | instr (i : Instr) (rest : List Byte)
  | rejected (why : DecodeError)
  deriving DecidableEq, Repr

/-- Decode the instruction at the head of a list of bytes (30 R100, R115). -/
def decode : List Byte → Decoded
  | [] => .rejected .noOpcodeByte
  | opcode :: rest =>
    match (entryOf opcode).mode.operandCount, rest with
    | 0, rest => .instr (instrOf opcode 0 0) rest
    | 1, b1 :: rest => .instr (instrOf opcode b1 0) rest
    | 2, b1 :: b2 :: rest => .instr (instrOf opcode b1 b2) rest
    | _, _ => .rejected (.operandBytesMissing opcode)

/-- The opcode byte of a mnemonic in each of its modes: the "Encodings" table of each instruction rule (files 41 to
49; 30 R111). NOP, KIL, ANC and SBC 0xEB have bytes of their own in `opcodeOf`. -/
def Mnemonic.opcodes : Mnemonic → List (Mode × Byte)
  | .adc =>
    [(.indexedIndirect, 0x61#8), (.zeroPage, 0x65#8), (.immediate, 0x69#8), (.absolute, 0x6d#8),
     (.indirectIndexed, 0x71#8), (.zeroPageX, 0x75#8), (.absoluteY, 0x79#8), (.absoluteX, 0x7d#8)]
  | .sbc =>
    [(.indexedIndirect, 0xe1#8), (.zeroPage, 0xe5#8), (.immediate, 0xe9#8), (.absolute, 0xed#8),
     (.indirectIndexed, 0xf1#8), (.zeroPageX, 0xf5#8), (.absoluteY, 0xf9#8), (.absoluteX, 0xfd#8)]
  | .and =>
    [(.indexedIndirect, 0x21#8), (.zeroPage, 0x25#8), (.immediate, 0x29#8), (.absolute, 0x2d#8),
     (.indirectIndexed, 0x31#8), (.zeroPageX, 0x35#8), (.absoluteY, 0x39#8), (.absoluteX, 0x3d#8)]
  | .ora =>
    [(.indexedIndirect, 0x01#8), (.zeroPage, 0x05#8), (.immediate, 0x09#8), (.absolute, 0x0d#8),
     (.indirectIndexed, 0x11#8), (.zeroPageX, 0x15#8), (.absoluteY, 0x19#8), (.absoluteX, 0x1d#8)]
  | .eor =>
    [(.indexedIndirect, 0x41#8), (.zeroPage, 0x45#8), (.immediate, 0x49#8), (.absolute, 0x4d#8),
     (.indirectIndexed, 0x51#8), (.zeroPageX, 0x55#8), (.absoluteY, 0x59#8), (.absoluteX, 0x5d#8)]
  | .bit => [(.zeroPage, 0x24#8), (.absolute, 0x2c#8)]
  | .asl =>
    [(.zeroPage, 0x06#8), (.implicit, 0x0a#8), (.absolute, 0x0e#8), (.zeroPageX, 0x16#8),
     (.absoluteX, 0x1e#8)]
  | .lsr =>
    [(.zeroPage, 0x46#8), (.implicit, 0x4a#8), (.absolute, 0x4e#8), (.zeroPageX, 0x56#8),
     (.absoluteX, 0x5e#8)]
  | .rol =>
    [(.zeroPage, 0x26#8), (.implicit, 0x2a#8), (.absolute, 0x2e#8), (.zeroPageX, 0x36#8),
     (.absoluteX, 0x3e#8)]
  | .ror =>
    [(.zeroPage, 0x66#8), (.implicit, 0x6a#8), (.absolute, 0x6e#8), (.zeroPageX, 0x76#8),
     (.absoluteX, 0x7e#8)]
  | .cmp =>
    [(.indexedIndirect, 0xc1#8), (.zeroPage, 0xc5#8), (.immediate, 0xc9#8), (.absolute, 0xcd#8),
     (.indirectIndexed, 0xd1#8), (.zeroPageX, 0xd5#8), (.absoluteY, 0xd9#8), (.absoluteX, 0xdd#8)]
  | .cpx => [(.immediate, 0xe0#8), (.zeroPage, 0xe4#8), (.absolute, 0xec#8)]
  | .cpy => [(.immediate, 0xc0#8), (.zeroPage, 0xc4#8), (.absolute, 0xcc#8)]
  | .bcc => [(.relative, 0x90#8)]
  | .bcs => [(.relative, 0xb0#8)]
  | .beq => [(.relative, 0xf0#8)]
  | .bne => [(.relative, 0xd0#8)]
  | .bmi => [(.relative, 0x30#8)]
  | .bpl => [(.relative, 0x10#8)]
  | .bvc => [(.relative, 0x50#8)]
  | .bvs => [(.relative, 0x70#8)]
  | .pha => [(.implicit, 0x48#8)]
  | .php => [(.implicit, 0x08#8)]
  | .pla => [(.implicit, 0x68#8)]
  | .plp => [(.implicit, 0x28#8)]
  | .jsr => [(.absolute, 0x20#8)]
  | .rts => [(.implicit, 0x60#8)]
  | .rti => [(.implicit, 0x40#8)]
  | .jmp => [(.absolute, 0x4c#8), (.indirect, 0x6c#8)]
  | .brk => [(.implicit, 0x00#8)]
  | .tax => [(.implicit, 0xaa#8)]
  | .txa => [(.implicit, 0x8a#8)]
  | .tay => [(.implicit, 0xa8#8)]
  | .tya => [(.implicit, 0x98#8)]
  | .tsx => [(.implicit, 0xba#8)]
  | .txs => [(.implicit, 0x9a#8)]
  | .clc => [(.implicit, 0x18#8)]
  | .sec => [(.implicit, 0x38#8)]
  | .cli => [(.implicit, 0x58#8)]
  | .sei => [(.implicit, 0x78#8)]
  | .cld => [(.implicit, 0xd8#8)]
  | .sed => [(.implicit, 0xf8#8)]
  | .clv => [(.implicit, 0xb8#8)]
  | .nop => [(.implicit, 0xea#8)]
  | .lda =>
    [(.indexedIndirect, 0xa1#8), (.zeroPage, 0xa5#8), (.immediate, 0xa9#8), (.absolute, 0xad#8),
     (.indirectIndexed, 0xb1#8), (.zeroPageX, 0xb5#8), (.absoluteY, 0xb9#8), (.absoluteX, 0xbd#8)]
  | .ldx =>
    [(.immediate, 0xa2#8), (.zeroPage, 0xa6#8), (.absolute, 0xae#8), (.zeroPageY, 0xb6#8),
     (.absoluteY, 0xbe#8)]
  | .ldy =>
    [(.immediate, 0xa0#8), (.zeroPage, 0xa4#8), (.absolute, 0xac#8), (.zeroPageX, 0xb4#8),
     (.absoluteX, 0xbc#8)]
  | .sta =>
    [(.indexedIndirect, 0x81#8), (.zeroPage, 0x85#8), (.absolute, 0x8d#8), (.indirectIndexed, 0x91#8),
     (.zeroPageX, 0x95#8), (.absoluteY, 0x99#8), (.absoluteX, 0x9d#8)]
  | .stx => [(.zeroPage, 0x86#8), (.absolute, 0x8e#8), (.zeroPageY, 0x96#8)]
  | .sty => [(.zeroPage, 0x84#8), (.absolute, 0x8c#8), (.zeroPageX, 0x94#8)]
  | .inc => [(.zeroPage, 0xe6#8), (.absolute, 0xee#8), (.zeroPageX, 0xf6#8), (.absoluteX, 0xfe#8)]
  | .dec => [(.zeroPage, 0xc6#8), (.absolute, 0xce#8), (.zeroPageX, 0xd6#8), (.absoluteX, 0xde#8)]
  | .inx => [(.implicit, 0xe8#8)]
  | .iny => [(.implicit, 0xc8#8)]
  | .dex => [(.implicit, 0xca#8)]
  | .dey => [(.implicit, 0x88#8)]
  | .kil => []
  | .slo =>
    [(.indexedIndirect, 0x03#8), (.zeroPage, 0x07#8), (.absolute, 0x0f#8), (.indirectIndexed, 0x13#8),
     (.zeroPageX, 0x17#8), (.absoluteY, 0x1b#8), (.absoluteX, 0x1f#8)]
  | .rla =>
    [(.indexedIndirect, 0x23#8), (.zeroPage, 0x27#8), (.absolute, 0x2f#8), (.indirectIndexed, 0x33#8),
     (.zeroPageX, 0x37#8), (.absoluteY, 0x3b#8), (.absoluteX, 0x3f#8)]
  | .sre =>
    [(.indexedIndirect, 0x43#8), (.zeroPage, 0x47#8), (.absolute, 0x4f#8), (.indirectIndexed, 0x53#8),
     (.zeroPageX, 0x57#8), (.absoluteY, 0x5b#8), (.absoluteX, 0x5f#8)]
  | .rra =>
    [(.indexedIndirect, 0x63#8), (.zeroPage, 0x67#8), (.absolute, 0x6f#8), (.indirectIndexed, 0x73#8),
     (.zeroPageX, 0x77#8), (.absoluteY, 0x7b#8), (.absoluteX, 0x7f#8)]
  | .sax => [(.indexedIndirect, 0x83#8), (.zeroPage, 0x87#8), (.absolute, 0x8f#8), (.zeroPageY, 0x97#8)]
  | .lax =>
    [(.indexedIndirect, 0xa3#8), (.zeroPage, 0xa7#8), (.immediate, 0xab#8), (.absolute, 0xaf#8),
     (.indirectIndexed, 0xb3#8), (.zeroPageY, 0xb7#8), (.absoluteY, 0xbf#8)]
  | .dcp =>
    [(.indexedIndirect, 0xc3#8), (.zeroPage, 0xc7#8), (.absolute, 0xcf#8), (.indirectIndexed, 0xd3#8),
     (.zeroPageX, 0xd7#8), (.absoluteY, 0xdb#8), (.absoluteX, 0xdf#8)]
  | .isc =>
    [(.indexedIndirect, 0xe3#8), (.zeroPage, 0xe7#8), (.absolute, 0xef#8), (.indirectIndexed, 0xf3#8),
     (.zeroPageX, 0xf7#8), (.absoluteY, 0xfb#8), (.absoluteX, 0xff#8)]
  | .anc => []
  | .alr => [(.immediate, 0x4b#8)]
  | .arr => [(.immediate, 0x6b#8)]
  | .xaa => [(.immediate, 0x8b#8)]
  | .axs => [(.immediate, 0xcb#8)]
  | .ahx => [(.indirectIndexed, 0x93#8), (.absoluteY, 0x9f#8)]
  | .shy => [(.absoluteX, 0x9c#8)]
  | .shx => [(.absoluteY, 0x9e#8)]
  | .tas => [(.absoluteY, 0x9b#8)]
  | .las => [(.absoluteY, 0xbb#8)]

/-- The opcode byte that encodes an instruction, if one does. -/
def opcodeOf : Instr → Option Byte
  | .sbcUndoc _ => some 0xeb#8
  | .nopUndoc opcode o => if (nopUndocOpcodes o.mode).contains opcode then some opcode else none
  | .kil opcode => if kilOpcodes.contains opcode then some opcode else none
  | .anc opcode _ => if ancOpcodes.contains opcode then some opcode else none
  | i => i.mnemonic.opcodes.lookup i.mode

/-- The operand bytes, low byte first (30 R101). -/
def Operand.bytes : Operand → List Byte
  | .implicit => []
  | .immediate b | .zeroPage b | .zeroPageX b | .zeroPageY b | .indexedIndirect b | .indirectIndexed b
  | .relative b => [b]
  | .absolute w | .absoluteX w | .absoluteY w | .indirect w => [loByte w, hiByte w]

/-- The bytes of an instruction, if it is well-formed (30 R100). -/
def encode (i : Instr) : Option (List Byte) := (opcodeOf i).map fun opcode => opcode :: i.operand.bytes

/-- Byte `k` of an instruction whose bits are `w`, of which the lowest `nbits` are given and the others are 0. -/
def tableByte (nbits w k : Nat) : Byte := BitVec.ofNat 8 ((w % 2 ^ nbits) >>> (8 * k))

/-- What the decoder reads from an instruction of the opcode table laid out in memory, the first byte lowest. -/
def decodeTableWord (nbits w : Nat) : Option Instr :=
  match decode [tableByte nbits w 0, tableByte nbits w 1, tableByte nbits w 2] with
  | .instr i _ => some i
  | .rejected _ => none

end Sys2Proof
end

