-- ==== Sys2Proof/Config.lean ====
section
/-! DEFINITION. What an implementation fixes: the named parameters of 00_scope.md R5, the three vector addresses,
the bus interface's vocabulary, and the free values (constants with no body). -/

namespace Sys2Proof

/-- Which undocumented-only mnemonics execute (00 R5, 49 R300, 92 D6). -/
inductive UndocPolicy where
  /-- They raise `UnimplementedInstruction(opcode)`: the spec's default. -/
  | fault
  /-- They do what the informative sentences of 49_undocumented.md R304 to R321 say (log entry 10). -/
  | execute
  deriving DecidableEq, Repr

/-- The OPEN parameters of 92_eei_decisions.md, other than `Bus` (log entry 5). -/
structure Params where
  /-- `BRK_PAD` (92 D5): true is 1 (BRK pushes its own address plus 2), false is 0. -/
  brkPad : Bool
  /-- `UNDOC_POLICY` (92 D6). -/
  undocPolicy : UndocPolicy
  /-- `INT_CYCLES` (92 D13): cycles an NMI or IRQ entry adds. -/
  intCycles : Nat
  /-- `RESET_CYCLES` (92 D12): the cycle counter after `reset()`. -/
  resetCycles : Nat
  deriving DecidableEq, Repr

/-- The defaults of 00_scope.md R5. -/
def Params.default : Params := ⟨true, .fault, 7, 0⟩

/-- Read or write, the two operations of the bus (20 R60). -/
inductive AccessKind where
  | read
  | write
  deriving DecidableEq, Repr

/-- One completed bus access: the byte read from, or written at, one address (20 R60, 92 D25). -/
structure BusAccess where
  kind : AccessKind
  addr : Addr
  value : Byte
  deriving DecidableEq, Repr

namespace Config

/-- `VEC_NMI` (00 R5, 60 R353). -/
def vecNmi : Addr := 0xFFFA#16

/-- `VEC_RESET` (00 R5, 60 R353). -/
def vecReset : Addr := 0xFFFC#16

/-- `VEC_IRQ`, shared by IRQ and BRK (00 R5, 60 R353). -/
def vecIrq : Addr := 0xFFFE#16

/-- What a byte of memory that nothing has written reads as: FlatRAM's initial contents (20 R84, 92 D17).
DESIGN CHOICE, unsafe: 70 R385 (e) says a program must not assume zero (log entry 1). -/
def unlistedByte : Byte := 0x00#8

/-- FREE VALUE. What a device outside the core answers to a read at an address, given every access the bus has
completed so far, newest first: a byte, or nothing (`UnmappedAddress`). A bus with a state of its own (20 R60) is such a
function of the access history (log entry 3), if an access that raises does not change that state (DESIGN CHOICE, log
entry 24). -/
opaque externalRead : List BusAccess → Addr → Option Byte

/-- FREE VALUE. Whether a device outside the core accepts a write, given the completed accesses (20 R60, log entries 3
and 24). -/
opaque externalWrite : List BusAccess → Addr → Byte → Bool

/-- FREE VALUE. The n-th value that an unstable undocumented opcode produces under `UNDOC_POLICY = execute`
(93 I2 "any value", log entry 11). -/
opaque unstableValue : Nat → Byte

end Config
end Sys2Proof
end

