-- ==== Sys2Proof/Machine/State.lean ====
section
/-! DEFINITION. The state of the machine as plain data (10_state.md), the fault and refusal reasons, the named field
updates, and the state after reset (10 R48, 70 R380). -/

namespace Sys2Proof.Machine

/-- The two execution-time faults of the core (60 R341 to R346). A fault is recorded in `run` by the transition that
raises it, whose outcome is a next state holding everything done before the raise (60 R341 (b), (c)); `step` answers
it as a fault in every Faulted state (40 R131). Safe: the machine stops where the spec says it stops (log entry 4). -/
inductive Fault where
  /-- Raised by a bus access that nothing behind the bus claims (60 R342). Answered by `step` in Faulted. Safe. -/
  | unmappedAddress (address : Addr)
  /-- Raised by the handlers of the undocumented-only opcode bytes (60 R344). Answered by `step` in Faulted. Safe. -/
  | unimplementedInstruction (opcode : Byte)
  deriving DecidableEq, Repr

/-- Why the model gives no meaning to an instruction term. -/
inductive Refusal where
  /-- Answered by an arm of `exec` that has no meaning yet; no arm does. Safe. -/
  | notModelled (mnemonic : String)
  /-- Answered by `exec` on a term that no bytes encode (not WellFormed); `step` never meets one, since the decoder
  only yields well-formed instructions. Safe (log entry 16). -/
  | illFormed
  deriving DecidableEq, Repr

/-- The run state (10 R42). -/
inductive RunState where
  | running
  | faulted (f : Fault)
  deriving DecidableEq, Repr

/-- What answers a range of bus addresses (20 R60; log entry 2). -/
inductive Backing where
  /-- Read-write memory. -/
  | ram
  /-- Read-only memory: it accepts writes and ignores them (20 R60). -/
  | rom
  /-- A device outside the core: `Config.externalRead` and `Config.externalWrite` answer (log entry 3). -/
  | external
  deriving DecidableEq, Repr

/-- The bus addresses `first` to `last`, both included, and what answers them. -/
structure Region where
  first : Addr
  last : Addr
  backing : Backing
  deriving DecidableEq, Repr

/-- Memory contents: (address, byte) pairs in the canonical form `Memory.wf` of Machine/Ops.lean. -/
abbrev Memory := List Host.Cell

/-- The state: 10 R20's list, the input `irq_line` (10 R44), the bus backend (20 R60) with its trace (92 D25), the
parameters of 00 R5, and the model's own `freeIndex`. -/
structure State where
  /-- `A`, the accumulator (10 R21). -/
  a : Byte
  /-- `X`, an index register (10 R22). -/
  x : Byte
  /-- `Y`, an index register (10 R23). -/
  y : Byte
  /-- `S`, the stack pointer (10 R24). -/
  sp : Byte
  /-- `PC` (10 R25). -/
  pc : Addr
  /-- `P`, the status register (10 R26). -/
  p : Byte
  /-- The cycle counter (10 R40). -/
  cycles : Nat
  /-- The run state (10 R42). -/
  run : RunState
  /-- The NMI latch (10 R43). -/
  nmiPending : Bool
  /-- The level of the IRQ input as the environment presents it (10 R44; log entry 6). -/
  irqLine : Bool
  /-- The contents of the memory behind the bus (20 R80). -/
  mem : Memory
  /-- What answers each bus address: the first range that holds it, and none where the address is unmapped. -/
  busMap : List Region
  /-- The completed bus accesses, newest first (20 R66, 92 D25; log entry 13). -/
  busLog : List BusAccess
  /-- The machine's parameters; no transition writes them (log entry 5). -/
  params : Params
  /-- The model's own: the number of the next free value `Config.unstableValue` (log entry 11). -/
  freeIndex : Nat
  deriving DecidableEq, Repr

namespace State

def setA (s : State) (v : Byte) : State := { s with a := v }
def setX (s : State) (v : Byte) : State := { s with x := v }
def setY (s : State) (v : Byte) : State := { s with y := v }
def setSp (s : State) (v : Byte) : State := { s with sp := v }
def setPc (s : State) (v : Addr) : State := { s with pc := v }
def setP (s : State) (v : Byte) : State := { s with p := v }
def addCycles (s : State) (n : Nat) : State := { s with cycles := s.cycles + n }
def setRun (s : State) (r : RunState) : State := { s with run := r }
def setNmiPending (s : State) (b : Bool) : State := { s with nmiPending := b }
def setIrqLine (s : State) (b : Bool) : State := { s with irqLine := b }
def setMem (s : State) (m : Memory) : State := { s with mem := m }
/-- Record a completed bus access. -/
def log (s : State) (access : BusAccess) : State := { s with busLog := access :: s.busLog }
def setFreeIndex (s : State) (n : Nat) : State := { s with freeIndex := n }

/-- FlatRAM: 65536 bytes of read-write memory, every address mapped (20 R84, 92 D17). -/
def flatRam : List Region := [⟨0x0000#16, 0xFFFF#16, .ram⟩]

/-- The state right after `reset()` (10 R48, 70 R380) on FlatRAM with nothing written: PC is the two zero bytes of the
reset vector, and the two vector reads stand in the trace (log entries 1, 2, 13). -/
def reset : State where
  a := 0x00#8
  x := 0x00#8
  y := 0x00#8
  sp := 0xFD#8
  pc := 0x0000#16
  p := 0x24#8
  cycles := Params.default.resetCycles
  run := .running
  nmiPending := false
  irqLine := false
  mem := []
  busMap := flatRam
  busLog := [⟨.read, 0xFFFD#16, 0x00#8⟩, ⟨.read, 0xFFFC#16, 0x00#8⟩]
  params := Params.default
  freeIndex := 0

end State
end Sys2Proof.Machine
end

