-- ==== Sys2Proof/Machine/Flags.lean ====
section
/-! DEFINITION. The status register P: its bits (10_state.md R26), SetZN (R32), the byte that is pushed and the value
that is pulled (R37), and every flag computation of the arithmetic, shift and compare rules. -/

namespace Sys2Proof.Machine

/-! The bits of a status byte (10 R26). -/

def flagC (p : Byte) : Bool := p.getLsbD 0
def flagZ (p : Byte) : Bool := p.getLsbD 1
def flagI (p : Byte) : Bool := p.getLsbD 2
def flagD (p : Byte) : Bool := p.getLsbD 3
def flagB (p : Byte) : Bool := p.getLsbD 4
def flagR (p : Byte) : Bool := p.getLsbD 5
def flagV (p : Byte) : Bool := p.getLsbD 6
def flagN (p : Byte) : Bool := p.getLsbD 7

/-- Write the bits of a status byte selected by `mask`, all with one value, leaving the others. -/
def writeMask (mask : Byte) (b : Bool) (p : Byte) : Byte := if b then p ||| mask else p &&& ~~~mask

/-! `P.x <- b` writes one bit and leaves the others (00 R7). -/

def setC (b : Bool) (p : Byte) : Byte := writeMask 0x01#8 b p
def setZ (b : Bool) (p : Byte) : Byte := writeMask 0x02#8 b p
def setI (b : Bool) (p : Byte) : Byte := writeMask 0x04#8 b p
def setD (b : Bool) (p : Byte) : Byte := writeMask 0x08#8 b p
def setV (b : Bool) (p : Byte) : Byte := writeMask 0x40#8 b p
def setN (b : Bool) (p : Byte) : Byte := writeMask 0x80#8 b p

/-- `SetZN(v)` (10 R32). -/
def setZN (v : Byte) (p : Byte) : Byte := setN (v.getLsbD 7) (setZ (v == 0#8) p)

/-- `PushedP(brk)`, the status byte that is pushed (10 R37). -/
def pushedP (brk : Bool) (p : Byte) : Byte :=
  if brk then p ||| 0x20#8 ||| 0x10#8 else (p ||| 0x20#8) &&& 0xEF#8

/-- `PulledP(b)`, the value PLP and RTI write to P (10 R37). -/
def pulledP (b : Byte) : Byte := (b &&& 0xEF#8) ||| 0x20#8

/-- A carry as a number. -/
def carryNat (p : Byte) : Nat := (flagC p).toNat

/-- The sum of ADC on unbounded integers (41 R161). -/
def adcSum (a m p : Byte) : Nat := a.toNat + m.toNat + carryNat p

/-- The result byte of ADC (41 R161). -/
def adcResult (a m p : Byte) : Byte := BitVec.ofNat 8 (adcSum a m p)

/-- P after ADC (41 R161): C is bit 8 of the sum, V from the old A, Z and N of the result. -/
def adcP (a m p : Byte) : Byte :=
  let r := adcResult a m p
  setZN r (setV (((a ^^^ r) &&& (m ^^^ r)).getLsbD 7) (setC (decide (adcSum a m p > 0xFF)) p))

/-- The difference of SBC on unbounded integers (41 R162). -/
def sbcDiff (a m p : Byte) : Int := (a.toNat : Int) - m.toNat - (1 - carryNat p)

/-- The result byte of SBC (41 R162). -/
def sbcResult (a m p : Byte) : Byte := BitVec.ofInt 8 (sbcDiff a m p)

/-- P after SBC (41 R162): C is 1 when there is no borrow, V from the old A, Z and N of the result. -/
def sbcP (a m p : Byte) : Byte :=
  let r := sbcResult a m p
  setZN r (setV (((a ^^^ m) &&& (a ^^^ r)).getLsbD 7) (setC (decide (sbcDiff a m p ≥ 0)) p))

/-- P after a compare of a register with M (44 R190). -/
def compareP (reg m p : Byte) : Byte := setZN (reg - m) (setC (decide (reg.toNat ≥ m.toNat)) p)

/-- P after BIT (42 R173). -/
def bitP (a m p : Byte) : Byte := setN (m.getLsbD 7) (setV (m.getLsbD 6) (setZ (a &&& m == 0#8) p))

/-- A shift or rotate (43 R181 to R184): its result and the bit shifted out, from the operand and the old carry. -/
structure Shifted where
  result : Byte
  out : Bool
  deriving DecidableEq, Repr

/-- A carry as the byte 0 or 1. -/
def carryByte (c : Bool) : Byte := if c then 1#8 else 0#8

/-- ASL (43 R181). -/
def aslShift (v _p : Byte) : Shifted := ⟨v <<< 1, v.getLsbD 7⟩

/-- LSR (43 R182). -/
def lsrShift (v _p : Byte) : Shifted := ⟨v >>> 1, v.getLsbD 0⟩

/-- ROL (43 R183): the old carry enters bit 0. -/
def rolShift (v p : Byte) : Shifted := ⟨(v <<< 1) ||| carryByte (flagC p), v.getLsbD 7⟩

/-- ROR (43 R184): the old carry enters bit 7. -/
def rorShift (v p : Byte) : Shifted := ⟨(v >>> 1) ||| (carryByte (flagC p) <<< 7), v.getLsbD 0⟩

/-- P after a shift or rotate (43 R180): C from the bit shifted out, Z and N of the result. -/
def shiftP (r : Shifted) (p : Byte) : Byte := setZN r.result (setC r.out p)

end Sys2Proof.Machine
end

