-- ==== Sys2Proof/Machine/Ops.lean ====
section
/-! DEFINITION. The named operations over memory, the bus, the stack and the exception mechanism (20_memory.md,
60_exceptions.md). -/

namespace Sys2Proof.Machine

/-! ## Memory contents -/

/-- The byte at an address; an address not listed reads as `Config.unlistedByte`. -/
def Memory.read : Memory → Nat → Byte
  | [], _ => Config.unlistedByte
  | (k, v) :: m, a => if k = a then v else Memory.read m a

/-- Write a byte, keeping the canonical form: writing the byte an unlisted address reads as removes the entry. -/
def Memory.write : Memory → Nat → Byte → Memory
  | [], a, v => if v = Config.unlistedByte then [] else [(a, v)]
  | (k, w) :: m, a, v =>
    if a < k then
      if v = Config.unlistedByte then (k, w) :: m else (a, v) :: (k, w) :: m
    else if a = k then
      if v = Config.unlistedByte then m else (a, v) :: m
    else (k, w) :: Memory.write m a v

/-- Every address is at least `low`, in the address space and strictly rising, and no byte is the unlisted byte. -/
def Memory.wfFrom : Nat → Memory → Bool
  | _, [] => true
  | low, (k, v) :: m =>
    decide (low ≤ k) && decide (k < 65536) && decide (v ≠ Config.unlistedByte) && Memory.wfFrom (k + 1) m

/-- The canonical form of memory. -/
def Memory.wf (m : Memory) : Bool := Memory.wfFrom 0 m

/-- The byte of memory at a bus address, with no bus access. -/
def State.peek (s : State) (a : Addr) : Byte := Memory.read s.mem a.toNat

/-! ## What answers a bus address -/

/-- A range holds an address. -/
def Region.holds (r : Region) (a : Addr) : Bool := decide (r.first ≤ a) && decide (a ≤ r.last)

/-- What answers an address: the first range that holds it (log entry 18), or nothing (unmapped). -/
def backingOf : List Region → Addr → Option Backing
  | [], _ => none
  | r :: rs, a => if r.holds a then some r.backing else backingOf rs a

/-- The address is answered by memory (RAM or ROM). -/
def State.isMemory (s : State) (a : Addr) : Bool :=
  backingOf s.busMap a == some .ram || backingOf s.busMap a == some .rom

/-- The address is answered by read-write memory. -/
def State.isRam (s : State) (a : Addr) : Bool := backingOf s.busMap a == some .ram

/-! ## Computations that may raise a fault -/

/-- How a sequence of statements ends: done with a value, or stopped by a raised fault; either way with the state at
that point (00 R8, 60 R341). -/
inductive Result (α : Type) where
  | done (value : α) (s : State)
  | raised (f : Fault) (s : State)
  deriving DecidableEq, Repr

/-- Continue with the next statement; a raise abandons the rest (60 R341 (a)). -/
def Result.bind {α β : Type} (r : Result α) (k : α → State → Result β) : Result β :=
  match r with
  | .done value s => k value s
  | .raised f s => .raised f s

/-- The outcome of a transition: a raise is a next state whose run state is Faulted (60 R341; log entry 4). -/
def Result.toOutcome {α : Type} : Result α → Host.Outcome State Fault Refusal
  | .done _ s => .next s
  | .raised _ s => .next s

/-- `raise f` (60 R341): earlier writes stay, `run <- Faulted(f)`. -/
def raise {α : Type} (f : Fault) (s : State) : Result α := .raised f (s.setRun (.faulted f))

/-! ## The bus (20 R60 to R63) -/

/-- `BusRead(a)` (20 R60). An access that raises is not in the trace and changes no memory, so it does not change the bus's
own state, which 00 R10 and 20 R60 leave open: DESIGN CHOICE, log entry 24. -/
def busRead (a : Addr) (s : State) : Result Byte :=
  match backingOf s.busMap a with
  | some .ram => .done (s.peek a) (s.log ⟨.read, a, s.peek a⟩)
  | some .rom => .done (s.peek a) (s.log ⟨.read, a, s.peek a⟩)
  | some .external =>
    match Config.externalRead s.busLog a with
    | some v => .done v (s.log ⟨.read, a, v⟩)
    | none => raise (.unmappedAddress a) s
  | none => raise (.unmappedAddress a) s

/-- `BusWrite(a, v)` (20 R60): ROM ignores the write (log entry 19); one that raises does not change the bus's own state
(log entry 24). -/
def busWrite (a : Addr) (v : Byte) (s : State) : Result Unit :=
  match backingOf s.busMap a with
  | some .ram => .done () ((s.setMem (Memory.write s.mem a.toNat v)).log ⟨.write, a, v⟩)
  | some .rom => .done () (s.log ⟨.write, a, v⟩)
  | some .external =>
    if Config.externalWrite s.busLog a v then .done () (s.log ⟨.write, a, v⟩) else raise (.unmappedAddress a) s
  | none => raise (.unmappedAddress a) s

/-- `MemRead(a, 2)`: low byte first, the second address wraps (20 R62). -/
def memRead16 (a : Addr) (s : State) : Result Addr :=
  (busRead a s).bind fun lo s => (busRead (a + 1) s).bind fun hi s => .done (word16 hi lo) s

/-- The second address of `MemReadWrap(a)`: the next byte of the same page (20 R63). -/
def nextInPage (a : Addr) : Addr := word16 (hiByte a) (loByte a + 1)

/-- `MemReadWrap(a)` (20 R63). -/
def memReadWrap (a : Addr) (s : State) : Result Addr :=
  (busRead a s).bind fun lo s => (busRead (nextInPage a) s).bind fun hi s => .done (word16 hi lo) s

/-! ## The stack (20 R70 to R75) -/

/-- `StackAddr(s)` (20 R70). -/
def stackAddr (sp : Byte) : Addr := word16 0x01#8 sp

/-- `Push(v)`: write, then decrement (20 R71). -/
def push (v : Byte) (s : State) : Result Unit :=
  (busWrite (stackAddr s.sp) v s).bind fun _ s => .done () (s.setSp (s.sp - 1))

/-- `Pull()`: increment, then read (20 R72). -/
def pull (s : State) : Result Byte :=
  let s := s.setSp (s.sp + 1)
  busRead (stackAddr s.sp) s

/-- `Push16(w)`: high byte first (20 R73). -/
def push16 (w : Addr) (s : State) : Result Unit :=
  (push (hiByte w) s).bind fun _ s => push (loByte w) s

/-- `Pull16()`: low byte first (20 R74). -/
def pull16 (s : State) : Result Addr :=
  (pull s).bind fun lo s => (pull s).bind fun hi s => .done (word16 hi lo) s

/-! ## Taking an exception and returning from one -/

/-- The state an exception reads its vector in. BRK has set `P.I` by then (46 R228); an interrupt entry that faults on
its vector leaves `P.I` as it was (60 R352 by decision D21 of 92_eei_decisions.md; log entry 9). -/
def beforeVector (brk : Bool) (s : State) : State := if brk then s.setP (setI true s.p) else s

/-- Taking an exception, shared by BRK (46 R228) and the interrupt entries (60 R352): push PC, push the status with
Break set for BRK and clear otherwise, set `P.I`, load PC from the vector. -/
def enterException (brk : Bool) (vector : Addr) (s : State) : Result Unit :=
  (push16 s.pc s).bind fun _ s =>
    (push (pushedP brk s.p) s).bind fun _ s =>
      (memRead16 vector (beforeVector brk s)).bind fun target s => .done () ((s.setP (setI true s.p)).setPc target)

/-- The return from an exception (46 R226, 60 R357): status, then PC, with nothing added to it. -/
def returnFromException (s : State) : Result Unit :=
  (pull s).bind fun b s => (pull16 (s.setP (pulledP b))).bind fun target s => .done () (s.setPc target)

end Sys2Proof.Machine
end

