-- ==== Sys2Proof/Machine/Operands.lean ====
section
/-! DEFINITION. The addressing-mode resolver (40_addressing_modes.md R141 to R152), the operand accesses of the handlers
(R134), cycle accounting (R136), and `perform`: steps 3 to 5 of `step()` (R130) around an instruction's handler. -/

namespace Sys2Proof.Machine

/-- What the resolver hands to the handler: the effective address, or the implicit marker, and the page-crossed
indication (40 R133, R134). -/
structure Resolved where
  ea : Option Addr
  crossed : Bool
  deriving DecidableEq, Repr

/-- The page-crossed indication of two addresses (40 R133). -/
def pageCrossed (base ea : Addr) : Bool := hiByte base != hiByte ea

/-- An address in the zero page. -/
def zeroPageAddr (zp8 : Byte) : Addr := word16 0x00#8 zp8

/-- An indexed 16-bit address: the index is unsigned and the sum wraps (30 R103). -/
def indexed (base : Addr) (index : Byte) : Addr := base + index.setWidth 16

/-- The target of a branch from the address after the offset byte (40 R152). -/
def branchTarget (pc : Addr) (rel8 : Byte) : Addr := pc + rel8.signExtend 16

/-- The effective address and page crossing of an indexed absolute or indirect-indexed access (40 R147, R149). -/
def indexedFrom (base : Addr) (index : Byte) : Resolved :=
  ⟨some (indexed base index), pageCrossed base (indexed base index)⟩

/-- The resolver (40 R141 to R152). PC already stands after the operand bytes, which are in the operand. -/
def resolve (o : Operand) (s : State) : Result Resolved :=
  match o with
  | .implicit => .done ⟨none, false⟩ s
  | .immediate _ => .done ⟨some (s.pc - 1), false⟩ s
  | .zeroPage zp8 => .done ⟨some (zeroPageAddr zp8), false⟩ s
  | .zeroPageX zp8 => .done ⟨some (zeroPageAddr (zp8 + s.x)), false⟩ s
  | .zeroPageY zp8 => .done ⟨some (zeroPageAddr (zp8 + s.y)), false⟩ s
  | .indexedIndirect zp8 => (memReadWrap (zeroPageAddr (zp8 + s.x)) s).bind fun ea s => .done ⟨some ea, false⟩ s
  | .indirectIndexed zp8 => (memReadWrap (zeroPageAddr zp8) s).bind fun base s => .done (indexedFrom base s.y) s
  | .absolute addr16 => .done ⟨some addr16, false⟩ s
  | .absoluteX addr16 => .done (indexedFrom addr16 s.x) s
  | .absoluteY addr16 => .done (indexedFrom addr16 s.y) s
  | .indirect ptr16 => (memReadWrap ptr16 s).bind fun ea s => .done ⟨some ea, false⟩ s
  | .relative rel8 => .done ⟨some (branchTarget s.pc rel8), pageCrossed s.pc (branchTarget s.pc rel8)⟩ s

/-- `M`, the operand value a reading handler uses (40 R134): the immediate byte, which `step` has read at its address
(40 R142; log entry 7), the byte at the effective address, or for the implicit marker the accumulator. -/
def readOperand (o : Operand) (r : Resolved) (s : State) : Result Byte :=
  match o, r.ea with
  | .immediate imm8, _ => .done imm8 s
  | _, some ea => busRead ea s
  | _, none => .done s.a s

/-- Write a handler's result: at the effective address, or for the implicit marker to the accumulator (43 R180). -/
def writeOperand (r : Resolved) (v : Byte) (s : State) : Result Unit :=
  match r.ea with
  | some ea => busWrite ea v s
  | none => .done () (s.setA v)

/-- `PC <- ea` (00 R7). -/
def jumpTo (r : Resolved) (s : State) : State :=
  match r.ea with
  | some ea => s.setPc ea
  | none => s

/-- The cycles of one instruction: base plus the extra cycles of 40 R136. -/
def OpcodeEntry.cost (e : OpcodeEntry) (crossed taken : Bool) : Nat :=
  if e.eligible then
    if e.mode = .relative then
      if taken then (if crossed then e.base + 2 else e.base + 1) else e.base
    else if crossed then e.base + 1 else e.base
  else e.base

/-- The table entry of an instruction, if it has an encoding. -/
def tableEntry (i : Instr) : Option OpcodeEntry := (opcodeOf i).map entryOf

/-- Steps 3 to 5 of `step()` (40 R130): resolve, run the handler (which answers whether a branch was taken), add the
cycles. -/
def perform (i : Instr) (handler : Resolved → State → Result Bool) (s : State) :
    Host.Outcome State Fault Refusal :=
  match tableEntry i with
  | none => .refused .illFormed
  | some e =>
    ((resolve i.operand s).bind fun r s =>
      (handler r s).bind fun taken s =>
        .done () (s.addCycles (OpcodeEntry.cost e r.crossed taken))).toOutcome

/-- A handler that reads `M` and then only changes registers and flags, by `f M s`. -/
def readThen (o : Operand) (f : Byte → State → State) (r : Resolved) (s : State) : Result Bool :=
  (readOperand o r s).bind fun m s => .done false (f m s)

/-- A handler that makes no bus access and changes registers and flags. -/
def registerOnly (f : State → State) (_r : Resolved) (s : State) : Result Bool := .done false (f s)

/-- A handler that stores one byte at the effective address (48 R273). -/
def storeByte (value : State → Byte) (r : Resolved) (s : State) : Result Bool :=
  (writeOperand r (value s) s).bind fun _ s => .done false s

/-- A read-modify-write handler (43 R180, 48 R280): read, write the changed byte back, then `after old s` for the
registers and flags. `P` of the state before the write-back is what `change` sees. -/
def readModifyWrite (o : Operand) (change : Byte → State → Byte) (after : Byte → State → State)
    (r : Resolved) (s : State) : Result Bool :=
  (readOperand o r s).bind fun v s =>
    (writeOperand r (change v s) s).bind fun _ s => .done false (after v s)

end Sys2Proof.Machine
end

