-- ==== Sys2Proof/Machine/Arithmetic.lean ====
section
/-! DEFINITION. ADC and SBC (41_arithmetic.md R160 to R163), and SBC by opcode 0xEB (49_undocumented.md R303). Both are
binary whatever `P.D` holds (R160). -/

namespace Sys2Proof.Machine

/-- `A` and `P` after ADC of `m` (41 R161). -/
def adcEffect (m : Byte) (s : State) : State := (s.setA (adcResult s.a m s.p)).setP (adcP s.a m s.p)

/-- `A` and `P` after SBC of `m` (41 R162). -/
def sbcEffect (m : Byte) (s : State) : State := (s.setA (sbcResult s.a m s.p)).setP (sbcP s.a m s.p)

/-- ADC (41 R161). -/
def execAdc (o : Operand) (s : State) : Host.Outcome State Fault Refusal :=
  perform (.adc o) (readThen o adcEffect) s

/-- SBC (41 R162). -/
def execSbc (o : Operand) (s : State) : Host.Outcome State Fault Refusal :=
  perform (.sbc o) (readThen o sbcEffect) s

/-- SBC, opcode 0xEB (49 R303): exactly R162. -/
def execSbcUndoc (imm8 : Byte) (s : State) : Host.Outcome State Fault Refusal :=
  perform (.sbcUndoc imm8) (readThen (.immediate imm8) sbcEffect) s

end Sys2Proof.Machine
end

