-- ==== Sys2Proof/Machine/Branch.lean ====
section
/-! DEFINITION. The eight conditional branches (45_branch.md R200 to R208). -/

namespace Sys2Proof.Machine

/-- The branch operation (45 R200): no bus access, no flag written; reports whether the branch was taken. -/
def branchIf (cond : Byte → Bool) (r : Resolved) (s : State) : Result Bool :=
  if cond s.p then .done true (jumpTo r s) else .done false s

/-- BCC: C = 0 (45 R201). -/
def execBcc (rel8 : Byte) (s : State) : Host.Outcome State Fault Refusal :=
  perform (.bcc rel8) (branchIf fun p => !flagC p) s

/-- BCS: C = 1 (45 R202). -/
def execBcs (rel8 : Byte) (s : State) : Host.Outcome State Fault Refusal :=
  perform (.bcs rel8) (branchIf flagC) s

/-- BEQ: Z = 1 (45 R203). -/
def execBeq (rel8 : Byte) (s : State) : Host.Outcome State Fault Refusal :=
  perform (.beq rel8) (branchIf flagZ) s

/-- BNE: Z = 0 (45 R204). -/
def execBne (rel8 : Byte) (s : State) : Host.Outcome State Fault Refusal :=
  perform (.bne rel8) (branchIf fun p => !flagZ p) s

/-- BMI: N = 1 (45 R205). -/
def execBmi (rel8 : Byte) (s : State) : Host.Outcome State Fault Refusal :=
  perform (.bmi rel8) (branchIf flagN) s

/-- BPL: N = 0 (45 R206). -/
def execBpl (rel8 : Byte) (s : State) : Host.Outcome State Fault Refusal :=
  perform (.bpl rel8) (branchIf fun p => !flagN p) s

/-- BVC: V = 0 (45 R207). -/
def execBvc (rel8 : Byte) (s : State) : Host.Outcome State Fault Refusal :=
  perform (.bvc rel8) (branchIf fun p => !flagV p) s

/-- BVS: V = 1 (45 R208). -/
def execBvs (rel8 : Byte) (s : State) : Host.Outcome State Fault Refusal :=
  perform (.bvs rel8) (branchIf flagV) s

end Sys2Proof.Machine
end

