-- ==== Sys2Proof/Machine/Compare.lean ====
section
/-! DEFINITION. CMP, CPX and CPY (44_compare.md R190 to R193). -/

namespace Sys2Proof.Machine

/-- The compare operation of a register with `M` (44 R190): only C, Z and N are written. -/
def compareWith (reg : State → Byte) (m : Byte) (s : State) : State := s.setP (compareP (reg s) m s.p)

/-- CMP (44 R191). -/
def execCmp (o : Operand) (s : State) : Host.Outcome State Fault Refusal :=
  perform (.cmp o) (readThen o (compareWith State.a)) s

/-- CPX (44 R192). -/
def execCpx (o : Operand) (s : State) : Host.Outcome State Fault Refusal :=
  perform (.cpx o) (readThen o (compareWith State.x)) s

/-- CPY (44 R193). -/
def execCpy (o : Operand) (s : State) : Host.Outcome State Fault Refusal :=
  perform (.cpy o) (readThen o (compareWith State.y)) s

end Sys2Proof.Machine
end

