-- ==== Sys2Proof/Machine/LoadStore.lean ====
section
/-! DEFINITION. Loads, stores, increments and decrements (48_load_store_incdec.md R270 to R285). -/

namespace Sys2Proof.Machine

/-- LDA (48 R270). -/
def execLda (o : Operand) (s : State) : Host.Outcome State Fault Refusal :=
  perform (.lda o) (readThen o fun m s => (s.setA m).setP (setZN m s.p)) s

/-- LDX (48 R271). -/
def execLdx (o : Operand) (s : State) : Host.Outcome State Fault Refusal :=
  perform (.ldx o) (readThen o fun m s => (s.setX m).setP (setZN m s.p)) s

/-- LDY (48 R272). -/
def execLdy (o : Operand) (s : State) : Host.Outcome State Fault Refusal :=
  perform (.ldy o) (readThen o fun m s => (s.setY m).setP (setZN m s.p)) s

/-- STA (48 R273). -/
def execSta (o : Operand) (s : State) : Host.Outcome State Fault Refusal :=
  perform (.sta o) (storeByte State.a) s

/-- STX (48 R274). -/
def execStx (o : Operand) (s : State) : Host.Outcome State Fault Refusal :=
  perform (.stx o) (storeByte State.x) s

/-- STY (48 R275). -/
def execSty (o : Operand) (s : State) : Host.Outcome State Fault Refusal :=
  perform (.sty o) (storeByte State.y) s

/-- INC (48 R280). -/
def execInc (o : Operand) (s : State) : Host.Outcome State Fault Refusal :=
  perform (.inc o) (readModifyWrite o (fun v _ => v + 1) fun v s => s.setP (setZN (v + 1) s.p)) s

/-- DEC (48 R281). -/
def execDec (o : Operand) (s : State) : Host.Outcome State Fault Refusal :=
  perform (.dec o) (readModifyWrite o (fun v _ => v - 1) fun v s => s.setP (setZN (v - 1) s.p)) s

/-- INX (48 R282). -/
def execInx (s : State) : Host.Outcome State Fault Refusal :=
  perform .inx (registerOnly fun s => (s.setX (s.x + 1)).setP (setZN (s.x + 1) s.p)) s

/-- INY (48 R283). -/
def execIny (s : State) : Host.Outcome State Fault Refusal :=
  perform .iny (registerOnly fun s => (s.setY (s.y + 1)).setP (setZN (s.y + 1) s.p)) s

/-- DEX (48 R284). -/
def execDex (s : State) : Host.Outcome State Fault Refusal :=
  perform .dex (registerOnly fun s => (s.setX (s.x - 1)).setP (setZN (s.x - 1) s.p)) s

/-- DEY (48 R285). -/
def execDey (s : State) : Host.Outcome State Fault Refusal :=
  perform .dey (registerOnly fun s => (s.setY (s.y - 1)).setP (setZN (s.y - 1) s.p)) s

end Sys2Proof.Machine
end

