-- ==== Sys2Proof/Machine/Logical.lean ====
section
/-! DEFINITION. AND, ORA, EOR and BIT (42_logical.md R170 to R173). -/

namespace Sys2Proof.Machine

/-- `A <- v; SetZN(A)`. -/
def loadA (v : Byte) (s : State) : State := (s.setA v).setP (setZN v s.p)

/-- AND (42 R170). -/
def execAnd (o : Operand) (s : State) : Host.Outcome State Fault Refusal :=
  perform (.and o) (readThen o fun m s => loadA (s.a &&& m) s) s

/-- ORA (42 R171). -/
def execOra (o : Operand) (s : State) : Host.Outcome State Fault Refusal :=
  perform (.ora o) (readThen o fun m s => loadA (s.a ||| m) s) s

/-- EOR (42 R172). -/
def execEor (o : Operand) (s : State) : Host.Outcome State Fault Refusal :=
  perform (.eor o) (readThen o fun m s => loadA (s.a ^^^ m) s) s

/-- BIT (42 R173): `A` is not written. -/
def execBit (o : Operand) (s : State) : Host.Outcome State Fault Refusal :=
  perform (.bit o) (readThen o fun m s => s.setP (bitP s.a m s.p)) s

end Sys2Proof.Machine
end

