-- ==== Sys2Proof/Machine/ShiftRotate.lean ====
section
/-! DEFINITION. ASL, LSR, ROL and ROR on the accumulator or a memory byte (43_shift_rotate.md R180 to R184). -/

namespace Sys2Proof.Machine

/-- The handler shared by the four (43 R180): read the operand, write the result back, then set C, Z and N. -/
def shiftHandler (o : Operand) (shift : Byte → Byte → Shifted) (r : Resolved) (s : State) : Result Bool :=
  readModifyWrite o (fun v s => (shift v s.p).result) (fun v s => s.setP (shiftP (shift v s.p) s.p)) r s

/-- ASL (43 R181). -/
def execAsl (o : Operand) (s : State) : Host.Outcome State Fault Refusal :=
  perform (.asl o) (shiftHandler o aslShift) s

/-- LSR (43 R182). -/
def execLsr (o : Operand) (s : State) : Host.Outcome State Fault Refusal :=
  perform (.lsr o) (shiftHandler o lsrShift) s

/-- ROL (43 R183). -/
def execRol (o : Operand) (s : State) : Host.Outcome State Fault Refusal :=
  perform (.rol o) (shiftHandler o rolShift) s

/-- ROR (43 R184). -/
def execRor (o : Operand) (s : State) : Host.Outcome State Fault Refusal :=
  perform (.ror o) (shiftHandler o rorShift) s

end Sys2Proof.Machine
end

