-- ==== Sys2Proof/Machine/StackControl.lean ====
section
/-! DEFINITION. PHA, PHP, PLA, PLP, JSR, RTS, RTI, JMP and BRK (46_stack_control.md R220 to R228). -/

namespace Sys2Proof.Machine

/-- PHA (46 R220). -/
def execPha (s : State) : Host.Outcome State Fault Refusal :=
  perform .pha (fun _ s => (push s.a s).bind fun _ s => .done false s) s

/-- PHP (46 R221): the pushed byte has Break and Reserved set. -/
def execPhp (s : State) : Host.Outcome State Fault Refusal :=
  perform .php (fun _ s => (push (pushedP true s.p) s).bind fun _ s => .done false s) s

/-- PLA (46 R222). -/
def execPla (s : State) : Host.Outcome State Fault Refusal :=
  perform .pla (fun _ s => (pull s).bind fun v s => .done false ((s.setA v).setP (setZN v s.p))) s

/-- PLP (46 R223). -/
def execPlp (s : State) : Host.Outcome State Fault Refusal :=
  perform .plp (fun _ s => (pull s).bind fun b s => .done false (s.setP (pulledP b))) s

/-- JSR (46 R224): push the address of the instruction's last byte, then jump. -/
def execJsr (addr16 : Addr) (s : State) : Host.Outcome State Fault Refusal :=
  perform (.jsr addr16) (fun r s => (push16 (s.pc - 1) s).bind fun _ s => .done false (jumpTo r s)) s

/-- RTS (46 R225): the pulled address plus one. -/
def execRts (s : State) : Host.Outcome State Fault Refusal :=
  perform .rts (fun _ s => (pull16 s).bind fun w s => .done false (s.setPc (w + 1))) s

/-- RTI (46 R226). -/
def execRti (s : State) : Host.Outcome State Fault Refusal :=
  perform .rti (fun _ s => (returnFromException s).bind fun _ s => .done false s) s

/-- JMP (46 R227), absolute and indirect. -/
def execJmp (o : Operand) (s : State) : Host.Outcome State Fault Refusal :=
  perform (.jmp o) (fun r s => .done false (jumpTo r s)) s

/-- `BRK_PAD` as an address offset (46 R228). -/
def brkPadding (s : State) : Addr := if s.params.brkPad then 1 else 0

/-- BRK (46 R228): skip the padding byte, then take the exception through `VEC_IRQ`. -/
def execBrk (s : State) : Host.Outcome State Fault Refusal :=
  perform .brk (fun _ s =>
    (enterException true Config.vecIrq (s.setPc (s.pc + brkPadding s))).bind fun _ s => .done false s) s

end Sys2Proof.Machine
end

