-- ==== Sys2Proof/Machine/TransferFlag.lean ====
section
/-! DEFINITION. Register transfers, flag instructions and NOP (47_transfer_flag_nop.md R240 to R260), and the
undocumented NOPs (49_undocumented.md R302). -/

namespace Sys2Proof.Machine

/-- TAX (47 R240). -/
def execTax (s : State) : Host.Outcome State Fault Refusal :=
  perform .tax (registerOnly fun s => (s.setX s.a).setP (setZN s.a s.p)) s

/-- TXA (47 R241). -/
def execTxa (s : State) : Host.Outcome State Fault Refusal :=
  perform .txa (registerOnly fun s => (s.setA s.x).setP (setZN s.x s.p)) s

/-- TAY (47 R242). -/
def execTay (s : State) : Host.Outcome State Fault Refusal :=
  perform .tay (registerOnly fun s => (s.setY s.a).setP (setZN s.a s.p)) s

/-- TYA (47 R243). -/
def execTya (s : State) : Host.Outcome State Fault Refusal :=
  perform .tya (registerOnly fun s => (s.setA s.y).setP (setZN s.y s.p)) s

/-- TSX (47 R244). -/
def execTsx (s : State) : Host.Outcome State Fault Refusal :=
  perform .tsx (registerOnly fun s => (s.setX s.sp).setP (setZN s.sp s.p)) s

/-- TXS (47 R245): no flag is written. -/
def execTxs (s : State) : Host.Outcome State Fault Refusal :=
  perform .txs (registerOnly fun s => s.setSp s.x) s

/-- CLC (47 R250). -/
def execClc (s : State) : Host.Outcome State Fault Refusal :=
  perform .clc (registerOnly fun s => s.setP (setC false s.p)) s

/-- SEC (47 R251). -/
def execSec (s : State) : Host.Outcome State Fault Refusal :=
  perform .sec (registerOnly fun s => s.setP (setC true s.p)) s

/-- CLI (47 R252). -/
def execCli (s : State) : Host.Outcome State Fault Refusal :=
  perform .cli (registerOnly fun s => s.setP (setI false s.p)) s

/-- SEI (47 R253). -/
def execSei (s : State) : Host.Outcome State Fault Refusal :=
  perform .sei (registerOnly fun s => s.setP (setI true s.p)) s

/-- CLD (47 R254). -/
def execCld (s : State) : Host.Outcome State Fault Refusal :=
  perform .cld (registerOnly fun s => s.setP (setD false s.p)) s

/-- SED (47 R255). -/
def execSed (s : State) : Host.Outcome State Fault Refusal :=
  perform .sed (registerOnly fun s => s.setP (setD true s.p)) s

/-- CLV (47 R256). -/
def execClv (s : State) : Host.Outcome State Fault Refusal :=
  perform .clv (registerOnly fun s => s.setP (setV false s.p)) s

/-- NOP (47 R260). -/
def execNop (s : State) : Host.Outcome State Fault Refusal :=
  perform .nop (registerOnly fun s => s) s

/-- The undocumented NOPs (49 R302): the same handler; the effective address is not accessed. -/
def execNopUndoc (opcode : Byte) (o : Operand) (s : State) : Host.Outcome State Fault Refusal :=
  perform (.nopUndoc opcode o) (registerOnly fun s => s) s

end Sys2Proof.Machine
end

