-- ==== Sys2Proof/Machine/Undocumented.lean ====
section
/-! DEFINITION. KIL (49_undocumented.md R301) and the undocumented-only mnemonics (R304 to R321): under
`UNDOC_POLICY = fault` each raises `UnimplementedInstruction(opcode)` after its operand is resolved (R300); under
`execute` each does what the informative sentence of its rule says (PRESUMED, log entry 10), with free values where
93 I2 calls the opcode unstable (log entry 11). -/

namespace Sys2Proof.Machine

/-- `raise UnimplementedInstruction(opcode)` with the instruction's own opcode byte (60 R344). -/
def unimplemented (i : Instr) (s : State) : Result Bool :=
  raise (.unimplementedInstruction ((opcodeOf i).getD 0)) s

/-- Run an undocumented-only instruction by the policy (49 R300). -/
def performUndoc (i : Instr) (handler : Resolved → State → Result Bool) (s : State) :
    Host.Outcome State Fault Refusal :=
  perform i (fun r s =>
    match s.params.undocPolicy with
    | .fault => unimplemented i s
    | .execute => handler r s) s

/-- The next free value, for an unstable opcode (93 I2). -/
def nextUnstable (s : State) : Byte := Config.unstableValue s.freeIndex

/-- Move on past the free values used. -/
def skipUnstable (s : State) : State := s.setFreeIndex (s.freeIndex + 1)

/-- KIL (49 R301): it raises under either policy. -/
def execKil (opcode : Byte) (s : State) : Host.Outcome State Fault Refusal :=
  perform (.kil opcode) (fun _ s => unimplemented (.kil opcode) s) s

/-- What follows a shift of memory in SLO, RLA and SRE: C from the shift, A combined with the result, Z and N of A. -/
def shiftThenCombine (o : Operand) (shift : Byte → Byte → Shifted) (combine : Byte → Byte → Byte) :
    Resolved → State → Result Bool :=
  readModifyWrite o (fun v s => (shift v s.p).result) fun v s =>
    (s.setA (combine s.a (shift v s.p).result)).setP
      (setZN (combine s.a (shift v s.p).result) (setC (shift v s.p).out s.p))

/-- SLO (49 R304): ASL on memory, then ORA. -/
def execSlo (o : Operand) (s : State) : Host.Outcome State Fault Refusal :=
  performUndoc (.slo o) (shiftThenCombine o aslShift fun a r => a ||| r) s

/-- RLA (49 R305): ROL on memory, then AND. -/
def execRla (o : Operand) (s : State) : Host.Outcome State Fault Refusal :=
  performUndoc (.rla o) (shiftThenCombine o rolShift fun a r => a &&& r) s

/-- SRE (49 R306): LSR on memory, then EOR. -/
def execSre (o : Operand) (s : State) : Host.Outcome State Fault Refusal :=
  performUndoc (.sre o) (shiftThenCombine o lsrShift fun a r => a ^^^ r) s

/-- RRA (49 R307): ROR on memory, then ADC of the rotated byte with the carry the rotate produced. -/
def execRra (o : Operand) (s : State) : Host.Outcome State Fault Refusal :=
  performUndoc (.rra o) (readModifyWrite o (fun v s => (rorShift v s.p).result) fun v s =>
    adcEffect (rorShift v s.p).result (s.setP (shiftP (rorShift v s.p) s.p))) s

/-- SAX (49 R308): store A and X. -/
def execSax (o : Operand) (s : State) : Host.Outcome State Fault Refusal :=
  performUndoc (.sax o) (storeByte fun s => s.a &&& s.x) s

/-- A and X both loaded with a value, Z and N of it. -/
def loadAX (v : Byte) (s : State) : State := ((s.setA v).setX v).setP (setZN v s.p)

/-- What LAX does with the byte it read: it loads it; the immediate form is unstable, its value free. -/
def laxEffect (o : Operand) (m : Byte) (s : State) : State :=
  match o with
  | .immediate _ => loadAX (nextUnstable s) (skipUnstable s)
  | _ => loadAX m s

/-- LAX (49 R309). -/
def execLax (o : Operand) (s : State) : Host.Outcome State Fault Refusal :=
  performUndoc (.lax o) (readThen o (laxEffect o)) s

/-- DCP (49 R310): DEC on memory, then CMP with the decremented byte. -/
def execDcp (o : Operand) (s : State) : Host.Outcome State Fault Refusal :=
  performUndoc (.dcp o) (readModifyWrite o (fun v _ => v - 1) fun v s => s.setP (compareP s.a (v - 1) s.p)) s

/-- ISC (49 R311): INC on memory, then SBC of the incremented byte. -/
def execIsc (o : Operand) (s : State) : Host.Outcome State Fault Refusal :=
  performUndoc (.isc o) (readModifyWrite o (fun v _ => v + 1) fun v s => sbcEffect (v + 1) s) s

/-- `A` and `P` after ANC (49 R312): C is the result's bit 7. -/
def ancEffect (m : Byte) (s : State) : State :=
  (s.setA (s.a &&& m)).setP (setC ((s.a &&& m).getLsbD 7) (setZN (s.a &&& m) s.p))

/-- ANC (49 R312). -/
def execAnc (opcode : Byte) (imm8 : Byte) (s : State) : Host.Outcome State Fault Refusal :=
  performUndoc (.anc opcode imm8) (readThen (.immediate imm8) ancEffect) s

/-- `A` and `P` after ALR (49 R313): AND, then LSR of the accumulator. -/
def alrEffect (m : Byte) (s : State) : State :=
  (s.setA (lsrShift (s.a &&& m) s.p).result).setP (shiftP (lsrShift (s.a &&& m) s.p) s.p)

/-- ALR (49 R313). -/
def execAlr (imm8 : Byte) (s : State) : Host.Outcome State Fault Refusal :=
  performUndoc (.alr imm8) (readThen (.immediate imm8) alrEffect) s

/-- `P` after ARR from the rotated accumulator (49 R314). -/
def arrP (a p : Byte) : Byte := setZN a (setV (a.getLsbD 6 ^^ a.getLsbD 5) (setC (a.getLsbD 6) p))

/-- `A` and `P` after ARR (49 R314): AND, then ROR of the accumulator. -/
def arrEffect (m : Byte) (s : State) : State :=
  (s.setA (rorShift (s.a &&& m) s.p).result).setP (arrP (rorShift (s.a &&& m) s.p).result s.p)

/-- ARR (49 R314). -/
def execArr (imm8 : Byte) (s : State) : Host.Outcome State Fault Refusal :=
  performUndoc (.arr imm8) (readThen (.immediate imm8) arrEffect) s

/-- XAA (49 R315): "even under `UNDOC_POLICY = execute` a model should fault" (log entry 12). -/
def execXaa (imm8 : Byte) (s : State) : Host.Outcome State Fault Refusal :=
  perform (.xaa imm8) (fun _ s => unimplemented (.xaa imm8) s) s

/-- `X` and `P` after AXS (49 R316): a subtraction from A and X without borrow. -/
def axsEffect (m : Byte) (s : State) : State :=
  (s.setX ((s.a &&& s.x) - m)).setP (compareP (s.a &&& s.x) m s.p)

/-- AXS (49 R316). -/
def execAxs (imm8 : Byte) (s : State) : Host.Outcome State Fault Refusal :=
  performUndoc (.axs imm8) (readThen (.immediate imm8) axsEffect) s

/-- Store a free value at the effective address (93 I2). -/
def storeUnstable (r : Resolved) (s : State) : Result Bool :=
  storeByte (fun _ => nextUnstable s) r (skipUnstable s)

/-- The address AHX stores at: on a page crossing its high byte is corrupted, hence free (49 R317). -/
def ahxTarget (r : Resolved) (s : State) : Resolved :=
  match r.ea with
  | some ea => if r.crossed then ⟨some (word16 (nextUnstable s) (loByte ea)), r.crossed⟩ else r
  | none => r

/-- AHX (49 R317): the address's free high byte is drawn first, then the stored value. -/
def execAhx (o : Operand) (s : State) : Host.Outcome State Fault Refusal :=
  performUndoc (.ahx o) (fun r s => storeUnstable (ahxTarget r s) (skipUnstable s)) s

/-- SHY (49 R318). -/
def execShy (addr16 : Addr) (s : State) : Host.Outcome State Fault Refusal :=
  performUndoc (.shy addr16) storeUnstable s

/-- SHX (49 R319). -/
def execShx (addr16 : Addr) (s : State) : Host.Outcome State Fault Refusal :=
  performUndoc (.shx addr16) storeUnstable s

/-- TAS (49 R320): `S <- A & X`, then the store. -/
def execTas (addr16 : Addr) (s : State) : Host.Outcome State Fault Refusal :=
  performUndoc (.tas addr16) (fun r s => storeUnstable r (s.setSp (s.a &&& s.x))) s

/-- `A`, `X`, `S` and `P` after LAS (49 R321), with a free value. -/
def lasEffect (_m : Byte) (s : State) : State := (loadAX (nextUnstable s) (skipUnstable s)).setSp (nextUnstable s)

/-- LAS (49 R321). -/
def execLas (addr16 : Addr) (s : State) : Host.Outcome State Fault Refusal :=
  performUndoc (.las addr16) (readThen (.absoluteY addr16) lasEffect) s

end Sys2Proof.Machine
end

