-- ==== Sys2Proof/Machine/Fetch.lean ====
section
/-! DEFINITION. Fetching an instruction through PC (40_addressing_modes.md R130 step 1, R132, R142; 30_encoding.md R102),
the spec's `step()` around it, and placing an instruction where the next fetch finds it. -/

namespace Sys2Proof.Machine

/-- `Fetch8()`: the read comes before the increment (40 R132). -/
def fetch8 (s : State) : Result Byte := (busRead s.pc s).bind fun v s => .done v (s.setPc (s.pc + 1))

/-- Whether a mnemonic's handler reads its Immediate operand (40 R142): NOP's does not (49 R302), and a handler that
raises does not (49 R300); an undocumented handler that runs does. -/
def readsImmediate (policy : UndocPolicy) : Mnemonic → Bool
  | .adc | .sbc | .and | .ora | .eor | .cmp | .cpx | .cpy | .lda | .ldx | .ldy => true
  | .anc | .alr | .arr | .axs | .lax => policy == .execute
  | .nop | .xaa | .kil | .bit | .asl | .lsr | .rol | .ror | .bcc | .bcs | .beq | .bne | .bmi | .bpl | .bvc | .bvs
  | .pha | .php | .pla | .plp | .jsr | .rts | .rti | .jmp | .brk | .tax | .txa | .tay | .tya | .tsx | .txs
  | .clc | .sec | .cli | .sei | .cld | .sed | .clv | .sta | .stx | .sty | .inc | .dec | .inx | .iny | .dex | .dey
  | .slo | .rla | .sre | .rra | .sax | .dcp | .isc | .ahx | .shy | .shx | .tas | .las => false

/-- The Immediate operand (40 R142): PC moves past it first, and then the byte is read at its address if the handler
reads it. A byte the handler does not read is taken from memory with no bus access and is never used (log entry 8). -/
def fetchImmediate (m : Mnemonic) (s : State) : Result Byte :=
  if readsImmediate s.params.undocPolicy m then busRead s.pc (s.setPc (s.pc + 1))
  else .done (s.peek s.pc) (s.setPc (s.pc + 1))

/-- Fetch the operand bytes of an opcode and assemble the instruction (40 R138; log entry 7). -/
def fetchOperands (opcode : Byte) (s : State) : Result Instr :=
  if (entryOf opcode).mode = .immediate then
    (fetchImmediate (entryOf opcode).mnemonic s).bind fun b1 s => .done (instrOf opcode b1 0) s
  else
    match (entryOf opcode).mode.operandCount with
    | 0 => .done (instrOf opcode 0 0) s
    | 1 => (fetch8 s).bind fun b1 s => .done (instrOf opcode b1 0) s
    | _ => (fetch8 s).bind fun b1 s => (fetch8 s).bind fun b2 s => .done (instrOf opcode b1 b2) s

/-- Fetch the instruction at PC (40 R130 steps 1 and 2, and the fetches of step 3). -/
def fetchInstr (s : State) : Result Instr := (fetch8 s).bind fetchOperands

/-- The spec's `step()` (40 R130) in the Running state: one instruction. -/
def runInstruction (s : State) : Host.Outcome State Fault Refusal :=
  match fetchInstr s with
  | .done i s => exec i s
  | .raised _ s => .next s

/-- Make one address memory if nothing that holds code answers there. -/
def coverAddr (m : List Region) (a : Addr) : List Region :=
  if backingOf m a == some .ram || backingOf m a == some .rom then m else ⟨a, a, .ram⟩ :: m

/-- Load three bytes at PC from outside the machine and make the machine one that runs them next: Running, no NMI
latched, no IRQ that would be taken (log entry 14). -/
def placeCode (b0 b1 b2 : Byte) (s : State) : State :=
  { s with
    run := .running
    nmiPending := false
    irqLine := s.irqLine && flagI s.p
    mem := Memory.write (Memory.write (Memory.write s.mem s.pc.toNat b0) (s.pc + 1).toNat b1) (s.pc + 2).toNat b2
    busMap := coverAddr (coverAddr (coverAddr s.busMap s.pc) (s.pc + 1)) (s.pc + 2) }

end Sys2Proof.Machine
end

