-- ==== Sys2Proof/Machine/Interrupts.lean ====
section
/-! DEFINITION. The interrupt inputs, arbitration at an instruction boundary and the interrupt entries
(60_exceptions.md R350 to R356), and `reset()` (70_reset_and_hazards.md R380, R381). -/

namespace Sys2Proof.Machine

/-- The two hardware interrupts (60 R350). -/
inductive InterruptKind where
  | nmi
  | irq
  deriving DecidableEq, Repr

/-- The vector of a hardware interrupt (60 R353). -/
def InterruptKind.vector : InterruptKind → Addr
  | .nmi => Config.vecNmi
  | .irq => Config.vecIrq

/-- `if kind = NMI: nmi_pending <- 0` (60 R352). -/
def InterruptKind.acknowledge : InterruptKind → State → State
  | .nmi, s => s.setNmiPending false
  | .irq, s => s

/-- `InterruptEntry(kind)` (60 R352). -/
def interruptEntry (kind : InterruptKind) (s : State) : Host.Outcome State Fault Refusal :=
  match s.run with
  | .faulted f => .fault f
  | .running =>
    ((enterException false kind.vector (kind.acknowledge s)).bind fun _ s =>
      .done () (s.addCycles s.params.intCycles)).toOutcome

/-- The one transition enabled at an instruction boundary (60 R351). -/
inductive Boundary where
  | faulted (f : Fault)
  | interrupt (kind : InterruptKind)
  | instruction
  deriving DecidableEq, Repr

/-- Arbitration: NMI first, then an IRQ that `P.I` does not mask, else the instruction (60 R351, R355). -/
def arbitrate (s : State) : Boundary :=
  match s.run with
  | .faulted f => .faulted f
  | .running =>
    if s.nmiPending then .interrupt .nmi
    else if s.irqLine && !flagI s.p then .interrupt .irq
    else .instruction

/-- `Advance()` (60 R351). -/
def advance (s : State) : Host.Outcome State Fault Refusal :=
  match arbitrate s with
  | .faulted f => .fault f
  | .interrupt kind => interruptEntry kind s
  | .instruction => runInstruction s

/-- The environment's `SignalNMI()` (60 R350 (a)). -/
def signalNmi (s : State) : State := s.setNmiPending true

/-- The environment presents a level of `irq_line` (60 R350 (b)). -/
def presentIrq (level : Bool) (s : State) : State := s.setIrqLine level

/-- The register writes of `reset()` before its vector read (70 R380). -/
def resetRegisters (s : State) : State :=
  { s with
    a := 0x00#8
    x := 0x00#8
    y := 0x00#8
    sp := 0xFD#8
    p := 0x24#8
    nmiPending := false
    cycles := s.params.resetCycles
    run := .running }

/-- `reset()` (70 R380), from any state, Running or Faulted (R381). -/
def resetCall (s : State) : Host.Outcome State Fault Refusal :=
  ((memRead16 Config.vecReset (resetRegisters s)).bind fun target s => .done () (s.setPc target)).toOutcome

end Sys2Proof.Machine
end

