-- ==== Sys2Proof/Machine/Step.lean ====
section
/-! DEFINITION. One transition of the machine: `Advance()` (60_exceptions.md R351), which is `step()` when no interrupt is
taken; and the load of an instruction where the next fetch finds it. -/

namespace Sys2Proof.Machine

/-- One transition (60 R351; log entry 6). -/
def step (s : State) : Host.Outcome State Fault Refusal := advance s

/-- `s` with the instruction of bits `w` stored where `step` fetches its next instruction (log entry 14). -/
def State.withFetchWord (s : State) (nbits w : Nat) : State :=
  placeCode (tableByte nbits w 0) (tableByte nbits w 1) (tableByte nbits w 2) s

end Sys2Proof.Machine
end

