-- ==== Sys2Proof/Machine/View.lean ====
section
/-! DEFINITION. What an observer sees of a state and of a transition (10_state.md R45, 40_addressing_modes.md R137), and
the address computations of the resolver as functions of the state alone, for a bus whose addresses are memory. -/

namespace Sys2Proof.Machine

/-! ## Observation (10 R45) -/

/-- What `step()` and `InterruptEntry` return to their caller (40 R137). -/
inductive Returned where
  | ok (cyclesConsumed : Nat)
  | err (f : Fault)
  deriving DecidableEq, Repr

/-- The returned value, read from the states before and after the transition (log entry 4): the fault that `run`
records, else the cycles the counter grew by. -/
def returned (before after : State) : Returned :=
  match after.run with
  | .faulted f => .err f
  | .running => .ok (after.cycles - before.cycles)

/-! ## The resolver on memory -/

/-- Where a mode's 16-bit pointer lies, if it has one (40 R146, R147, R151). -/
def pointerAddr (o : Operand) (s : State) : Option Addr :=
  match o with
  | .indexedIndirect zp8 => some (zeroPageAddr (zp8 + s.x))
  | .indirectIndexed zp8 => some (zeroPageAddr zp8)
  | .indirect ptr16 => some ptr16
  | .implicit | .immediate _ | .zeroPage _ | .zeroPageX _ | .zeroPageY _ | .absolute _ | .absoluteX _
  | .absoluteY _ | .relative _ => none

/-- The addresses the resolver reads, in order (40 R138). -/
def pointerReads (o : Operand) (s : State) : List Addr :=
  match pointerAddr o s with
  | some ptr => [ptr, nextInPage ptr]
  | none => []

/-- The pointer `MemReadWrap` finds in memory at an address (20 R63). -/
def peekPointer (ptr : Addr) (s : State) : Addr := word16 (s.peek (nextInPage ptr)) (s.peek ptr)

/-- What the resolver hands to the handler when its pointer lies in memory. -/
def resolvedView (o : Operand) (s : State) : Resolved :=
  match o with
  | .implicit => ⟨none, false⟩
  | .immediate _ => ⟨some (s.pc - 1), false⟩
  | .zeroPage zp8 => ⟨some (zeroPageAddr zp8), false⟩
  | .zeroPageX zp8 => ⟨some (zeroPageAddr (zp8 + s.x)), false⟩
  | .zeroPageY zp8 => ⟨some (zeroPageAddr (zp8 + s.y)), false⟩
  | .indexedIndirect zp8 => ⟨some (peekPointer (zeroPageAddr (zp8 + s.x)) s), false⟩
  | .indirectIndexed zp8 => indexedFrom (peekPointer (zeroPageAddr zp8) s) s.y
  | .absolute addr16 => ⟨some addr16, false⟩
  | .absoluteX addr16 => indexedFrom addr16 s.x
  | .absoluteY addr16 => indexedFrom addr16 s.y
  | .indirect ptr16 => ⟨some (peekPointer ptr16 s), false⟩
  | .relative rel8 => ⟨some (branchTarget s.pc rel8), pageCrossed s.pc (branchTarget s.pc rel8)⟩

/-- The effective address of an operand in a state. -/
def effectiveAddr (o : Operand) (s : State) : Option Addr := (resolvedView o s).ea

/-- The page-crossed indication of an operand in a state. -/
def crosses (o : Operand) (s : State) : Bool := (resolvedView o s).crossed

/-- The bus read a reading handler makes (40 R134): none for the accumulator, and none left for the immediate byte. -/
def dataReads (o : Operand) (s : State) : List Addr :=
  match o with
  | .immediate _ => []
  | _ => (effectiveAddr o s).toList

/-- The operand value `M` in a state whose operand lies in memory. -/
def operandByte (o : Operand) (s : State) : Byte :=
  match o with
  | .immediate imm8 => imm8
  | _ => match effectiveAddr o s with
    | some ea => s.peek ea
    | none => s.a

/-- Every pointer byte the resolver reads lies in memory. -/
def resolvable (o : Operand) (s : State) : Bool := (pointerReads o s).all s.isMemory

/-- Everything a reading handler reads lies in memory. -/
def readable (o : Operand) (s : State) : Bool := resolvable o s && (dataReads o s).all s.isMemory

/-- The pointer and the byte stored to lie in memory. -/
def storable (o : Operand) (s : State) : Bool := resolvable o s && (effectiveAddr o s).toList.all s.isMemory

/-- Record a read of each address, in order, each giving the byte in memory. -/
def logReads (as : List Addr) (s : State) : State := as.foldl (fun s a => s.log ⟨.read, a, s.peek a⟩) s

/-- The trace after reads of the addresses, in order. -/
def tracedReads (as : List Addr) (s : State) : List BusAccess := (as.reverse.map fun a => ⟨.read, a, s.peek a⟩) ++ s.busLog

/-- The byte an address holds after stores of bytes at addresses, newest first: only RAM takes a store. -/
def storedByte (s : State) : List (Addr × Byte) → Addr → Byte
  | [], b => s.peek b
  | (a, v) :: stores, b => if b = a ∧ s.isRam a = true then v else storedByte s stores b

/-- Memory `m` is that of `s` after stores of bytes at addresses, newest first. -/
def MemoryAfter (s : State) (stores : List (Addr × Byte)) (m : Memory) : Prop :=
  ∀ b : Addr, Memory.read m b.toNat = storedByte s stores b

/-- The addresses the fetch of an instruction reads, in order (40 R138): an Immediate byte only if the handler reads it. -/
def fetchAddrs (policy : UndocPolicy) (i : Instr) (pc : Addr) : List Addr :=
  match i.mode.operandCount with
  | 0 => [pc]
  | 1 => if i.mode = .immediate ∧ readsImmediate policy i.mnemonic = false then [pc] else [pc, pc + 1]
  | _ => [pc, pc + 1, pc + 2]

/-! ## Cycle counts by instruction class (70 R395) -/

/-- One extra cycle on a page crossing. -/
def extra (crossed : Bool) : Nat := if crossed then 1 else 0

/-- The reading instructions. -/
def readCost (o : Operand) (crossed : Bool) : Nat :=
  match o with
  | .immediate _ => 2
  | .zeroPage _ => 3
  | .zeroPageX _ | .zeroPageY _ | .absolute _ => 4
  | .absoluteX _ | .absoluteY _ => 4 + extra crossed
  | .indexedIndirect _ => 6
  | .indirectIndexed _ => 5 + extra crossed
  | .implicit | .indirect _ | .relative _ => 0

/-- The storing instructions. -/
def storeCost (o : Operand) : Nat :=
  match o with
  | .zeroPage _ => 3
  | .zeroPageX _ | .zeroPageY _ | .absolute _ => 4
  | .absoluteX _ | .absoluteY _ => 5
  | .indexedIndirect _ | .indirectIndexed _ => 6
  | .implicit | .immediate _ | .indirect _ | .relative _ => 0

/-- The read-modify-write instructions, and those of 49 R304 to R307, R310, R311. -/
def modifyCost (o : Operand) : Nat :=
  match o with
  | .implicit => 2
  | .zeroPage _ => 5
  | .zeroPageX _ | .absolute _ => 6
  | .absoluteX _ | .absoluteY _ => 7
  | .indexedIndirect _ | .indirectIndexed _ => 8
  | .immediate _ | .zeroPageY _ | .indirect _ | .relative _ => 0

/-- A branch: 2 not taken, 3 taken in the same page, 4 taken across a page. -/
def branchCost (taken crossed : Bool) : Nat := if taken then 3 + extra crossed else 2

/-! ## The next state of an instruction class, before its own registers and flags -/

/-- A reading instruction: its bus reads are logged and its cycles are added. -/
def afterRead (o : Operand) (s : State) : State :=
  { s with
    cycles := s.cycles + readCost o (crosses o s)
    busLog := tracedReads (pointerReads o s ++ dataReads o s) s }

/-- A storing instruction that stored `v` at `ea`, memory being `m` afterwards. -/
def afterStore (o : Operand) (ea : Addr) (v : Byte) (m : Memory) (s : State) : State :=
  { s with
    mem := m
    cycles := s.cycles + storeCost o
    busLog := ⟨.write, ea, v⟩ :: tracedReads (pointerReads o s) s }

/-- A read-modify-write of the byte at `ea`, which became `v`, memory being `m` afterwards. -/
def afterModify (o : Operand) (ea : Addr) (v : Byte) (m : Memory) (s : State) : State :=
  { s with
    mem := m
    cycles := s.cycles + modifyCost o
    busLog := ⟨.write, ea, v⟩ :: tracedReads (pointerReads o s ++ [ea]) s }

/-- An instruction with no bus access of its own that costs `n` cycles. -/
def afterInternal (n : Nat) (s : State) : State := { s with cycles := s.cycles + n }

/-! ## What a transition leaves alone -/

/-- The bits of a status byte selected by `mask` are as before. -/
def SameFlags (mask p p' : Byte) : Prop := p' &&& mask = p &&& mask

/-- Z and N of a status byte are those of a byte (10 R32). -/
def ZNOf (v p : Byte) : Prop := flagZ p = decide (v = 0#8) ∧ flagN p = v.msb

end Sys2Proof.Machine
end

