-- ==== Sys2Proof/Safety.lean ====
section
/-! DEFINITION. What counts as a legal state and a safe run: the invariants of 10_state.md R31 and R33, the canonical form
of memory, and runs in which no transition raised a fault (60_exceptions.md R347). -/

namespace Sys2Proof.Machine

/-- A status byte as P holds it: Break reads 0 (10 R31), Reserved reads 1 (10 R33). -/
def LegalP (p : Byte) : Prop := flagB p = false ∧ flagR p = true

/-- The invariant of the machine: P is legal and memory is canonical. -/
def StateInv (s : State) : Prop := LegalP s.p ∧ Memory.wf s.mem = true

/-- No transition so far raised a fault that still stands (10 R42). -/
def Safe (s : State) : Prop := s.run = .running

/-- `n` transitions lead from one state to another, every state on the way safe (60 R347). The end of a run is the model's
choice (DESIGN CHOICE, log entry 23), which 00 R11 and decision D23 of 92_eei_decisions.md leave to it: a run ends after
a stated number of transitions. -/
def SafeRun : Nat → State → State → Prop
  | 0, s, t => s = t ∧ Safe s
  | n + 1, s, t => Safe s ∧ ∃ u, step s = .next u ∧ SafeRun n u t

end Sys2Proof.Machine
end

