-- ==== Sys2Proof/Certificates/Slice0/Obligations.lean ====
section
/-! DEFINITION. The statements about the machine that the provers are asked to prove. Each is a numbered rule of spec/ or
is derived from the sections its docstring names. `exec i s` starts where the fetch of `i` has ended (40_addressing_modes.md
R130, steps 3 to 5), so `s.pc` is the address after the instruction. -/

open Sys2Proof Sys2Proof.Machine

/-! ## Encoding and decoding -/

/-- Words written out from the encodings of 30_encoding.md R101 and R110, one or more per family, decode to the
instructions they stand for. -/
def Obligations.SampleWordsDecode : Prop :=
  decodeTableWord 16 0x0369 = some (.adc (.immediate 0x03#8)) ∧
  decodeTableWord 16 0x03EB = some (.sbcUndoc 0x03#8) ∧
  decodeTableWord 16 0x1024 = some (.bit (.zeroPage 0x10#8)) ∧
  decodeTableWord 24 0x10FF3D = some (.and (.absoluteX 0x10FF#16)) ∧
  decodeTableWord 8 0x2A = some (.rol .implicit) ∧
  decodeTableWord 16 0x41C9 = some (.cmp (.immediate 0x41#8)) ∧
  decodeTableWord 16 0xFDD0 = some (.bne 0xFD#8) ∧
  decodeTableWord 24 0x30FF6C = some (.jmp (.indirect 0x30FF#16)) ∧
  decodeTableWord 24 0x062020 = some (.jsr 0x0620#16) ∧
  decodeTableWord 8 0x00 = some .brk ∧
  decodeTableWord 8 0x9A = some .txs ∧
  decodeTableWord 16 0x86B1 = some (.lda (.indirectIndexed 0x86#8)) ∧
  decodeTableWord 16 0x1096 = some (.stx (.zeroPageY 0x10#8)) ∧
  decodeTableWord 24 0x0200CE = some (.dec (.absolute 0x0200#16)) ∧
  decodeTableWord 24 0x10FF1C = some (.nopUndoc 0x1C#8 (.absoluteX 0x10FF#16)) ∧
  decodeTableWord 8 0x92 = some (.kil 0x92#8) ∧
  decodeTableWord 16 0x2003 = some (.slo (.indexedIndirect 0x20#8)) ∧
  decodeTableWord 24 0x02009F = some (.ahx (.absoluteY 0x0200#16))

/-- Decoding what `encode` gives answers the instruction, with every operand at every value, and leaves the bytes that
follow (30 R100, R101, R103, R110, R111, R112). -/
def Obligations.DecodeOfEncode : Prop :=
  ∀ (i : Instr) (bytes rest : List Byte), encode i = some bytes → decode (bytes ++ rest) = .instr i rest

/-- What decodes was written by `encode`: no byte of an instruction is dropped and no two instructions share bytes. -/
def Obligations.EncodeOfDecode : Prop :=
  ∀ (i : Instr) (bytes rest : List Byte), decode bytes = .instr i rest →
    ∃ own : List Byte, encode i = some own ∧ bytes = own ++ rest

/-- Every byte selects a table entry, and that entry alone fixes the mnemonic, the mode and the length: 1 plus the
mode's operand bytes (30 R100, R115). Too few bytes decode to nothing. -/
def Obligations.EveryByteSelectsAnInstruction : Prop :=
  ∀ (opcode : Byte) (operands : List Byte),
    (operands.length < (entryOf opcode).mode.operandCount → decode (opcode :: operands) =
      .rejected (.operandBytesMissing opcode)) ∧
    ((entryOf opcode).mode.operandCount ≤ operands.length → ∃ i : Instr,
      decode (opcode :: operands) = .instr i (operands.drop (entryOf opcode).mode.operandCount) ∧
      i.mnemonic = (entryOf opcode).mnemonic ∧ i.mode = (entryOf opcode).mode ∧ WellFormed i ∧
      i.mode.length = 1 + (entryOf opcode).mode.operandCount)

/-- The well-formed terms are those with bytes, of the length of their mode; `exec` refuses the others by name in every
state (the model's choice, log entry 16), and no well-formed one. -/
def Obligations.IllFormedTermsAreRefused : Prop :=
  (∀ i : Instr, WellFormed i ↔ ∃ bytes : List Byte, encode i = some bytes ∧ bytes.length = i.mode.length) ∧
  (∀ (i : Instr) (s : State), ¬ WellFormed i → exec i s = .refused .illFormed) ∧
  (∀ (i : Instr) (s : State), WellFormed i → ∃ t : State, exec i s = .next t)

/-- The extra-cycle eligible entries of the table (40 R153). -/
def Obligations.EligibleEntries : Prop :=
  ∀ opcode : Byte, (entryOf opcode).eligible = true ↔ opcode ∈ [
    0x10#8, 0x30#8, 0x50#8, 0x70#8, 0x90#8, 0xB0#8, 0xD0#8, 0xF0#8,
    0x7D#8, 0x79#8, 0x71#8, 0x3D#8, 0x39#8, 0x31#8, 0xDD#8, 0xD9#8, 0xD1#8, 0x5D#8, 0x59#8, 0x51#8,
    0xBD#8, 0xB9#8, 0xB1#8, 0x1D#8, 0x19#8, 0x11#8, 0xFD#8, 0xF9#8, 0xF1#8, 0xBE#8, 0xBC#8,
    0x1C#8, 0x3C#8, 0x5C#8, 0x7C#8, 0xDC#8, 0xFC#8, 0xBF#8, 0xB3#8, 0xBB#8]

/-! ## One transition -/

/-- When no interrupt is taken and the fetched bytes lie in memory, `step` is `exec` of the instruction the decoder
reads at PC, in the state with PC past it and its fetch reads logged (40 R130, R132, R138, R142). The read of an
Immediate byte stands among the fetch reads (log entry 7). -/
def Obligations.StepRunsDecodedInstruction : Prop :=
  ∀ (s : State) (i : Instr) (rest : List Byte),
    s.run = .running → s.nmiPending = false → (s.irqLine = false ∨ flagI s.p = true) →
    decode [s.peek s.pc, s.peek (s.pc + 1), s.peek (s.pc + 2)] = .instr i rest →
    (fetchAddrs s.params.undocPolicy i s.pc).all s.isMemory = true →
    step s = exec i { s with
      pc := s.pc + BitVec.ofNat 16 i.mode.length
      busLog := tracedReads (fetchAddrs s.params.undocPolicy i s.pc) s }

/-- In Faulted, `step` and the interrupt entries report the fault and reach no next state (40 R131, 60 R341). -/
def Obligations.FaultedReportsItsFault : Prop :=
  ∀ (s : State) (f : Fault), s.run = .faulted f →
    step s = .fault f ∧ ∀ kind : InterruptKind, interruptEntry kind s = .fault f

/-- The one transition enabled at an instruction boundary (60 R351): NMI whatever the flags, then an IRQ that `P.I`
lets through, then the instruction; Faulted takes none. -/
def Obligations.AdvanceArbitrates : Prop :=
  ∀ s : State,
    (∀ f : Fault, s.run = .faulted f → step s = .fault f) ∧
    (s.run = .running → s.nmiPending = true → step s = interruptEntry .nmi s) ∧
    (s.run = .running → s.nmiPending = false → s.irqLine = true → flagI s.p = false →
      step s = interruptEntry .irq s) ∧
    (s.run = .running → s.nmiPending = false → (s.irqLine = false ∨ flagI s.p = true) →
      step s = runInstruction s)

/-- `InterruptEntry(kind)` (60 R352, R353): what it pushes, sets, loads, adds and logs, and nothing else; what holds when
its vector read is unmapped (decision D21, log entry 9: the pushes and the NMI acknowledgement stay, PC and `P.I` keep
their old values), and when any of its accesses faults. -/
def Obligations.InterruptEntrySavesAndVectors : Prop :=
  (∀ (kind : InterruptKind) (vec : Addr) (s : State),
    vec = (match kind with | .nmi => 0xFFFA#16 | .irq => 0xFFFE#16) →
    s.run = .running → Memory.wf s.mem = true →
    [word16 0x01#8 s.sp, word16 0x01#8 (s.sp - 1), word16 0x01#8 (s.sp - 2)].all s.isMemory = true →
    ∃ (m : Memory) (saved : State),
      saved = { s with
        sp := s.sp - 3
        nmiPending := (match kind with | .nmi => false | .irq => s.nmiPending)
        mem := m
        busLog := [
          ⟨.write, word16 0x01#8 (s.sp - 2), (s.p ||| 0x20#8) &&& 0xEF#8⟩,
          ⟨.write, word16 0x01#8 (s.sp - 1), loByte s.pc⟩,
          ⟨.write, word16 0x01#8 s.sp, hiByte s.pc⟩] ++ s.busLog } ∧
      MemoryAfter s [
        (word16 0x01#8 (s.sp - 2), (s.p ||| 0x20#8) &&& 0xEF#8),
        (word16 0x01#8 (s.sp - 1), loByte s.pc),
        (word16 0x01#8 s.sp, hiByte s.pc)] m ∧
      (s.isMemory vec = true → s.isMemory (vec + 1) = true → interruptEntry kind s = .next { saved with
        p := s.p ||| 0x04#8
        pc := word16 (s.peek (vec + 1)) (s.peek vec)
        cycles := s.cycles + s.params.intCycles
        busLog := [⟨.read, vec + 1, s.peek (vec + 1)⟩, ⟨.read, vec, s.peek vec⟩] ++ saved.busLog }) ∧
      (backingOf s.busMap vec = none →
        interruptEntry kind s = .next { saved with run := .faulted (.unmappedAddress vec) }) ∧
      (s.isMemory vec = true → backingOf s.busMap (vec + 1) = none → interruptEntry kind s = .next { saved with
        run := .faulted (.unmappedAddress (vec + 1))
        busLog := ⟨.read, vec, s.peek vec⟩ :: saved.busLog })) ∧
  (∀ (kind : InterruptKind) (s t : State) (f : Fault),
    s.run = .running → interruptEntry kind s = .next t → t.run = .faulted f →
    (∃ addr : Addr, f = .unmappedAddress addr) ∧ t.cycles = s.cycles ∧ t.pc = s.pc ∧ t.p = s.p ∧ t.a = s.a ∧
    t.x = s.x ∧ t.y = s.y ∧ t.nmiPending = (match kind with | .nmi => false | .irq => s.nmiPending)) ∧
  (∀ (kind : InterruptKind) (s : State) (f : Fault), s.run = .faulted f → interruptEntry kind s = .fault f)

/-- `Fetch8()` (40 R132): the byte at PC, then PC plus 1 modulo 65536; an unmapped PC faults with PC still there. So a
step whose opcode fetch is unmapped enters Faulted with the address of PC and changes nothing else. -/
def Obligations.Fetch8ReadsThenIncrements : Prop :=
  ∀ s : State,
    (s.isMemory s.pc = true → fetch8 s = .done (s.peek s.pc)
      { s with pc := s.pc + 1, busLog := ⟨.read, s.pc, s.peek s.pc⟩ :: s.busLog }) ∧
    (backingOf s.busMap s.pc = none → fetch8 s = .raised (.unmappedAddress s.pc)
      { s with run := .faulted (.unmappedAddress s.pc) }) ∧
    (∀ (v : Byte) (t : State), busRead s.pc s = .done v t → fetch8 s = .done v { t with pc := s.pc + 1 }) ∧
    (s.run = .running → s.nmiPending = false → (s.irqLine = false ∨ flagI s.p = true) →
      backingOf s.busMap s.pc = none → step s = .next { s with run := .faulted (.unmappedAddress s.pc) })

/-- An exec that ends in Faulted adds no cycles; one that does not adds at least 2 and at most 8 (40 R136, R139,
70 R395). Neither touches the run state otherwise, the interrupt inputs, the parameters or the bus. The last clause is
the model's choice, no rule of the spec (log entry 11, PRESUMED and DESIGN CHOICE: the free values and their numbering by
`freeIndex`): only LAX, AHX, SHY, SHX, TAS and LAS under `execute` draw a free value. -/
def Obligations.ExecAccountsForCycles : Prop :=
  ∀ (i : Instr) (s t : State), s.run = .running → exec i s = .next t →
    ((∃ f : Fault, t.run = .faulted f ∧ t.cycles = s.cycles) ∨
      (t.run = .running ∧ s.cycles + 2 ≤ t.cycles ∧ t.cycles ≤ s.cycles + 8)) ∧
    t.nmiPending = s.nmiPending ∧ t.irqLine = s.irqLine ∧ t.params = s.params ∧ t.busMap = s.busMap ∧
    (t.freeIndex ≠ s.freeIndex → s.params.undocPolicy = .execute ∧
      i.mnemonic ∈ [.lax, .ahx, .shy, .shx, .tas, .las])

/-- A step never lowers the cycle counter, leaves it alone when it faults, never writes the interrupt input, the
parameters or the bus routing, never latches an NMI, and only adds to the bus trace (10 R40, R43, R44; 20 R90). -/
def Obligations.StepLeavesTheEnvironmentAlone : Prop :=
  ∀ s t : State, step s = .next t →
    s.cycles ≤ t.cycles ∧ (∀ f : Fault, t.run = .faulted f → t.cycles = s.cycles) ∧
    t.irqLine = s.irqLine ∧ t.params = s.params ∧ t.busMap = s.busMap ∧
    (t.nmiPending = true → s.nmiPending = true) ∧
    ∃ accesses : List BusAccess, t.busLog = accesses ++ s.busLog

/-- Every byte a step changes lies in RAM and holds a byte that a write of that step put there (20 R60, R66, R90). That
memory changes only in RAM rests on the model's bus (log entries 2 and 19). -/
def Obligations.StepStoresOnlyLoggedWrites : Prop :=
  ∀ (s t : State) (addr : Addr), Memory.wf s.mem = true → step s = .next t → t.peek addr ≠ s.peek addr →
    s.isRam addr = true ∧
    ∃ accesses : List BusAccess, t.busLog = accesses ++ s.busLog ∧ ⟨.write, addr, t.peek addr⟩ ∈ accesses

/-- The invariant (P keeps Break 0 and Reserved 1, 10 R31, R33; memory stays canonical) is kept by every step and by
every interrupt entry and `reset()`. -/
def Obligations.StepKeepsInv : Prop :=
  ∀ s t : State, StateInv s →
    (step s = .next t → StateInv t) ∧ (∀ kind : InterruptKind, interruptEntry kind s = .next t → StateInv t) ∧
    (resetCall s = .next t → StateInv t)

/-- The state after reset meets the invariant. -/
def Obligations.ResetHasInv : Prop := StateInv State.reset

/-- The registers, flags, counter, run state and latch after `reset()` (10 R48), PC from the vector's two bytes. -/
def Obligations.ResetState : Prop :=
  State.reset.a = 0x00#8 ∧ State.reset.x = 0x00#8 ∧ State.reset.y = 0x00#8 ∧ State.reset.sp = 0xFD#8 ∧
  State.reset.p = 0x24#8 ∧ State.reset.cycles = 0 ∧ State.reset.run = .running ∧ State.reset.nmiPending = false ∧
  State.reset.pc = word16 (State.reset.peek 0xFFFD#16) (State.reset.peek 0xFFFC#16)

/-- `reset()` (70 R380, R381) from any state, Running or Faulted: every register write, the two vector reads in their
order, and what stays when one of them is unmapped. -/
def Obligations.ResetCall : Prop :=
  ∀ s s0 : State,
    s0 = { s with
      a := 0x00#8, x := 0x00#8, y := 0x00#8, sp := 0xFD#8, p := 0x24#8, nmiPending := false,
      cycles := s.params.resetCycles, run := .running } →
    (s.isMemory 0xFFFC#16 = true → s.isMemory 0xFFFD#16 = true →
      resetCall s = .next { s0 with
        pc := word16 (s.peek 0xFFFD#16) (s.peek 0xFFFC#16)
        busLog := ⟨.read, 0xFFFD#16, s.peek 0xFFFD#16⟩ :: ⟨.read, 0xFFFC#16, s.peek 0xFFFC#16⟩ :: s.busLog }) ∧
    (backingOf s.busMap 0xFFFC#16 = none →
      resetCall s = .next { s0 with run := .faulted (.unmappedAddress 0xFFFC#16) }) ∧
    (s.isMemory 0xFFFC#16 = true → backingOf s.busMap 0xFFFD#16 = none →
      resetCall s = .next { s0 with
        run := .faulted (.unmappedAddress 0xFFFD#16)
        busLog := ⟨.read, 0xFFFC#16, s.peek 0xFFFC#16⟩ :: s.busLog })

/-! ## Memory, the bus and the stack -/

/-- `BusRead` and `BusWrite` are the two bus operations, and an access nothing claims raises `UnmappedAddress` with its own
address (20 R60, R83). What the bus is behind them is the model's choice, which those rules leave open: memory answers a
read with its byte and RAM keeps a write (log entry 2, DESIGN CHOICE), ROM accepts a write and ignores it (log entry 19,
DEDUCED), a device answers as it will (log entry 3, DESIGN CHOICE), and every completed access is logged (log entry 13,
DESIGN CHOICE). -/
def Obligations.BusAccesses : Prop :=
  ∀ (a : Addr) (v : Byte) (s : State),
    (s.isMemory a = true → busRead a s = .done (s.peek a) { s with busLog := ⟨.read, a, s.peek a⟩ :: s.busLog }) ∧
    (s.isMemory a = true → Memory.wf s.mem = true → ∃ m : Memory,
      busWrite a v s = .done () { s with mem := m, busLog := ⟨.write, a, v⟩ :: s.busLog } ∧
      MemoryAfter s [(a, v)] m) ∧
    (backingOf s.busMap a = some .external → ∀ w : Byte, Config.externalRead s.busLog a = some w →
      busRead a s = .done w { s with busLog := ⟨.read, a, w⟩ :: s.busLog }) ∧
    (backingOf s.busMap a = some .external → Config.externalWrite s.busLog a v = true →
      busWrite a v s = .done () { s with busLog := ⟨.write, a, v⟩ :: s.busLog }) ∧
    (backingOf s.busMap a = none ∨
        (backingOf s.busMap a = some .external ∧ Config.externalRead s.busLog a = none) →
      busRead a s = .raised (.unmappedAddress a) { s with run := .faulted (.unmappedAddress a) }) ∧
    (backingOf s.busMap a = none ∨
        (backingOf s.busMap a = some .external ∧ Config.externalWrite s.busLog a v = false) →
      busWrite a v s = .raised (.unmappedAddress a) { s with run := .faulted (.unmappedAddress a) })

/-- The two 16-bit reads (20 R62, R63): low byte first; `MemRead(a, 2)` takes the next address, wrapping at the top of
the address space, and `MemReadWrap(a)` the next byte of the same page, the start of the page when the low byte is
0xFF. -/
def Obligations.SixteenBitReads : Prop :=
  ∀ (a : Addr) (s : State), s.isMemory a = true →
    (s.isMemory (a + 1) = true → memRead16 a s = .done (word16 (s.peek (a + 1)) (s.peek a))
      { s with busLog := ⟨.read, a + 1, s.peek (a + 1)⟩ :: ⟨.read, a, s.peek a⟩ :: s.busLog }) ∧
    (∀ b : Addr, b = word16 (hiByte a) (loByte a + 1) → s.isMemory b = true →
      memReadWrap a s = .done (word16 (s.peek b) (s.peek a))
        { s with busLog := ⟨.read, b, s.peek b⟩ :: ⟨.read, a, s.peek a⟩ :: s.busLog } ∧
      (loByte a ≠ 0xFF#8 → b = a + 1) ∧ (loByte a = 0xFF#8 → b = word16 (hiByte a) 0x00#8))

/-- `Push` and `Pull` (20 R70, R71, R72, R75): the write comes before the decrement, the increment before the read, and
S wraps inside the window. -/
def Obligations.PushAndPull : Prop :=
  ∀ (v : Byte) (s : State),
    (s.isMemory (word16 0x01#8 s.sp) = true → Memory.wf s.mem = true → ∃ m : Memory,
      push v s = .done () { s with
        mem := m, sp := s.sp - 1, busLog := ⟨.write, word16 0x01#8 s.sp, v⟩ :: s.busLog } ∧
      MemoryAfter s [(word16 0x01#8 s.sp, v)] m) ∧
    (s.isMemory (word16 0x01#8 (s.sp + 1)) = true →
      pull s = .done (s.peek (word16 0x01#8 (s.sp + 1))) { s with
        sp := s.sp + 1
        busLog := ⟨.read, word16 0x01#8 (s.sp + 1), s.peek (word16 0x01#8 (s.sp + 1))⟩ :: s.busLog })

/-- `Push16` then `Pull16` returns the value and the stack pointer, also across the wrap (20 R73, R74, R75); the high
byte lies at the address S named first, the low byte below it in the window. -/
def Obligations.Push16ThenPull16 : Prop :=
  ∀ (w : Addr) (s : State), Memory.wf s.mem = true →
    s.isRam (word16 0x01#8 s.sp) = true → s.isRam (word16 0x01#8 (s.sp - 1)) = true →
    ∃ t u : State, push16 w s = .done () t ∧ t.sp = s.sp - 2 ∧
      t.peek (word16 0x01#8 s.sp) = hiByte w ∧ t.peek (word16 0x01#8 (s.sp - 1)) = loByte w ∧
      (∀ b : Addr, b ≠ word16 0x01#8 s.sp → b ≠ word16 0x01#8 (s.sp - 1) → t.peek b = s.peek b) ∧
      pull16 t = .done w u ∧ u.sp = s.sp ∧ ∀ b : Addr, u.peek b = t.peek b

/-- A load sees the last store to its address, whatever forms the two instructions have and whatever happened to the
registers between them (20 R90; 48 R270 to R275): STA, STX and STY complete and leave their register's byte in memory, and
LDA, LDX and LDY of that address complete and bring that byte into their register from any state with that memory and bus.
That the address keeps what is written is the premise that RAM answers it (log entry 2). -/
def Obligations.LoadSeesStore : Prop :=
  ∀ (o o' : Operand) (w : Addr) (s : State) (store : Instr) (v : Byte),
    (store, v) ∈ [(.sta o, s.a), (.stx o, s.x), (.sty o, s.y)] → WellFormed store → Memory.wf s.mem = true →
    s.isRam w = true → effectiveAddr o s = some w → resolvable o s = true →
    ∃ t : State, exec store s = .next t ∧ t.run = s.run ∧ t.peek w = v ∧
      ∀ t' : State, t'.mem = t.mem → t'.busMap = t.busMap → (∀ imm8 : Byte, o' ≠ .immediate imm8) →
        effectiveAddr o' t' = some w → resolvable o' t' = true →
        (WellFormed (.lda o') → ∃ u : State, exec (.lda o') t' = .next u ∧ u.run = t'.run ∧ u.a = v) ∧
        (WellFormed (.ldx o') → ∃ u : State, exec (.ldx o') t' = .next u ∧ u.run = t'.run ∧ u.x = v) ∧
        (WellFormed (.ldy o') → ∃ u : State, exec (.ldy o') t' = .next u ∧ u.run = t'.run ∧ u.y = v)

/-! ## The addressing modes -/

/-- What `Resolve` hands to the handler in each mode, and the bus reads it makes (40 R133, R141 to R152; the fetch of
the operand bytes is `step`'s, log entry 7). -/
def Obligations.ResolverModes : Prop :=
  ∀ (zp8 : Byte) (w : Addr) (s : State),
    resolve .implicit s = .done ⟨none, false⟩ s ∧
    resolve (.immediate zp8) s = .done ⟨some (s.pc - 1), false⟩ s ∧
    resolve (.zeroPage zp8) s = .done ⟨some (word16 0x00#8 zp8), false⟩ s ∧
    resolve (.zeroPageX zp8) s = .done ⟨some (word16 0x00#8 (zp8 + s.x)), false⟩ s ∧
    resolve (.zeroPageY zp8) s = .done ⟨some (word16 0x00#8 (zp8 + s.y)), false⟩ s ∧
    resolve (.absolute w) s = .done ⟨some w, false⟩ s ∧
    resolve (.absoluteX w) s = .done ⟨some (w + s.x.setWidth 16),
      decide (w.toNat / 256 ≠ (w + s.x.setWidth 16).toNat / 256)⟩ s ∧
    resolve (.absoluteY w) s = .done ⟨some (w + s.y.setWidth 16),
      decide (w.toNat / 256 ≠ (w + s.y.setWidth 16).toNat / 256)⟩ s ∧
    resolve (.relative zp8) s = .done ⟨some (s.pc + zp8.signExtend 16),
      decide (s.pc.toNat / 256 ≠ (s.pc + zp8.signExtend 16).toNat / 256)⟩ s ∧
    (∀ z z' : Addr, z = word16 0x00#8 (zp8 + s.x) → z' = word16 0x00#8 (zp8 + s.x + 1) →
      s.isMemory z = true → s.isMemory z' = true →
      resolve (.indexedIndirect zp8) s = .done ⟨some (word16 (s.peek z') (s.peek z)), false⟩
        { s with busLog := ⟨.read, z', s.peek z'⟩ :: ⟨.read, z, s.peek z⟩ :: s.busLog }) ∧
    (∀ z z' base : Addr, z = word16 0x00#8 zp8 → z' = word16 0x00#8 (zp8 + 1) →
      s.isMemory z = true → s.isMemory z' = true → base = word16 (s.peek z') (s.peek z) →
      resolve (.indirectIndexed zp8) s = .done ⟨some (base + s.y.setWidth 16),
          decide (base.toNat / 256 ≠ (base + s.y.setWidth 16).toNat / 256)⟩
        { s with busLog := ⟨.read, z', s.peek z'⟩ :: ⟨.read, z, s.peek z⟩ :: s.busLog }) ∧
    (∀ z' : Addr, z' = word16 (hiByte w) (loByte w + 1) → s.isMemory w = true → s.isMemory z' = true →
      resolve (.indirect w) s = .done ⟨some (word16 (s.peek z') (s.peek w)), false⟩
        { s with busLog := ⟨.read, z', s.peek z'⟩ :: ⟨.read, w, s.peek w⟩ :: s.busLog })

/-! ## Arithmetic, logic, shifts and compares -/

/-- ADC (41 R161): the sum, C from bit 8, V when the signed sum leaves -128 to 127, Z and N of the result; nothing else
changes but the reads' trace and the cycles. -/
def Obligations.AdcAddsWithCarry : Prop :=
  ∀ (o : Operand) (s : State) (m : Byte) (sum : Nat), WellFormed (.adc o) → readable o s = true →
    m = operandByte o s → sum = s.a.toNat + m.toNat + (flagC s.p).toNat →
    ∃ p' : Byte,
      exec (.adc o) s = .next { afterRead o s with a := BitVec.ofNat 8 sum, p := p' } ∧
      flagC p' = decide (sum > 0xFF) ∧
      (flagV p' = true ↔ s.a.toInt + m.toInt + (flagC s.p).toNat < -128 ∨
        127 < s.a.toInt + m.toInt + (flagC s.p).toNat) ∧
      ZNOf (BitVec.ofNat 8 sum) p' ∧ SameFlags 0x3C#8 s.p p'

/-- SBC and opcode 0xEB (41 R162, 49 R303; constructors sbc and sbcUndoc): the difference with borrow, C when there is
none, V when the signed difference leaves -128 to 127, Z and N of the result; nothing else changes but the reads' trace
and the cycles. -/
def Obligations.SbcSubtractsWithBorrow : Prop :=
  ∀ (i : Instr) (s : State) (m : Byte) (d : Int), i.mnemonic = .sbc → WellFormed i →
    readable i.operand s = true → m = operandByte i.operand s →
    d = (s.a.toNat : Int) - m.toNat - (1 - (flagC s.p).toNat) →
    ∃ p' : Byte,
      exec i s = .next { afterRead i.operand s with a := BitVec.ofInt 8 d, p := p' } ∧
      flagC p' = decide (0 ≤ d) ∧
      (flagV p' = true ↔ s.a.toInt - m.toInt - (1 - (flagC s.p).toNat) < -128 ∨
        127 < s.a.toInt - m.toInt - (1 - (flagC s.p).toNat)) ∧
      ZNOf (BitVec.ofInt 8 d) p' ∧ SameFlags 0x3C#8 s.p p'

/-- ADC and SBC compute in binary whatever `P.D` holds (41 R160): changing D before them changes only D after them. -/
def Obligations.DecimalFlagIsInert : Prop :=
  ∀ (i : Instr) (s t : State) (d : Bool), i.mnemonic ∈ [.adc, .sbc] → exec i s = .next t →
    flagD t.p = flagD s.p ∧ exec i { s with p := setD d s.p } = .next { t with p := setD d t.p }

/-- ADC then SBC of the same operand gives the accumulator back exactly when the carry out differs from the carry in,
and always when the carry is set to the opposite of the carry in between them (41 R163). -/
def Obligations.AdcThenSbc : Prop :=
  ∀ (m : Byte) (s t : State), exec (.adc (.immediate m)) s = .next t →
    (∀ u : State, exec (.sbc (.immediate m)) t = .next u → (u.a = s.a ↔ flagC t.p ≠ flagC s.p)) ∧
    (∀ u : State, exec (.sbc (.immediate m)) { t with p := setC (!flagC s.p) t.p } = .next u → u.a = s.a)

/-- AND, ORA and EOR (42 R170, R171, R172): the bitwise result in A, Z and N of it, and nothing else but the reads'
trace and the cycles. -/
def Obligations.LogicalCombinesWithA : Prop :=
  ∀ (o : Operand) (s : State) (i : Instr) (r : Byte),
    (i, r) ∈ [(.and o, s.a &&& operandByte o s), (.ora o, s.a ||| operandByte o s),
      (.eor o, s.a ^^^ operandByte o s)] → WellFormed i → readable o s = true →
    ∃ p' : Byte, exec i s = .next { afterRead o s with a := r, p := p' } ∧ ZNOf r p' ∧ SameFlags 0x7D#8 s.p p'

/-- BIT (42 R173): Z of the and, V and N copied from the memory byte, A and every other flag unchanged. -/
def Obligations.BitTestsMemory : Prop :=
  ∀ (o : Operand) (s : State) (m : Byte), WellFormed (.bit o) → readable o s = true → m = operandByte o s →
    ∃ p' : Byte, exec (.bit o) s = .next { afterRead o s with p := p' } ∧
      flagZ p' = decide (s.a &&& m = 0#8) ∧ flagV p' = m.getLsbD 6 ∧ flagN p' = m.getLsbD 7 ∧
      SameFlags 0x3D#8 s.p p'

/-- ASL, LSR, ROL and ROR of the accumulator (43 R180 to R184): the shifted value and the bit shifted out, in two
cycles, with no bus access. -/
def Obligations.ShiftsOfTheAccumulator : Prop :=
  ∀ (s : State) (i : Instr) (r : Nat) (c : Bool) (carry : Nat), carry = (flagC s.p).toNat →
    (i, r, c) ∈ [(.asl .implicit, s.a.toNat * 2 % 256, s.a.getLsbD 7), (.lsr .implicit, s.a.toNat / 2, s.a.getLsbD 0),
      (.rol .implicit, (s.a.toNat * 2 + carry) % 256, s.a.getLsbD 7),
      (.ror .implicit, s.a.toNat / 2 + carry * 128, s.a.getLsbD 0)] →
    ∃ p' : Byte, exec i s = .next { afterInternal 2 s with a := BitVec.ofNat 8 r, p := p' } ∧
      flagC p' = c ∧ ZNOf (BitVec.ofNat 8 r) p' ∧ SameFlags 0x7C#8 s.p p'

/-- ASL, LSR, ROL and ROR of a memory byte (43 R180 to R184): one read and one write at the effective address, the flags
of the result, no other register, and no other byte of memory. -/
def Obligations.ShiftsOfMemory : Prop :=
  ∀ (o : Operand) (s : State) (ea : Addr) (v : Nat) (i : Instr) (r : Nat) (c : Bool) (carry : Nat),
    effectiveAddr o s = some ea → v = (s.peek ea).toNat → carry = (flagC s.p).toNat →
    (i, r, c) ∈ [(.asl o, v * 2 % 256, v.testBit 7), (.lsr o, v / 2, v.testBit 0),
      (.rol o, (v * 2 + carry) % 256, v.testBit 7), (.ror o, v / 2 + carry * 128, v.testBit 0)] →
    WellFormed i → storable o s = true → Memory.wf s.mem = true →
    ∃ (m : Memory) (p' : Byte), exec i s = .next { afterModify o ea (BitVec.ofNat 8 r) m s with p := p' } ∧
      MemoryAfter s [(ea, BitVec.ofNat 8 r)] m ∧ flagC p' = c ∧ ZNOf (BitVec.ofNat 8 r) p' ∧ SameFlags 0x7C#8 s.p p'

/-- CMP, CPX and CPY (44 R190 to R193): C when the register is at least the operand, Z when they are equal, N of the
difference; no register, V, I or D changes. -/
def Obligations.ComparesSetFlags : Prop :=
  ∀ (o : Operand) (s : State) (i : Instr) (reg m : Byte),
    (i, reg) ∈ [(.cmp o, s.a), (.cpx o, s.x), (.cpy o, s.y)] → WellFormed i → readable o s = true →
    m = operandByte o s →
    ∃ p' : Byte, exec i s = .next { afterRead o s with p := p' } ∧
      flagC p' = decide (m.toNat ≤ reg.toNat) ∧ flagZ p' = decide (reg = m) ∧ flagN p' = (reg - m).msb ∧
      SameFlags 0x7C#8 s.p p'

/-! ## Branches, stack and control -/

/-- The eight branches (45 R200 to R208): in every state, PC goes to the target when the condition holds and stays
otherwise, at 2, 3 or 4 cycles; no other register, no flag, no memory, no bus access. -/
def Obligations.BranchesTestOneFlag : Prop :=
  ∀ (rel8 : Byte) (s : State) (target : Addr) (i : Instr) (opcode : Byte) (taken : Bool),
    target = s.pc + rel8.signExtend 16 →
    (i, opcode, taken) ∈ [(.bcc rel8, 0x90#8, !flagC s.p), (.bcs rel8, 0xB0#8, flagC s.p),
      (.beq rel8, 0xF0#8, flagZ s.p), (.bne rel8, 0xD0#8, !flagZ s.p),
      (.bmi rel8, 0x30#8, flagN s.p), (.bpl rel8, 0x10#8, !flagN s.p),
      (.bvc rel8, 0x50#8, !flagV s.p), (.bvs rel8, 0x70#8, flagV s.p)] →
    encode i = some [opcode, rel8] ∧
    exec i s = .next { s with
      pc := if taken then target else s.pc
      cycles := s.cycles +
        (if taken then (if s.pc.toNat / 256 = target.toNat / 256 then 3 else 4) else 2) }

/-- PHA and PHP (46 R220, R221): the accumulator, or P with Break and Reserved set, at the address S names; S one lower;
no flag and no other register. -/
def Obligations.PushInstructions : Prop :=
  ∀ (s : State) (i : Instr) (opcode v : Byte),
    (i, opcode, v) ∈ [(.pha, 0x48#8, s.a), (.php, 0x08#8, s.p ||| 0x30#8)] →
    s.isMemory (word16 0x01#8 s.sp) = true → Memory.wf s.mem = true →
    encode i = some [opcode] ∧
    ∃ m : Memory, exec i s = .next { afterInternal 3 s with
        sp := s.sp - 1, mem := m, busLog := ⟨.write, word16 0x01#8 s.sp, v⟩ :: s.busLog } ∧
      MemoryAfter s [(word16 0x01#8 s.sp, v)] m

/-- PLA and PLP (46 R222, R223): S one higher, the byte there in A with Z and N of it, or in P with Break cleared and
Reserved set. -/
def Obligations.PullInstructions : Prop :=
  ∀ (s : State) (top : Addr) (v : Byte), top = word16 0x01#8 (s.sp + 1) → s.isMemory top = true → v = s.peek top →
    encode .pla = some [0x68#8] ∧ encode .plp = some [0x28#8] ∧
    (∃ p' : Byte, exec .pla s = .next { afterInternal 4 s with
        a := v, p := p', sp := s.sp + 1, busLog := ⟨.read, top, v⟩ :: s.busLog } ∧
      ZNOf v p' ∧ SameFlags 0x7D#8 s.p p') ∧
    exec .plp s = .next { afterInternal 4 s with
      p := (v &&& 0xEF#8) ||| 0x20#8, sp := s.sp + 1, busLog := ⟨.read, top, v⟩ :: s.busLog }

/-- JSR (46 R224): the address of its last byte is pushed, high byte first, and PC is the operand; 6 cycles. -/
def Obligations.JsrPushesReturnAddress : Prop :=
  ∀ (target : Addr) (s : State), Memory.wf s.mem = true →
    s.isMemory (word16 0x01#8 s.sp) = true → s.isMemory (word16 0x01#8 (s.sp - 1)) = true →
    ∃ m : Memory, exec (.jsr target) s = .next { afterInternal 6 s with
        pc := target
        sp := s.sp - 2
        mem := m
        busLog := ⟨.write, word16 0x01#8 (s.sp - 1), loByte (s.pc - 1)⟩ ::
          ⟨.write, word16 0x01#8 s.sp, hiByte (s.pc - 1)⟩ :: s.busLog } ∧
      MemoryAfter s [(word16 0x01#8 (s.sp - 1), loByte (s.pc - 1)), (word16 0x01#8 s.sp, hiByte (s.pc - 1))] m

/-- A JSR whose second push is unmapped has moved S once and written the first byte; PC stays, no cycles are added
(46 R224, 60 R341, R347). -/
def Obligations.JsrSecondPushFaults : Prop :=
  ∀ (target : Addr) (s : State), Memory.wf s.mem = true →
    s.isMemory (word16 0x01#8 s.sp) = true → backingOf s.busMap (word16 0x01#8 (s.sp - 1)) = none →
    ∃ m : Memory, exec (.jsr target) s = .next { s with
        sp := s.sp - 1
        mem := m
        busLog := ⟨.write, word16 0x01#8 s.sp, hiByte (s.pc - 1)⟩ :: s.busLog
        run := .faulted (.unmappedAddress (word16 0x01#8 (s.sp - 1))) } ∧
      MemoryAfter s [(word16 0x01#8 s.sp, hiByte (s.pc - 1))] m

/-- RTS (46 R225): PC is the pulled address plus one, low byte pulled first; RTI (R226, 60 R357): P from the first
pulled byte, PC the next two with nothing added. -/
def Obligations.Returns : Prop :=
  ∀ (s : State) (a1 a2 a3 : Addr),
    a1 = word16 0x01#8 (s.sp + 1) → a2 = word16 0x01#8 (s.sp + 2) → a3 = word16 0x01#8 (s.sp + 3) →
    s.isMemory a1 = true → s.isMemory a2 = true →
    exec .rts s = .next { afterInternal 6 s with
      pc := word16 (s.peek a2) (s.peek a1) + 1
      sp := s.sp + 2
      busLog := ⟨.read, a2, s.peek a2⟩ :: ⟨.read, a1, s.peek a1⟩ :: s.busLog } ∧
    (s.isMemory a3 = true → exec .rti s = .next { afterInternal 6 s with
      p := (s.peek a1 &&& 0xEF#8) ||| 0x20#8
      pc := word16 (s.peek a3) (s.peek a2)
      sp := s.sp + 3
      busLog := ⟨.read, a3, s.peek a3⟩ :: ⟨.read, a2, s.peek a2⟩ :: ⟨.read, a1, s.peek a1⟩ :: s.busLog })

/-- JMP (46 R227, 40 R151): the operand itself, or the pointer it names read with the page-wrap defect; 3 and 5
cycles. -/
def Obligations.JmpSetsPc : Prop :=
  ∀ (w hiAt : Addr) (s : State),
    exec (.jmp (.absolute w)) s = .next { afterInternal 3 s with pc := w } ∧
    (hiAt = word16 (hiByte w) (loByte w + 1) → s.isMemory w = true → s.isMemory hiAt = true →
      exec (.jmp (.indirect w)) s = .next { afterInternal 5 s with
        pc := word16 (s.peek hiAt) (s.peek w)
        busLog := ⟨.read, hiAt, s.peek hiAt⟩ :: ⟨.read, w, s.peek w⟩ :: s.busLog })

/-- BRK (46 R228): the padding byte is skipped as `BRK_PAD` says (its default 1, 92 D5), PC and the status with Break
and Reserved set are pushed, `P.I` is set, and PC is loaded from 0xFFFE; 7 cycles. -/
def Obligations.BrkTakesTheException : Prop :=
  ∀ (s : State) (ret : Addr), ret = s.pc + (if s.params.brkPad then 1 else 0) → Memory.wf s.mem = true →
    [word16 0x01#8 s.sp, word16 0x01#8 (s.sp - 1), word16 0x01#8 (s.sp - 2), 0xFFFE#16, 0xFFFF#16].all
      s.isMemory = true →
    ∃ m : Memory, exec .brk s = .next { afterInternal 7 s with
        sp := s.sp - 3
        p := s.p ||| 0x04#8
        pc := word16 (s.peek 0xFFFF#16) (s.peek 0xFFFE#16)
        mem := m
        busLog := [
          ⟨.read, 0xFFFF#16, s.peek 0xFFFF#16⟩, ⟨.read, 0xFFFE#16, s.peek 0xFFFE#16⟩,
          ⟨.write, word16 0x01#8 (s.sp - 2), s.p ||| 0x30#8⟩,
          ⟨.write, word16 0x01#8 (s.sp - 1), loByte ret⟩,
          ⟨.write, word16 0x01#8 s.sp, hiByte ret⟩] ++ s.busLog } ∧
      MemoryAfter s [(word16 0x01#8 (s.sp - 2), s.p ||| 0x30#8), (word16 0x01#8 (s.sp - 1), loByte ret),
        (word16 0x01#8 s.sp, hiByte ret)] m

/-- RTI after an interrupt entry resumes exactly where it was taken, with P and S as they were (60 R352, R356, R357);
so does RTS after JSR, at the next instruction (46 R224, R225). -/
def Obligations.ReturnsUndoEntries : Prop :=
  ∀ s t : State, StateInv s → s.run = .running →
    [word16 0x01#8 s.sp, word16 0x01#8 (s.sp - 1), word16 0x01#8 (s.sp - 2)].all s.isRam = true →
    (∀ kind : InterruptKind, interruptEntry kind s = .next t → t.run = .running →
      ∃ u : State, exec .rti t = .next u ∧ u.run = .running ∧ u.pc = s.pc ∧ u.p = s.p ∧ u.sp = s.sp ∧
        u.a = s.a ∧ u.x = s.x ∧ u.y = s.y) ∧
    (exec .brk s = .next t → t.run = .running →
      ∃ u : State, exec .rti t = .next u ∧ u.run = .running ∧
        u.pc = s.pc + (if s.params.brkPad then 1 else 0) ∧ u.p = s.p ∧ u.sp = s.sp) ∧
    (∀ target : Addr, exec (.jsr target) s = .next t →
      ∃ u : State, exec .rts t = .next u ∧ u.run = .running ∧ u.pc = s.pc ∧ u.sp = s.sp ∧ u.p = s.p)

/-! ## Transfers, flags, NOP, loads, stores, increments and decrements -/

/-- TAX, TXA, TAY, TYA, TSX and TXS (47 R240 to R245): the copy, Z and N of it except for TXS, two cycles, in every
state; nothing else changes. -/
def Obligations.TransfersCopy : Prop :=
  ∀ s : State,
    [encode .tax, encode .txa, encode .tay, encode .tya, encode .tsx, encode .txs] =
      [some [0xAA#8], some [0x8A#8], some [0xA8#8], some [0x98#8], some [0xBA#8], some [0x9A#8]] ∧
    (∃ p' : Byte, exec .tax s = .next { afterInternal 2 s with x := s.a, p := p' } ∧
      ZNOf s.a p' ∧ SameFlags 0x7D#8 s.p p') ∧
    (∃ p' : Byte, exec .txa s = .next { afterInternal 2 s with a := s.x, p := p' } ∧
      ZNOf s.x p' ∧ SameFlags 0x7D#8 s.p p') ∧
    (∃ p' : Byte, exec .tay s = .next { afterInternal 2 s with y := s.a, p := p' } ∧
      ZNOf s.a p' ∧ SameFlags 0x7D#8 s.p p') ∧
    (∃ p' : Byte, exec .tya s = .next { afterInternal 2 s with a := s.y, p := p' } ∧
      ZNOf s.y p' ∧ SameFlags 0x7D#8 s.p p') ∧
    (∃ p' : Byte, exec .tsx s = .next { afterInternal 2 s with x := s.sp, p := p' } ∧
      ZNOf s.sp p' ∧ SameFlags 0x7D#8 s.p p') ∧
    exec .txs s = .next { afterInternal 2 s with sp := s.x }

/-- CLC, SEC, CLI, SEI, CLD, SED and CLV (47 R250 to R256): the one named flag, two cycles, in every state. -/
def Obligations.FlagInstructions : Prop :=
  ∀ (s : State) (i : Instr) (opcode p' : Byte),
    (i, opcode, p') ∈ [(.clc, 0x18#8, s.p &&& 0xFE#8), (.sec, 0x38#8, s.p ||| 0x01#8),
      (.cli, 0x58#8, s.p &&& 0xFB#8), (.sei, 0x78#8, s.p ||| 0x04#8), (.cld, 0xD8#8, s.p &&& 0xF7#8),
      (.sed, 0xF8#8, s.p ||| 0x08#8), (.clv, 0xB8#8, s.p &&& 0xBF#8)] →
    encode i = some [opcode] ∧ exec i s = .next { afterInternal 2 s with p := p' }

/-- NOP and the 27 undocumented NOPs (47 R260, 49 R302; constructors nop and nopUndoc): cycles only, one more where the
AbsoluteX form crosses a page, in every state. -/
def Obligations.NopsOnlyTakeTime : Prop :=
  ∀ s : State, encode .nop = some [0xEA#8] ∧ exec .nop s = .next (afterInternal 2 s) ∧
    ∀ (opcode : Byte) (o : Operand), WellFormed (.nopUndoc opcode o) →
      exec (.nopUndoc opcode o) s = .next (afterInternal
        (match o with
          | .zeroPage _ => 3
          | .zeroPageX _ | .absolute _ => 4
          | .absoluteX w => if w.toNat / 256 = (w + s.x.setWidth 16).toNat / 256 then 4 else 5
          | _ => 2) s)

/-- LDA, LDX and LDY (48 R270, R271, R272): the byte in the register, Z and N of it, and nothing else but the reads'
trace and the cycles. -/
def Obligations.LoadsReadMemory : Prop :=
  ∀ (o : Operand) (s : State) (m : Byte), readable o s = true → m = operandByte o s →
    ∃ p' : Byte, ZNOf m p' ∧ SameFlags 0x7D#8 s.p p' ∧
      (WellFormed (.lda o) → exec (.lda o) s = .next { afterRead o s with a := m, p := p' }) ∧
      (WellFormed (.ldx o) → exec (.ldx o) s = .next { afterRead o s with x := m, p := p' }) ∧
      (WellFormed (.ldy o) → exec (.ldy o) s = .next { afterRead o s with y := m, p := p' })

/-- STA, STX and STY (48 R273, R274, R275): the register's byte at the effective address and at no other, one write, no
flag and no register. -/
def Obligations.StoresWriteMemory : Prop :=
  ∀ (o : Operand) (s : State) (ea : Addr) (i : Instr) (v : Byte),
    (i, v) ∈ [(.sta o, s.a), (.stx o, s.x), (.sty o, s.y)] → WellFormed i →
    effectiveAddr o s = some ea → storable o s = true → Memory.wf s.mem = true →
    ∃ m : Memory, exec i s = .next (afterStore o ea v m s) ∧ MemoryAfter s [(ea, v)] m

/-- INC and DEC (48 R280, R281): one read and one write at the effective address, Z and N of the byte written, C and V
unchanged. -/
def Obligations.IncDecMemory : Prop :=
  ∀ (o : Operand) (s : State) (ea : Addr) (i : Instr) (r : Byte),
    effectiveAddr o s = some ea → (i, r) ∈ [(.inc o, s.peek ea + 1), (.dec o, s.peek ea - 1)] → WellFormed i →
    storable o s = true → Memory.wf s.mem = true →
    ∃ (m : Memory) (p' : Byte), exec i s = .next { afterModify o ea r m s with p := p' } ∧
      MemoryAfter s [(ea, r)] m ∧ ZNOf r p' ∧ SameFlags 0x7D#8 s.p p'

/-- INX, INY, DEX and DEY (48 R282 to R285): the register one higher or lower modulo 256, Z and N of it, two cycles, in
every state. -/
def Obligations.IncDecRegisters : Prop :=
  ∀ s : State,
    [encode .inx, encode .iny, encode .dex, encode .dey] =
      [some [0xE8#8], some [0xC8#8], some [0xCA#8], some [0x88#8]] ∧
    (∃ p' : Byte, exec .inx s = .next { afterInternal 2 s with x := s.x + 1, p := p' } ∧
      ZNOf (s.x + 1) p' ∧ SameFlags 0x7D#8 s.p p') ∧
    (∃ p' : Byte, exec .iny s = .next { afterInternal 2 s with y := s.y + 1, p := p' } ∧
      ZNOf (s.y + 1) p' ∧ SameFlags 0x7D#8 s.p p') ∧
    (∃ p' : Byte, exec .dex s = .next { afterInternal 2 s with x := s.x - 1, p := p' } ∧
      ZNOf (s.x - 1) p' ∧ SameFlags 0x7D#8 s.p p') ∧
    (∃ p' : Byte, exec .dey s = .next { afterInternal 2 s with y := s.y - 1, p := p' } ∧
      ZNOf (s.y - 1) p' ∧ SameFlags 0x7D#8 s.p p')

/-! ## Undocumented mnemonics -/

/-- KIL raises `UnimplementedInstruction` with its own byte under either policy (49 R301). XAA raises it under
`UNDOC_POLICY = fault` (R300, R315); that it raises it under `execute` too is the model's choice (log entry 12, DEDUCED,
from R315's informative sentence, which R300 calls not normative). The other 17 undocumented-only mnemonics raise it
under `fault` after their operand is resolved (R300, R304 to R321). Nothing but the run state and the resolver's trace
changes. -/
def Obligations.UndocumentedOpcodesFault : Prop :=
  (∀ (opcode : Byte) (s : State), WellFormed (.kil opcode) →
    exec (.kil opcode) s = .next { s with run := .faulted (.unimplementedInstruction opcode) }) ∧
  (∀ (imm8 : Byte) (s : State),
    exec (.xaa imm8) s = .next { s with run := .faulted (.unimplementedInstruction 0x8B#8) }) ∧
  (∀ (i : Instr) (opcode : Byte) (s : State), i.mnemonic ∈ [.slo, .rla, .sre, .rra, .sax, .lax, .dcp, .isc, .anc,
      .alr, .arr, .axs, .ahx, .shy, .shx, .tas, .las] →
    s.params.undocPolicy = .fault → opcodeOf i = some opcode → resolvable i.operand s = true →
    exec i s = .next { s with
      run := .faulted (.unimplementedInstruction opcode)
      busLog := tracedReads (pointerReads i.operand s) s })

/-- Only the 77 bytes of KIL and the 18 other undocumented-only mnemonics raise `UnimplementedInstruction`, each with
its own byte (60 R344). -/
def Obligations.OnlyUndocumentedOpcodesAreUnimplemented : Prop :=
  ∀ (i : Instr) (opcode : Byte) (s t : State), s.run = .running → exec i s = .next t →
    t.run = .faulted (.unimplementedInstruction opcode) →
    opcodeOf i = some opcode ∧ (entryOf opcode).mnemonic ∈ [.kil, .slo, .rla, .sre, .rra, .sax, .lax, .dcp, .isc,
      .anc, .alr, .arr, .xaa, .axs, .ahx, .shy, .shx, .tas, .las]

/-- The combined read-modify-write mnemonics under `UNDOC_POLICY = execute` (log entry 10: the informative sentences of
49 R304, R305, R306, R307, R310, R311): what they write to memory, to A and to the flags. -/
def Obligations.UndocumentedReadModifyWrite : Prop :=
  ∀ (o : Operand) (s : State) (ea : Addr) (v c r a' : Nat) (cIn : Nat) (i : Instr) (carry : Bool),
    s.params.undocPolicy = .execute → effectiveAddr o s = some ea → v = (s.peek ea).toNat → c = (flagC s.p).toNat →
    cIn = v % 2 →
    (i, r, a', carry) ∈ [
      (.slo o, v * 2 % 256, s.a.toNat ||| (v * 2 % 256), v.testBit 7),
      (.rla o, (v * 2 + c) % 256, s.a.toNat &&& ((v * 2 + c) % 256), v.testBit 7),
      (.sre o, v / 2, s.a.toNat ^^^ (v / 2), v.testBit 0),
      (.rra o, v / 2 + c * 128, s.a.toNat + (v / 2 + c * 128) + cIn, decide (s.a.toNat + (v / 2 + c * 128) + cIn > 255)),
      (.dcp o, (v + 255) % 256, s.a.toNat, decide ((v + 255) % 256 ≤ s.a.toNat)),
      (.isc o, (v + 1) % 256, s.a.toNat + (255 - (v + 1) % 256) + c,
        decide ((v + 1) % 256 + (1 - c) ≤ s.a.toNat))] →
    WellFormed i → storable o s = true → Memory.wf s.mem = true →
    ∃ (m : Memory) (p' : Byte), exec i s = .next { afterModify o ea (BitVec.ofNat 8 r) m s with
        a := BitVec.ofNat 8 a', p := p' } ∧
      MemoryAfter s [(ea, BitVec.ofNat 8 r)] m ∧ flagC p' = carry ∧
      (i.mnemonic ≠ .dcp → ZNOf (BitVec.ofNat 8 a') p') ∧
      (i.mnemonic = .dcp → ZNOf (BitVec.ofNat 8 (s.a.toNat + 256 - r)) p') ∧
      SameFlags 0x3C#8 s.p p' ∧
      (i.mnemonic ∈ [.rra, .isc] → ∀ m8 : Byte, m8 = (if i.mnemonic = .rra then BitVec.ofNat 8 r else ~~~BitVec.ofNat 8 r) →
        flagV p' = decide (s.a.msb = m8.msb ∧ (BitVec.ofNat 8 a').msb ≠ s.a.msb)) ∧
      (i.mnemonic ∉ [.rra, .isc] → flagV p' = flagV s.p)

/-- SAX and LAX under `UNDOC_POLICY = execute` (log entry 10: 49 R308, R309), LAX in its stable forms. -/
def Obligations.UndocumentedLoadAndStore : Prop :=
  ∀ (o : Operand) (s : State) (ea : Addr), s.params.undocPolicy = .execute → effectiveAddr o s = some ea →
    (WellFormed (.sax o) → storable o s = true → Memory.wf s.mem = true →
      ∃ m : Memory, exec (.sax o) s = .next (afterStore o ea (s.a &&& s.x) m s) ∧
        MemoryAfter s [(ea, s.a &&& s.x)] m) ∧
    (WellFormed (.lax o) → o.mode ≠ .immediate → readable o s = true →
      ∃ p' : Byte, exec (.lax o) s = .next { afterRead o s with a := s.peek ea, x := s.peek ea, p := p' } ∧
        ZNOf (s.peek ea) p' ∧ SameFlags 0x7D#8 s.p p')

/-- ANC, ALR, ARR and AXS under `UNDOC_POLICY = execute` (log entry 10: 49 R312, R313, R314, R316), in every state. -/
def Obligations.UndocumentedImmediates : Prop :=
  ∀ (m : Byte) (s : State) (v : Byte), s.params.undocPolicy = .execute → v = s.a &&& m →
    (∀ opcode : Byte, WellFormed (.anc opcode m) → ∃ p' : Byte,
      exec (.anc opcode m) s = .next { afterInternal 2 s with a := v, p := p' } ∧
      flagC p' = v.msb ∧ ZNOf v p' ∧ SameFlags 0x7C#8 s.p p') ∧
    (∃ p' : Byte, exec (.alr m) s = .next { afterInternal 2 s with a := v >>> 1, p := p' } ∧
      flagC p' = v.getLsbD 0 ∧ ZNOf (v >>> 1) p' ∧ SameFlags 0x7C#8 s.p p') ∧
    (∀ r : Byte, r = BitVec.ofNat 8 (v.toNat / 2 + (flagC s.p).toNat * 128) → ∃ p' : Byte,
      exec (.arr m) s = .next { afterInternal 2 s with a := r, p := p' } ∧
      flagC p' = r.getLsbD 6 ∧ flagV p' = (r.getLsbD 6 != r.getLsbD 5) ∧ ZNOf r p' ∧ SameFlags 0x3C#8 s.p p') ∧
    (∃ p' : Byte, exec (.axs m) s = .next { afterInternal 2 s with x := (s.a &&& s.x) - m, p := p' } ∧
      flagC p' = decide (m.toNat ≤ (s.a &&& s.x).toNat) ∧ ZNOf ((s.a &&& s.x) - m) p' ∧ SameFlags 0x7C#8 s.p p')

/-- The unstable opcodes under `UNDOC_POLICY = execute` (log entries 10 and 11: 49 R309, R317 to R321, 93 I2): they run,
with some value (no number is claimed for it) where the spec gives none; AHX's address keeps its low byte, and its high
byte too when no page is crossed. -/
def Obligations.UnstableOpcodesRun : Prop :=
  ∀ s : State, s.params.undocPolicy = .execute → Memory.wf s.mem = true → (∀ a : Addr, s.isMemory a = true) →
    (∀ o : Operand, WellFormed (.ahx o) → ∃ (ea ea' : Addr) (v : Byte) (m : Memory) (n : Nat),
      effectiveAddr o s = some ea ∧ loByte ea' = loByte ea ∧ (crosses o s = false → ea' = ea) ∧
      exec (.ahx o) s = .next { afterStore o ea' v m s with freeIndex := n } ∧ MemoryAfter s [(ea', v)] m) ∧
    (∀ (w ea : Addr) (o : Operand) (i : Instr) (sp' : Byte),
      (i, o, ea, sp') ∈ [(.shy w, .absoluteX w, w + s.x.setWidth 16, s.sp),
        (.shx w, .absoluteY w, w + s.y.setWidth 16, s.sp),
        (.tas w, .absoluteY w, w + s.y.setWidth 16, s.a &&& s.x)] →
      ∃ (v : Byte) (m : Memory) (n : Nat),
        exec i s = .next { afterStore o ea v m s with sp := sp', freeIndex := n } ∧ MemoryAfter s [(ea, v)] m) ∧
    (∀ w : Addr, ∃ (v p' : Byte) (n : Nat),
      exec (.las w) s = .next { afterRead (.absoluteY w) s with a := v, x := v, sp := v, p := p', freeIndex := n } ∧
      ZNOf v p' ∧ SameFlags 0x7D#8 s.p p') ∧
    (∀ imm8 : Byte, ∃ (v p' : Byte) (n : Nat),
      exec (.lax (.immediate imm8)) s = .next { afterInternal 2 s with a := v, x := v, p := p', freeIndex := n } ∧
      ZNOf v p' ∧ SameFlags 0x7D#8 s.p p')

/-! ## Frames: what an instruction leaves unchanged, in every state and on every bus -/

/-- Which instructions write each register (10 R21 to R25): no other changes it, whether or not an access faults. The
undocumented mnemonics are named with the register they write under `execute` (log entry 10). -/
def Obligations.RegisterWriters : Prop :=
  ∀ (i : Instr) (s t : State), exec i s = .next t →
    (t.a ≠ s.a → i.mnemonic ∈ [.adc, .sbc, .and, .ora, .eor, .lda, .pla, .txa, .tya] ∨
      (i.mnemonic ∈ [.asl, .lsr, .rol, .ror] ∧ i.mode = .implicit) ∨
      (s.params.undocPolicy = .execute ∧
        i.mnemonic ∈ [.slo, .rla, .sre, .rra, .lax, .isc, .anc, .alr, .arr, .las])) ∧
    (t.x ≠ s.x → i.mnemonic ∈ [.ldx, .tax, .tsx, .inx, .dex] ∨
      (s.params.undocPolicy = .execute ∧ i.mnemonic ∈ [.lax, .axs, .las])) ∧
    (t.y ≠ s.y → i.mnemonic ∈ [.ldy, .tay, .iny, .dey]) ∧
    (t.sp ≠ s.sp → i.mnemonic ∈ [.pha, .php, .pla, .plp, .jsr, .rts, .rti, .brk, .txs] ∨
      (s.params.undocPolicy = .execute ∧ i.mnemonic ∈ [.tas, .las])) ∧
    (t.pc ≠ s.pc →
      i.mnemonic ∈ [.bcc, .bcs, .beq, .bne, .bmi, .bpl, .bvc, .bvs, .jmp, .jsr, .rts, .rti, .brk])

/-- Which instructions write each flag (10 R27 to R36): no other changes it, whether or not an access faults. The
undocumented mnemonics are named with the flags they write under `execute` (log entry 10). -/
def Obligations.FlagWriters : Prop :=
  ∀ (i : Instr) (s t : State), StateInv s → exec i s = .next t →
    (flagC t.p ≠ flagC s.p → i.mnemonic ∈ [.adc, .sbc, .asl, .lsr, .rol, .ror, .cmp, .cpx, .cpy, .clc, .sec, .plp,
        .rti] ∨ (s.params.undocPolicy = .execute ∧
        i.mnemonic ∈ [.slo, .rla, .sre, .rra, .dcp, .isc, .anc, .alr, .arr, .axs])) ∧
    ((flagZ t.p ≠ flagZ s.p ∨ flagN t.p ≠ flagN s.p) → i.mnemonic ∈ [.adc, .sbc, .and, .ora, .eor, .bit, .asl, .lsr,
        .rol, .ror, .cmp, .cpx, .cpy, .lda, .ldx, .ldy, .inc, .dec, .inx, .iny, .dex, .dey, .tax, .txa, .tay, .tya,
        .tsx, .pla, .plp, .rti] ∨ (s.params.undocPolicy = .execute ∧
        i.mnemonic ∈ [.slo, .rla, .sre, .rra, .lax, .dcp, .isc, .anc, .alr, .arr, .axs, .las])) ∧
    (flagI t.p ≠ flagI s.p → i.mnemonic ∈ [.cli, .sei, .plp, .rti, .brk]) ∧
    (flagD t.p ≠ flagD s.p → i.mnemonic ∈ [.cld, .sed, .plp, .rti]) ∧
    (flagV t.p ≠ flagV s.p → i.mnemonic ∈ [.adc, .sbc, .bit, .clv, .plp, .rti] ∨
      (s.params.undocPolicy = .execute ∧ i.mnemonic ∈ [.rra, .isc, .arr])) ∧
    flagB t.p = false ∧ flagR t.p = true

/-- An instruction form that stores nothing leaves every byte of memory (20 R66, R67): all but the stores, the
read-modify-write forms of memory, the pushes and, under `execute`, the undocumented storing mnemonics. -/
def Obligations.NonStoringFormsKeepMemory : Prop :=
  ∀ (i : Instr) (s t : State) (b : Addr), exec i s = .next t →
    i.mnemonic ∉ [.sta, .stx, .sty, .inc, .dec, .pha, .php, .jsr, .brk] →
    (i.mnemonic ∈ [.asl, .lsr, .rol, .ror] → i.mode = .implicit) →
    (i.mnemonic ∈ [.slo, .rla, .sre, .rra, .dcp, .isc, .sax, .ahx, .shy, .shx, .tas] →
      s.params.undocPolicy = .fault) →
    t.peek b = s.peek b

/-- A storing form changes no byte but the one at the address its meaning computes (20 R66, R67): the resolver's address
in the state it runs in, AHX's corrupted address on a page crossing (log entry 11), the stack bytes of the pushes. -/
def Obligations.StoringFormsKeepOtherBytes : Prop :=
  ∀ (i : Instr) (s t : State) (b : Addr), exec i s = .next t →
    (i.mnemonic ∈ [.sta, .stx, .sty, .inc, .dec, .asl, .lsr, .rol, .ror, .slo, .rla, .sre, .rra, .dcp, .isc, .sax,
        .shy, .shx, .tas] →
      (∀ (r : Resolved) (u : State), resolve i.operand s = .done r u → r.ea ≠ some b) → t.peek b = s.peek b) ∧
    (i.mnemonic = .ahx →
      (∀ (r : Resolved) (u : State), resolve i.operand s = .done r u → (ahxTarget r u).ea ≠ some b) →
      t.peek b = s.peek b) ∧
    (i.mnemonic ∈ [.pha, .php] → b ≠ stackAddr s.sp → t.peek b = s.peek b) ∧
    (i.mnemonic = .jsr → b ≠ stackAddr s.sp → b ≠ stackAddr (s.sp - 1) → t.peek b = s.peek b) ∧
    (i.mnemonic = .brk → b ≠ stackAddr s.sp → b ≠ stackAddr (s.sp - 1) → b ≠ stackAddr (s.sp - 2) →
      t.peek b = s.peek b)

/-- An access nothing claims, in the fetch of an operand byte, in the resolver's pointer or at the effective address of a
documented instruction, is the fault recorded (60 R341, R342, R346): the access's own address, every register and flag as
it was, no cycles (40 R139). A fault in the fetch leaves PC at the byte that could not be read (40 R132), but past an
Immediate byte that its handler reads (40 R142; log entry 7). -/
def Obligations.UnmappedOperandFaults : Prop :=
  (∀ (s : State) (entry : OpcodeEntry), s.run = .running → s.nmiPending = false →
    (s.irqLine = false ∨ flagI s.p = true) → s.isMemory s.pc = true → entry = entryOf (s.peek s.pc) →
    (entry.mode ≠ .implicit → entry.mode ≠ .immediate → backingOf s.busMap (s.pc + 1) = none →
      step s = .next { s with
        pc := s.pc + 1
        run := .faulted (.unmappedAddress (s.pc + 1))
        busLog := ⟨.read, s.pc, s.peek s.pc⟩ :: s.busLog }) ∧
    (entry.mode ∈ [.absolute, .absoluteX, .absoluteY, .indirect] → s.isMemory (s.pc + 1) = true →
      backingOf s.busMap (s.pc + 2) = none → step s = .next { s with
        pc := s.pc + 2
        run := .faulted (.unmappedAddress (s.pc + 2))
        busLog := ⟨.read, s.pc + 1, s.peek (s.pc + 1)⟩ :: ⟨.read, s.pc, s.peek s.pc⟩ :: s.busLog }) ∧
    (entry.mode = .immediate →
      entry.mnemonic ∈ [.adc, .sbc, .and, .ora, .eor, .cmp, .cpx, .cpy, .lda, .ldx, .ldy] ∨
        (s.params.undocPolicy = .execute ∧ entry.mnemonic ∈ [.anc, .alr, .arr, .axs, .lax]) →
      backingOf s.busMap (s.pc + 1) = none → step s = .next { s with
        pc := s.pc + 2
        run := .faulted (.unmappedAddress (s.pc + 1))
        busLog := ⟨.read, s.pc, s.peek s.pc⟩ :: s.busLog })) ∧
  (∀ (i : Instr) (s : State) (ptr : Addr), WellFormed i → pointerAddr i.operand s = some ptr →
    (backingOf s.busMap ptr = none → exec i s = .next { s with run := .faulted (.unmappedAddress ptr) }) ∧
    (s.isMemory ptr = true → backingOf s.busMap (word16 (hiByte ptr) (loByte ptr + 1)) = none →
      exec i s = .next { s with
        run := .faulted (.unmappedAddress (word16 (hiByte ptr) (loByte ptr + 1)))
        busLog := ⟨.read, ptr, s.peek ptr⟩ :: s.busLog })) ∧
  (∀ (i : Instr) (s : State) (ea : Addr), i.mnemonic ∈ [.adc, .sbc, .and, .ora, .eor, .bit, .asl, .lsr, .rol, .ror,
      .cmp, .cpx, .cpy, .lda, .ldx, .ldy, .sta, .stx, .sty, .inc, .dec] → WellFormed i →
    i.mode ≠ .immediate → resolvable i.operand s = true → effectiveAddr i.operand s = some ea →
    backingOf s.busMap ea = none →
    exec i s = .next { s with
      run := .faulted (.unmappedAddress ea)
      busLog := tracedReads (pointerReads i.operand s) s })
end

