-- ==== Sys2Proof/Laws/Memory.lean ====
section
/-! SUPPORT. Memory: a read after a write, and that a write keeps the canonical form. -/

namespace Sys2Proof.Machine.Memory

/-- An address below every listed address reads as unlisted. -/
theorem read_of_wfFrom {m : Memory} {low a : Nat} (h : wfFrom low m = true) (ha : a < low) :
    read m a = Config.unlistedByte := by
  induction m generalizing low with
  | nil => rfl
  | cons c m ih =>
    obtain ⟨k, v⟩ := c
    simp only [wfFrom, Bool.and_eq_true, decide_eq_true_eq] at h
    obtain ⟨⟨⟨hk, -⟩, -⟩, hm⟩ := h
    have hne : k ≠ a := by omega
    simp only [read, hne, if_false]
    exact ih hm (by omega)

/-- Writing one address leaves every other address as it was. -/
theorem read_write_other (m : Memory) {a b : Nat} (v : Byte) (h : b ≠ a) : read (write m a v) b = read m b := by
  induction m with
  | nil => unfold write; split <;> simp [read, Ne.symm h]
  | cons c m ih =>
    obtain ⟨k, w⟩ := c
    unfold write
    split
    · split <;> simp [read, Ne.symm h]
    · split
      · rename_i hk
        subst hk
        split <;> simp [read, Ne.symm h]
      · simp only [read, ih]

/-- A read after a write to the same address gives the byte written. -/
theorem read_write_same {m : Memory} {low : Nat} (h : wfFrom low m = true) (a : Nat) (v : Byte) :
    read (write m a v) a = v := by
  induction m generalizing low with
  | nil =>
    unfold write
    split
    · rename_i hv; exact hv.symm
    · simp [read]
  | cons c m ih =>
    obtain ⟨k, w⟩ := c
    simp only [wfFrom, Bool.and_eq_true, decide_eq_true_eq] at h
    obtain ⟨⟨⟨hk, hk2⟩, hw⟩, hm⟩ := h
    unfold write
    split
    · split
      · rename_i hlt hv
        subst hv
        have hne : k ≠ a := by omega
        simp only [read, hne, if_false]
        exact read_of_wfFrom hm (by omega)
      · simp [read]
    · split
      · rename_i heq
        subst heq
        split
        · rename_i hv
          rw [hv]
          exact read_of_wfFrom hm (by omega)
        · simp [read]
      · rename_i hne
        simp only [read, Ne.symm hne, if_false]
        exact ih hm

/-- Writing keeps the canonical form from a lower bound on. -/
theorem wfFrom_write {m : Memory} {low : Nat} (h : wfFrom low m = true) {a : Nat} (hlow : low ≤ a)
    (ha : a < 65536) (v : Byte) : wfFrom low (write m a v) = true := by
  induction m generalizing low with
  | nil => unfold write; split <;> simp_all [wfFrom]
  | cons c m ih =>
    obtain ⟨k, w⟩ := c
    have hcons := h
    simp only [wfFrom, Bool.and_eq_true, decide_eq_true_eq] at h
    obtain ⟨⟨⟨hk, hk2⟩, hw⟩, hm⟩ := h
    unfold write
    split
    · rename_i hlt
      split
      · exact hcons
      · rename_i hv
        have hak : a + 1 ≤ k := hlt
        simp [wfFrom, hlow, ha, hv, hak, hk2, hw, hm]
    · split
      · rename_i heq
        subst heq
        split
        · cases m with
          | nil => rfl
          | cons c m =>
            obtain ⟨k', w'⟩ := c
            simp only [wfFrom, Bool.and_eq_true, decide_eq_true_eq] at hm ⊢
            obtain ⟨⟨⟨h1, h2⟩, h3⟩, h4⟩ := hm
            exact ⟨⟨⟨by omega, h2⟩, h3⟩, h4⟩
        · rename_i hv
          simp [wfFrom, hlow, ha, hv, hm]
      · rename_i hlt hne
        have hka : k + 1 ≤ a := by omega
        simp [wfFrom, hk, hk2, hw, ih hm hka]

/-- Every write keeps the canonical form of memory. -/
theorem wf_write {m : Memory} (h : wf m = true) (a : Addr) (v : Byte) : wf (write m a.toNat v) = true :=
  wfFrom_write h (Nat.zero_le _) a.isLt v

/-- A read after a write to canonical memory. -/
theorem read_write {m : Memory} (h : wf m = true) (a b : Addr) (v : Byte) :
    read (write m a.toNat v) b.toNat = if b = a then v else read m b.toNat := by
  by_cases hab : b = a
  · subst hab
    simp [read_write_same h]
  · have : b.toNat ≠ a.toNat := fun he => hab (BitVec.eq_of_toNat_eq he)
    simp [hab, read_write_other m v this]

end Sys2Proof.Machine.Memory
end

