-- ==== Sys2Proof/Laws/State.lean ====
section
/-! SUPPORT. One lemma per field per named update of State, and the reads of memory and of the bus map through them. -/

namespace Sys2Proof.Machine.State

variable (s : State)

@[simp] theorem setA_a (v : Byte) : (s.setA v).a = v := rfl
@[simp] theorem setA_x (v : Byte) : (s.setA v).x = s.x := rfl
@[simp] theorem setA_y (v : Byte) : (s.setA v).y = s.y := rfl
@[simp] theorem setA_sp (v : Byte) : (s.setA v).sp = s.sp := rfl
@[simp] theorem setA_pc (v : Byte) : (s.setA v).pc = s.pc := rfl
@[simp] theorem setA_p (v : Byte) : (s.setA v).p = s.p := rfl
@[simp] theorem setA_cycles (v : Byte) : (s.setA v).cycles = s.cycles := rfl
@[simp] theorem setA_run (v : Byte) : (s.setA v).run = s.run := rfl
@[simp] theorem setA_nmiPending (v : Byte) : (s.setA v).nmiPending = s.nmiPending := rfl
@[simp] theorem setA_irqLine (v : Byte) : (s.setA v).irqLine = s.irqLine := rfl
@[simp] theorem setA_mem (v : Byte) : (s.setA v).mem = s.mem := rfl
@[simp] theorem setA_busMap (v : Byte) : (s.setA v).busMap = s.busMap := rfl
@[simp] theorem setA_busLog (v : Byte) : (s.setA v).busLog = s.busLog := rfl
@[simp] theorem setA_params (v : Byte) : (s.setA v).params = s.params := rfl
@[simp] theorem setA_freeIndex (v : Byte) : (s.setA v).freeIndex = s.freeIndex := rfl
@[simp] theorem setA_peek (v : Byte) (a : Addr) : (s.setA v).peek a = s.peek a := rfl
@[simp] theorem setA_isMemory (v : Byte) (a : Addr) : (s.setA v).isMemory a = s.isMemory a := rfl
@[simp] theorem setA_isRam (v : Byte) (a : Addr) : (s.setA v).isRam a = s.isRam a := rfl

@[simp] theorem setX_a (v : Byte) : (s.setX v).a = s.a := rfl
@[simp] theorem setX_x (v : Byte) : (s.setX v).x = v := rfl
@[simp] theorem setX_y (v : Byte) : (s.setX v).y = s.y := rfl
@[simp] theorem setX_sp (v : Byte) : (s.setX v).sp = s.sp := rfl
@[simp] theorem setX_pc (v : Byte) : (s.setX v).pc = s.pc := rfl
@[simp] theorem setX_p (v : Byte) : (s.setX v).p = s.p := rfl
@[simp] theorem setX_cycles (v : Byte) : (s.setX v).cycles = s.cycles := rfl
@[simp] theorem setX_run (v : Byte) : (s.setX v).run = s.run := rfl
@[simp] theorem setX_nmiPending (v : Byte) : (s.setX v).nmiPending = s.nmiPending := rfl
@[simp] theorem setX_irqLine (v : Byte) : (s.setX v).irqLine = s.irqLine := rfl
@[simp] theorem setX_mem (v : Byte) : (s.setX v).mem = s.mem := rfl
@[simp] theorem setX_busMap (v : Byte) : (s.setX v).busMap = s.busMap := rfl
@[simp] theorem setX_busLog (v : Byte) : (s.setX v).busLog = s.busLog := rfl
@[simp] theorem setX_params (v : Byte) : (s.setX v).params = s.params := rfl
@[simp] theorem setX_freeIndex (v : Byte) : (s.setX v).freeIndex = s.freeIndex := rfl
@[simp] theorem setX_peek (v : Byte) (a : Addr) : (s.setX v).peek a = s.peek a := rfl
@[simp] theorem setX_isMemory (v : Byte) (a : Addr) : (s.setX v).isMemory a = s.isMemory a := rfl
@[simp] theorem setX_isRam (v : Byte) (a : Addr) : (s.setX v).isRam a = s.isRam a := rfl

@[simp] theorem setY_a (v : Byte) : (s.setY v).a = s.a := rfl
@[simp] theorem setY_x (v : Byte) : (s.setY v).x = s.x := rfl
@[simp] theorem setY_y (v : Byte) : (s.setY v).y = v := rfl
@[simp] theorem setY_sp (v : Byte) : (s.setY v).sp = s.sp := rfl
@[simp] theorem setY_pc (v : Byte) : (s.setY v).pc = s.pc := rfl
@[simp] theorem setY_p (v : Byte) : (s.setY v).p = s.p := rfl
@[simp] theorem setY_cycles (v : Byte) : (s.setY v).cycles = s.cycles := rfl
@[simp] theorem setY_run (v : Byte) : (s.setY v).run = s.run := rfl
@[simp] theorem setY_nmiPending (v : Byte) : (s.setY v).nmiPending = s.nmiPending := rfl
@[simp] theorem setY_irqLine (v : Byte) : (s.setY v).irqLine = s.irqLine := rfl
@[simp] theorem setY_mem (v : Byte) : (s.setY v).mem = s.mem := rfl
@[simp] theorem setY_busMap (v : Byte) : (s.setY v).busMap = s.busMap := rfl
@[simp] theorem setY_busLog (v : Byte) : (s.setY v).busLog = s.busLog := rfl
@[simp] theorem setY_params (v : Byte) : (s.setY v).params = s.params := rfl
@[simp] theorem setY_freeIndex (v : Byte) : (s.setY v).freeIndex = s.freeIndex := rfl
@[simp] theorem setY_peek (v : Byte) (a : Addr) : (s.setY v).peek a = s.peek a := rfl
@[simp] theorem setY_isMemory (v : Byte) (a : Addr) : (s.setY v).isMemory a = s.isMemory a := rfl
@[simp] theorem setY_isRam (v : Byte) (a : Addr) : (s.setY v).isRam a = s.isRam a := rfl

@[simp] theorem setSp_a (v : Byte) : (s.setSp v).a = s.a := rfl
@[simp] theorem setSp_x (v : Byte) : (s.setSp v).x = s.x := rfl
@[simp] theorem setSp_y (v : Byte) : (s.setSp v).y = s.y := rfl
@[simp] theorem setSp_sp (v : Byte) : (s.setSp v).sp = v := rfl
@[simp] theorem setSp_pc (v : Byte) : (s.setSp v).pc = s.pc := rfl
@[simp] theorem setSp_p (v : Byte) : (s.setSp v).p = s.p := rfl
@[simp] theorem setSp_cycles (v : Byte) : (s.setSp v).cycles = s.cycles := rfl
@[simp] theorem setSp_run (v : Byte) : (s.setSp v).run = s.run := rfl
@[simp] theorem setSp_nmiPending (v : Byte) : (s.setSp v).nmiPending = s.nmiPending := rfl
@[simp] theorem setSp_irqLine (v : Byte) : (s.setSp v).irqLine = s.irqLine := rfl
@[simp] theorem setSp_mem (v : Byte) : (s.setSp v).mem = s.mem := rfl
@[simp] theorem setSp_busMap (v : Byte) : (s.setSp v).busMap = s.busMap := rfl
@[simp] theorem setSp_busLog (v : Byte) : (s.setSp v).busLog = s.busLog := rfl
@[simp] theorem setSp_params (v : Byte) : (s.setSp v).params = s.params := rfl
@[simp] theorem setSp_freeIndex (v : Byte) : (s.setSp v).freeIndex = s.freeIndex := rfl
@[simp] theorem setSp_peek (v : Byte) (a : Addr) : (s.setSp v).peek a = s.peek a := rfl
@[simp] theorem setSp_isMemory (v : Byte) (a : Addr) : (s.setSp v).isMemory a = s.isMemory a := rfl
@[simp] theorem setSp_isRam (v : Byte) (a : Addr) : (s.setSp v).isRam a = s.isRam a := rfl

@[simp] theorem setPc_a (v : Addr) : (s.setPc v).a = s.a := rfl
@[simp] theorem setPc_x (v : Addr) : (s.setPc v).x = s.x := rfl
@[simp] theorem setPc_y (v : Addr) : (s.setPc v).y = s.y := rfl
@[simp] theorem setPc_sp (v : Addr) : (s.setPc v).sp = s.sp := rfl
@[simp] theorem setPc_pc (v : Addr) : (s.setPc v).pc = v := rfl
@[simp] theorem setPc_p (v : Addr) : (s.setPc v).p = s.p := rfl
@[simp] theorem setPc_cycles (v : Addr) : (s.setPc v).cycles = s.cycles := rfl
@[simp] theorem setPc_run (v : Addr) : (s.setPc v).run = s.run := rfl
@[simp] theorem setPc_nmiPending (v : Addr) : (s.setPc v).nmiPending = s.nmiPending := rfl
@[simp] theorem setPc_irqLine (v : Addr) : (s.setPc v).irqLine = s.irqLine := rfl
@[simp] theorem setPc_mem (v : Addr) : (s.setPc v).mem = s.mem := rfl
@[simp] theorem setPc_busMap (v : Addr) : (s.setPc v).busMap = s.busMap := rfl
@[simp] theorem setPc_busLog (v : Addr) : (s.setPc v).busLog = s.busLog := rfl
@[simp] theorem setPc_params (v : Addr) : (s.setPc v).params = s.params := rfl
@[simp] theorem setPc_freeIndex (v : Addr) : (s.setPc v).freeIndex = s.freeIndex := rfl
@[simp] theorem setPc_peek (v : Addr) (a : Addr) : (s.setPc v).peek a = s.peek a := rfl
@[simp] theorem setPc_isMemory (v : Addr) (a : Addr) : (s.setPc v).isMemory a = s.isMemory a := rfl
@[simp] theorem setPc_isRam (v : Addr) (a : Addr) : (s.setPc v).isRam a = s.isRam a := rfl

@[simp] theorem setP_a (v : Byte) : (s.setP v).a = s.a := rfl
@[simp] theorem setP_x (v : Byte) : (s.setP v).x = s.x := rfl
@[simp] theorem setP_y (v : Byte) : (s.setP v).y = s.y := rfl
@[simp] theorem setP_sp (v : Byte) : (s.setP v).sp = s.sp := rfl
@[simp] theorem setP_pc (v : Byte) : (s.setP v).pc = s.pc := rfl
@[simp] theorem setP_p (v : Byte) : (s.setP v).p = v := rfl
@[simp] theorem setP_cycles (v : Byte) : (s.setP v).cycles = s.cycles := rfl
@[simp] theorem setP_run (v : Byte) : (s.setP v).run = s.run := rfl
@[simp] theorem setP_nmiPending (v : Byte) : (s.setP v).nmiPending = s.nmiPending := rfl
@[simp] theorem setP_irqLine (v : Byte) : (s.setP v).irqLine = s.irqLine := rfl
@[simp] theorem setP_mem (v : Byte) : (s.setP v).mem = s.mem := rfl
@[simp] theorem setP_busMap (v : Byte) : (s.setP v).busMap = s.busMap := rfl
@[simp] theorem setP_busLog (v : Byte) : (s.setP v).busLog = s.busLog := rfl
@[simp] theorem setP_params (v : Byte) : (s.setP v).params = s.params := rfl
@[simp] theorem setP_freeIndex (v : Byte) : (s.setP v).freeIndex = s.freeIndex := rfl
@[simp] theorem setP_peek (v : Byte) (a : Addr) : (s.setP v).peek a = s.peek a := rfl
@[simp] theorem setP_isMemory (v : Byte) (a : Addr) : (s.setP v).isMemory a = s.isMemory a := rfl
@[simp] theorem setP_isRam (v : Byte) (a : Addr) : (s.setP v).isRam a = s.isRam a := rfl

@[simp] theorem addCycles_a (n : Nat) : (s.addCycles n).a = s.a := rfl
@[simp] theorem addCycles_x (n : Nat) : (s.addCycles n).x = s.x := rfl
@[simp] theorem addCycles_y (n : Nat) : (s.addCycles n).y = s.y := rfl
@[simp] theorem addCycles_sp (n : Nat) : (s.addCycles n).sp = s.sp := rfl
@[simp] theorem addCycles_pc (n : Nat) : (s.addCycles n).pc = s.pc := rfl
@[simp] theorem addCycles_p (n : Nat) : (s.addCycles n).p = s.p := rfl
@[simp] theorem addCycles_cycles (n : Nat) : (s.addCycles n).cycles = s.cycles + n := rfl
@[simp] theorem addCycles_run (n : Nat) : (s.addCycles n).run = s.run := rfl
@[simp] theorem addCycles_nmiPending (n : Nat) : (s.addCycles n).nmiPending = s.nmiPending := rfl
@[simp] theorem addCycles_irqLine (n : Nat) : (s.addCycles n).irqLine = s.irqLine := rfl
@[simp] theorem addCycles_mem (n : Nat) : (s.addCycles n).mem = s.mem := rfl
@[simp] theorem addCycles_busMap (n : Nat) : (s.addCycles n).busMap = s.busMap := rfl
@[simp] theorem addCycles_busLog (n : Nat) : (s.addCycles n).busLog = s.busLog := rfl
@[simp] theorem addCycles_params (n : Nat) : (s.addCycles n).params = s.params := rfl
@[simp] theorem addCycles_freeIndex (n : Nat) : (s.addCycles n).freeIndex = s.freeIndex := rfl
@[simp] theorem addCycles_peek (n : Nat) (a : Addr) : (s.addCycles n).peek a = s.peek a := rfl
@[simp] theorem addCycles_isMemory (n : Nat) (a : Addr) : (s.addCycles n).isMemory a = s.isMemory a := rfl
@[simp] theorem addCycles_isRam (n : Nat) (a : Addr) : (s.addCycles n).isRam a = s.isRam a := rfl

@[simp] theorem setRun_a (r : RunState) : (s.setRun r).a = s.a := rfl
@[simp] theorem setRun_x (r : RunState) : (s.setRun r).x = s.x := rfl
@[simp] theorem setRun_y (r : RunState) : (s.setRun r).y = s.y := rfl
@[simp] theorem setRun_sp (r : RunState) : (s.setRun r).sp = s.sp := rfl
@[simp] theorem setRun_pc (r : RunState) : (s.setRun r).pc = s.pc := rfl
@[simp] theorem setRun_p (r : RunState) : (s.setRun r).p = s.p := rfl
@[simp] theorem setRun_cycles (r : RunState) : (s.setRun r).cycles = s.cycles := rfl
@[simp] theorem setRun_run (r : RunState) : (s.setRun r).run = r := rfl
@[simp] theorem setRun_nmiPending (r : RunState) : (s.setRun r).nmiPending = s.nmiPending := rfl
@[simp] theorem setRun_irqLine (r : RunState) : (s.setRun r).irqLine = s.irqLine := rfl
@[simp] theorem setRun_mem (r : RunState) : (s.setRun r).mem = s.mem := rfl
@[simp] theorem setRun_busMap (r : RunState) : (s.setRun r).busMap = s.busMap := rfl
@[simp] theorem setRun_busLog (r : RunState) : (s.setRun r).busLog = s.busLog := rfl
@[simp] theorem setRun_params (r : RunState) : (s.setRun r).params = s.params := rfl
@[simp] theorem setRun_freeIndex (r : RunState) : (s.setRun r).freeIndex = s.freeIndex := rfl
@[simp] theorem setRun_peek (r : RunState) (a : Addr) : (s.setRun r).peek a = s.peek a := rfl
@[simp] theorem setRun_isMemory (r : RunState) (a : Addr) : (s.setRun r).isMemory a = s.isMemory a := rfl
@[simp] theorem setRun_isRam (r : RunState) (a : Addr) : (s.setRun r).isRam a = s.isRam a := rfl

@[simp] theorem setNmiPending_a (b : Bool) : (s.setNmiPending b).a = s.a := rfl
@[simp] theorem setNmiPending_x (b : Bool) : (s.setNmiPending b).x = s.x := rfl
@[simp] theorem setNmiPending_y (b : Bool) : (s.setNmiPending b).y = s.y := rfl
@[simp] theorem setNmiPending_sp (b : Bool) : (s.setNmiPending b).sp = s.sp := rfl
@[simp] theorem setNmiPending_pc (b : Bool) : (s.setNmiPending b).pc = s.pc := rfl
@[simp] theorem setNmiPending_p (b : Bool) : (s.setNmiPending b).p = s.p := rfl
@[simp] theorem setNmiPending_cycles (b : Bool) : (s.setNmiPending b).cycles = s.cycles := rfl
@[simp] theorem setNmiPending_run (b : Bool) : (s.setNmiPending b).run = s.run := rfl
@[simp] theorem setNmiPending_nmiPending (b : Bool) : (s.setNmiPending b).nmiPending = b := rfl
@[simp] theorem setNmiPending_irqLine (b : Bool) : (s.setNmiPending b).irqLine = s.irqLine := rfl
@[simp] theorem setNmiPending_mem (b : Bool) : (s.setNmiPending b).mem = s.mem := rfl
@[simp] theorem setNmiPending_busMap (b : Bool) : (s.setNmiPending b).busMap = s.busMap := rfl
@[simp] theorem setNmiPending_busLog (b : Bool) : (s.setNmiPending b).busLog = s.busLog := rfl
@[simp] theorem setNmiPending_params (b : Bool) : (s.setNmiPending b).params = s.params := rfl
@[simp] theorem setNmiPending_freeIndex (b : Bool) : (s.setNmiPending b).freeIndex = s.freeIndex := rfl
@[simp] theorem setNmiPending_peek (b : Bool) (a : Addr) : (s.setNmiPending b).peek a = s.peek a := rfl
@[simp] theorem setNmiPending_isMemory (b : Bool) (a : Addr) : (s.setNmiPending b).isMemory a = s.isMemory a := rfl
@[simp] theorem setNmiPending_isRam (b : Bool) (a : Addr) : (s.setNmiPending b).isRam a = s.isRam a := rfl

@[simp] theorem setIrqLine_a (b : Bool) : (s.setIrqLine b).a = s.a := rfl
@[simp] theorem setIrqLine_x (b : Bool) : (s.setIrqLine b).x = s.x := rfl
@[simp] theorem setIrqLine_y (b : Bool) : (s.setIrqLine b).y = s.y := rfl
@[simp] theorem setIrqLine_sp (b : Bool) : (s.setIrqLine b).sp = s.sp := rfl
@[simp] theorem setIrqLine_pc (b : Bool) : (s.setIrqLine b).pc = s.pc := rfl
@[simp] theorem setIrqLine_p (b : Bool) : (s.setIrqLine b).p = s.p := rfl
@[simp] theorem setIrqLine_cycles (b : Bool) : (s.setIrqLine b).cycles = s.cycles := rfl
@[simp] theorem setIrqLine_run (b : Bool) : (s.setIrqLine b).run = s.run := rfl
@[simp] theorem setIrqLine_nmiPending (b : Bool) : (s.setIrqLine b).nmiPending = s.nmiPending := rfl
@[simp] theorem setIrqLine_irqLine (b : Bool) : (s.setIrqLine b).irqLine = b := rfl
@[simp] theorem setIrqLine_mem (b : Bool) : (s.setIrqLine b).mem = s.mem := rfl
@[simp] theorem setIrqLine_busMap (b : Bool) : (s.setIrqLine b).busMap = s.busMap := rfl
@[simp] theorem setIrqLine_busLog (b : Bool) : (s.setIrqLine b).busLog = s.busLog := rfl
@[simp] theorem setIrqLine_params (b : Bool) : (s.setIrqLine b).params = s.params := rfl
@[simp] theorem setIrqLine_freeIndex (b : Bool) : (s.setIrqLine b).freeIndex = s.freeIndex := rfl
@[simp] theorem setIrqLine_peek (b : Bool) (a : Addr) : (s.setIrqLine b).peek a = s.peek a := rfl
@[simp] theorem setIrqLine_isMemory (b : Bool) (a : Addr) : (s.setIrqLine b).isMemory a = s.isMemory a := rfl
@[simp] theorem setIrqLine_isRam (b : Bool) (a : Addr) : (s.setIrqLine b).isRam a = s.isRam a := rfl

@[simp] theorem setMem_a (m : Memory) : (s.setMem m).a = s.a := rfl
@[simp] theorem setMem_x (m : Memory) : (s.setMem m).x = s.x := rfl
@[simp] theorem setMem_y (m : Memory) : (s.setMem m).y = s.y := rfl
@[simp] theorem setMem_sp (m : Memory) : (s.setMem m).sp = s.sp := rfl
@[simp] theorem setMem_pc (m : Memory) : (s.setMem m).pc = s.pc := rfl
@[simp] theorem setMem_p (m : Memory) : (s.setMem m).p = s.p := rfl
@[simp] theorem setMem_cycles (m : Memory) : (s.setMem m).cycles = s.cycles := rfl
@[simp] theorem setMem_run (m : Memory) : (s.setMem m).run = s.run := rfl
@[simp] theorem setMem_nmiPending (m : Memory) : (s.setMem m).nmiPending = s.nmiPending := rfl
@[simp] theorem setMem_irqLine (m : Memory) : (s.setMem m).irqLine = s.irqLine := rfl
@[simp] theorem setMem_mem (m : Memory) : (s.setMem m).mem = m := rfl
@[simp] theorem setMem_busMap (m : Memory) : (s.setMem m).busMap = s.busMap := rfl
@[simp] theorem setMem_busLog (m : Memory) : (s.setMem m).busLog = s.busLog := rfl
@[simp] theorem setMem_params (m : Memory) : (s.setMem m).params = s.params := rfl
@[simp] theorem setMem_freeIndex (m : Memory) : (s.setMem m).freeIndex = s.freeIndex := rfl
@[simp] theorem setMem_isMemory (m : Memory) (a : Addr) : (s.setMem m).isMemory a = s.isMemory a := rfl
@[simp] theorem setMem_isRam (m : Memory) (a : Addr) : (s.setMem m).isRam a = s.isRam a := rfl

@[simp] theorem log_a (e : BusAccess) : (s.log e).a = s.a := rfl
@[simp] theorem log_x (e : BusAccess) : (s.log e).x = s.x := rfl
@[simp] theorem log_y (e : BusAccess) : (s.log e).y = s.y := rfl
@[simp] theorem log_sp (e : BusAccess) : (s.log e).sp = s.sp := rfl
@[simp] theorem log_pc (e : BusAccess) : (s.log e).pc = s.pc := rfl
@[simp] theorem log_p (e : BusAccess) : (s.log e).p = s.p := rfl
@[simp] theorem log_cycles (e : BusAccess) : (s.log e).cycles = s.cycles := rfl
@[simp] theorem log_run (e : BusAccess) : (s.log e).run = s.run := rfl
@[simp] theorem log_nmiPending (e : BusAccess) : (s.log e).nmiPending = s.nmiPending := rfl
@[simp] theorem log_irqLine (e : BusAccess) : (s.log e).irqLine = s.irqLine := rfl
@[simp] theorem log_mem (e : BusAccess) : (s.log e).mem = s.mem := rfl
@[simp] theorem log_busMap (e : BusAccess) : (s.log e).busMap = s.busMap := rfl
@[simp] theorem log_busLog (e : BusAccess) : (s.log e).busLog = e :: s.busLog := rfl
@[simp] theorem log_params (e : BusAccess) : (s.log e).params = s.params := rfl
@[simp] theorem log_freeIndex (e : BusAccess) : (s.log e).freeIndex = s.freeIndex := rfl
@[simp] theorem log_peek (e : BusAccess) (a : Addr) : (s.log e).peek a = s.peek a := rfl
@[simp] theorem log_isMemory (e : BusAccess) (a : Addr) : (s.log e).isMemory a = s.isMemory a := rfl
@[simp] theorem log_isRam (e : BusAccess) (a : Addr) : (s.log e).isRam a = s.isRam a := rfl

@[simp] theorem setFreeIndex_a (n : Nat) : (s.setFreeIndex n).a = s.a := rfl
@[simp] theorem setFreeIndex_x (n : Nat) : (s.setFreeIndex n).x = s.x := rfl
@[simp] theorem setFreeIndex_y (n : Nat) : (s.setFreeIndex n).y = s.y := rfl
@[simp] theorem setFreeIndex_sp (n : Nat) : (s.setFreeIndex n).sp = s.sp := rfl
@[simp] theorem setFreeIndex_pc (n : Nat) : (s.setFreeIndex n).pc = s.pc := rfl
@[simp] theorem setFreeIndex_p (n : Nat) : (s.setFreeIndex n).p = s.p := rfl
@[simp] theorem setFreeIndex_cycles (n : Nat) : (s.setFreeIndex n).cycles = s.cycles := rfl
@[simp] theorem setFreeIndex_run (n : Nat) : (s.setFreeIndex n).run = s.run := rfl
@[simp] theorem setFreeIndex_nmiPending (n : Nat) : (s.setFreeIndex n).nmiPending = s.nmiPending := rfl
@[simp] theorem setFreeIndex_irqLine (n : Nat) : (s.setFreeIndex n).irqLine = s.irqLine := rfl
@[simp] theorem setFreeIndex_mem (n : Nat) : (s.setFreeIndex n).mem = s.mem := rfl
@[simp] theorem setFreeIndex_busMap (n : Nat) : (s.setFreeIndex n).busMap = s.busMap := rfl
@[simp] theorem setFreeIndex_busLog (n : Nat) : (s.setFreeIndex n).busLog = s.busLog := rfl
@[simp] theorem setFreeIndex_params (n : Nat) : (s.setFreeIndex n).params = s.params := rfl
@[simp] theorem setFreeIndex_freeIndex (n : Nat) : (s.setFreeIndex n).freeIndex = n := rfl
@[simp] theorem setFreeIndex_peek (n : Nat) (a : Addr) : (s.setFreeIndex n).peek a = s.peek a := rfl
@[simp] theorem setFreeIndex_isMemory (n : Nat) (a : Addr) : (s.setFreeIndex n).isMemory a = s.isMemory a := rfl
@[simp] theorem setFreeIndex_isRam (n : Nat) (a : Addr) : (s.setFreeIndex n).isRam a = s.isRam a := rfl

/-- The byte at an address after the memory is replaced. -/
@[simp] theorem setMem_peek (m : Memory) (a : Addr) : (s.setMem m).peek a = Memory.read m a.toNat := rfl

end Sys2Proof.Machine.State
end

