-- ==== Sys2Proof/Laws/Bus.lean ====
section
/-! SUPPORT. Sequencing of statements, what a bus access and a stack operation can do, and the reads of the resolver on
memory. -/

namespace Sys2Proof.Machine

/-! ## Sequencing -/

/-- A property of the state a computation ends in, whether it is done or a fault was raised. -/
def Result.All {α : Type} (P : State → Prop) : Result α → Prop
  | .done _ s => P s
  | .raised _ s => P s

@[simp] theorem Result.bind_done {α β : Type} (v : α) (s : State) (k : α → State → Result β) :
    (Result.done v s).bind k = k v s := rfl
@[simp] theorem Result.bind_raised {α β : Type} (f : Fault) (s : State) (k : α → State → Result β) :
    (Result.raised f s).bind k = .raised f s := rfl
@[simp] theorem Result.all_done {α : Type} (P : State → Prop) (v : α) (s : State) :
    (Result.done v s).All P ↔ P s := Iff.rfl
@[simp] theorem Result.all_raised {α : Type} (P : State → Prop) (f : Fault) (s : State) :
    (Result.raised f s : Result α).All P ↔ P s := Iff.rfl
@[simp] theorem Result.toOutcome_done {α : Type} (v : α) (s : State) : (Result.done v s).toOutcome = .next s := rfl
@[simp] theorem Result.toOutcome_raised {α : Type} (f : Fault) (s : State) :
    (Result.raised f s : Result α).toOutcome = .next s := rfl

/-- What holds of every end of the first part, and is kept by the second part, holds of every end of both. -/
theorem Result.All.bind {α β : Type} {P : State → Prop} {r : Result α} {k : α → State → Result β}
    (hr : r.All P) (hk : ∀ v s, P s → (k v s).All P) : (r.bind k).All P := by
  cases r with
  | done v s => exact hk v s hr
  | raised f s => exact hr

/-- A transition's next state has the property of every end of its computation. -/
theorem Result.All.of_next {α : Type} {P : State → Prop} {r : Result α} {t : State}
    (hr : r.All P) (ht : r.toOutcome = .next t) : P t := by
  cases r <;> · cases ht; exact hr

theorem Result.All.mono {α : Type} {P Q : State → Prop} {r : Result α} (hr : r.All P) (h : ∀ s, P s → Q s) :
    r.All Q := by
  cases r <;> exact h _ hr

/-- A computation ends in some next state. -/
theorem Result.toOutcome_next {α : Type} (r : Result α) : ∃ t : State, r.toOutcome = .next t := by
  cases r <;> exact ⟨_, rfl⟩

/-- A sequence that is done was done in both parts. -/
theorem Result.bind_eq_done {α β : Type} {r : Result α} {k : α → State → Result β} {b : β} {t : State} :
    r.bind k = .done b t ↔ ∃ a s, r = .done a s ∧ k a s = .done b t := by
  cases r <;> simp

/-! ## Single accesses -/

/-- Memory answers a read with its byte. -/
theorem busRead_memory {a : Addr} {s : State} (h : s.isMemory a = true) :
    busRead a s = .done (s.peek a) (s.log ⟨.read, a, s.peek a⟩) := by
  rcases (by simpa [State.isMemory] using h : backingOf s.busMap a = some .ram ∨ backingOf s.busMap a = some .rom)
    with h | h <;> simp [busRead, h]

/-- An unmapped read raises a fault with its own address. -/
theorem busRead_unmapped {a : Addr} {s : State} (h : backingOf s.busMap a = none) :
    busRead a s = .raised (.unmappedAddress a) (s.setRun (.faulted (.unmappedAddress a))) := by
  simp [busRead, raise, h]

/-- Everything a read can do: log one access, or raise a fault with its own address. -/
theorem busRead_cases (a : Addr) (s : State) :
    (∃ v, busRead a s = .done v (s.log ⟨.read, a, v⟩)) ∨
    busRead a s = .raised (.unmappedAddress a) (s.setRun (.faulted (.unmappedAddress a))) := by
  unfold busRead
  split
  · exact .inl ⟨_, rfl⟩
  · exact .inl ⟨_, rfl⟩
  · split
    · exact .inl ⟨_, rfl⟩
    · exact .inr rfl
  · exact .inr rfl

/-- An unmapped write raises a fault with its own address. -/
theorem busWrite_unmapped {a : Addr} {v : Byte} {s : State} (h : backingOf s.busMap a = none) :
    busWrite a v s = .raised (.unmappedAddress a) (s.setRun (.faulted (.unmappedAddress a))) := by
  simp [busWrite, raise, h]

/-- Everything a write can do: store in RAM and log, only log (ROM, a device), or raise a fault with its own address. -/
theorem busWrite_cases (a : Addr) (v : Byte) (s : State) :
    (s.isRam a = true ∧ busWrite a v s = .done () ((s.setMem (Memory.write s.mem a.toNat v)).log ⟨.write, a, v⟩)) ∨
    (s.isRam a = false ∧ busWrite a v s = .done () (s.log ⟨.write, a, v⟩)) ∨
    (s.isRam a = false ∧
      busWrite a v s = .raised (.unmappedAddress a) (s.setRun (.faulted (.unmappedAddress a)))) := by
  unfold busWrite
  split
  · rename_i h; exact .inl ⟨by simp [State.isRam, h], rfl⟩
  · rename_i h; exact .inr (.inl ⟨by simp [State.isRam, h], rfl⟩)
  · rename_i h
    split
    · exact .inr (.inl ⟨by simp [State.isRam, h], rfl⟩)
    · exact .inr (.inr ⟨by simp [State.isRam, h], rfl⟩)
  · rename_i h; exact .inr (.inr ⟨by simp [State.isRam, h], rfl⟩)

/-- Memory contents after a write that memory answers: RAM stores it, ROM does not. -/
def memAfterWrite (a : Addr) (v : Byte) (s : State) : Memory :=
  if s.isRam a = true then Memory.write s.mem a.toNat v else s.mem

/-- Memory accepts a write. -/
theorem busWrite_memory {a : Addr} {v : Byte} {s : State} (h : s.isMemory a = true) :
    busWrite a v s = .done () ((s.setMem (memAfterWrite a v s)).log ⟨.write, a, v⟩) := by
  rcases (by simpa [State.isMemory] using h : backingOf s.busMap a = some .ram ∨ backingOf s.busMap a = some .rom)
    with h | h
  · simp [busWrite, memAfterWrite, State.isRam, h]
  · simp [busWrite, memAfterWrite, State.isRam, h, State.setMem]

theorem wf_memAfterWrite {a : Addr} {v : Byte} {s : State} (h : Memory.wf s.mem = true) :
    Memory.wf (memAfterWrite a v s) = true := by
  unfold memAfterWrite; split
  · exact Memory.wf_write h a v
  · exact h

theorem read_memAfterWrite {a b : Addr} {v : Byte} {s : State} (h : Memory.wf s.mem = true) :
    Memory.read (memAfterWrite a v s) b.toNat = if b = a ∧ s.isRam a = true then v else s.peek b := by
  unfold memAfterWrite
  by_cases hr : s.isRam a = true
  · simp [hr, Memory.read_write h, State.peek]
  · simp [hr, State.peek]

/-- Stores of bytes one after another. -/
theorem MemoryAfter.nil (s : State) : MemoryAfter s [] s.mem := fun _ => rfl

theorem MemoryAfter.cons {s t : State} {stores : List (Addr × Byte)} {a : Addr} {v : Byte}
    (h : MemoryAfter s stores t.mem) (hmap : t.busMap = s.busMap) (hwf : Memory.wf t.mem = true) :
    MemoryAfter s ((a, v) :: stores) (memAfterWrite a v t) := by
  intro b
  have hram : t.isRam a = s.isRam a := by simp [State.isRam, hmap]
  rw [read_memAfterWrite hwf, hram]
  simp only [storedByte, State.peek, h b]

/-! ## What every access keeps -/

/-- A property that a logged access and a raised fault keep is kept by a read. -/
theorem busRead_all {P : State → Prop} (hlog : ∀ acc s, P s → P (s.log acc))
    (hrun : ∀ f s, P s → P (s.setRun (.faulted f))) (a : Addr) {s : State} (h : P s) : (busRead a s).All P := by
  rcases busRead_cases a s with ⟨v, e⟩ | e <;> rw [e]
  · exact hlog _ _ h
  · exact hrun _ _ h

/-- A property that a store in RAM, a logged access and a raised fault keep is kept by a write. -/
theorem busWrite_all {P : State → Prop} (hlog : ∀ acc s, P s → P (s.log acc))
    (hrun : ∀ f s, P s → P (s.setRun (.faulted f))) (a : Addr) (v : Byte) {s : State}
    (hmem : s.isRam a = true → P (s.setMem (Memory.write s.mem a.toNat v))) (h : P s) : (busWrite a v s).All P := by
  rcases busWrite_cases a v s with ⟨hr, e⟩ | ⟨-, e⟩ | ⟨-, e⟩ <;> rw [e]
  · exact hlog _ _ (hmem hr)
  · exact hlog _ _ h
  · exact hrun _ _ h

theorem memRead16_all {P : State → Prop} (hlog : ∀ acc s, P s → P (s.log acc))
    (hrun : ∀ f s, P s → P (s.setRun (.faulted f))) (a : Addr) {s : State} (h : P s) : (memRead16 a s).All P :=
  (busRead_all hlog hrun a h).bind fun _ _ h => (busRead_all hlog hrun _ h).bind fun _ _ h => h

theorem memReadWrap_all {P : State → Prop} (hlog : ∀ acc s, P s → P (s.log acc))
    (hrun : ∀ f s, P s → P (s.setRun (.faulted f))) (a : Addr) {s : State} (h : P s) : (memReadWrap a s).All P :=
  (busRead_all hlog hrun a h).bind fun _ _ h => (busRead_all hlog hrun _ h).bind fun _ _ h => h

/-! ## 16-bit reads and the stack on memory -/

theorem memRead16_memory {a : Addr} {s : State} (h : s.isMemory a = true) (h' : s.isMemory (a + 1) = true) :
    memRead16 a s = .done (word16 (s.peek (a + 1)) (s.peek a))
      ((s.log ⟨.read, a, s.peek a⟩).log ⟨.read, a + 1, s.peek (a + 1)⟩) := by
  have h'' : (s.log ⟨.read, a, s.peek a⟩).isMemory (a + 1) = true := h'
  simp only [memRead16, busRead_memory h, Result.bind_done, busRead_memory h'', State.log_peek]

theorem memReadWrap_memory {a : Addr} {s : State} (h : s.isMemory a = true)
    (h' : s.isMemory (nextInPage a) = true) :
    memReadWrap a s = .done (peekPointer a s)
      ((s.log ⟨.read, a, s.peek a⟩).log ⟨.read, nextInPage a, s.peek (nextInPage a)⟩) := by
  have h'' : (s.log ⟨.read, a, s.peek a⟩).isMemory (nextInPage a) = true := h'
  simp only [memReadWrap, busRead_memory h, Result.bind_done, busRead_memory h'', State.log_peek, peekPointer]

theorem push_memory {v : Byte} {s : State} (h : s.isMemory (stackAddr s.sp) = true) :
    push v s = .done () (((s.setMem (memAfterWrite (stackAddr s.sp) v s)).log
      ⟨.write, stackAddr s.sp, v⟩).setSp (s.sp - 1)) := by
  simp only [push, busWrite_memory h, Result.bind_done, State.log_sp, State.setMem_sp]

theorem pull_memory {s : State} (h : s.isMemory (stackAddr (s.sp + 1)) = true) :
    pull s = .done (s.peek (stackAddr (s.sp + 1)))
      ((s.setSp (s.sp + 1)).log ⟨.read, stackAddr (s.sp + 1), s.peek (stackAddr (s.sp + 1))⟩) := by
  have h' : (s.setSp (s.sp + 1)).isMemory (stackAddr (s.sp + 1)) = true := h
  simp only [pull, State.setSp_sp, busRead_memory h', State.setSp_peek]

/-- A property that the stack's own writes and S keep is kept by a push. -/
theorem push_all {P : State → Prop} (hlog : ∀ acc s, P s → P (s.log acc))
    (hrun : ∀ f s, P s → P (s.setRun (.faulted f))) (hsp : ∀ v s, P s → P (s.setSp v)) (v : Byte) {s : State}
    (hmem : s.isRam (stackAddr s.sp) = true → P (s.setMem (Memory.write s.mem (stackAddr s.sp).toNat v)))
    (h : P s) : (push v s).All P :=
  (busWrite_all hlog hrun _ v hmem h).bind fun _ _ h => hsp _ _ h

theorem pull_all {P : State → Prop} (hlog : ∀ acc s, P s → P (s.log acc))
    (hrun : ∀ f s, P s → P (s.setRun (.faulted f))) (hsp : ∀ v s, P s → P (s.setSp v)) {s : State} (h : P s) :
    (pull s).All P := busRead_all hlog hrun _ (hsp _ _ h)

theorem pull16_all {P : State → Prop} (hlog : ∀ acc s, P s → P (s.log acc))
    (hrun : ∀ f s, P s → P (s.setRun (.faulted f))) (hsp : ∀ v s, P s → P (s.setSp v)) {s : State} (h : P s) :
    (pull16 s).All P :=
  (pull_all hlog hrun hsp h).bind fun _ _ h => (pull_all hlog hrun hsp h).bind fun _ _ h => h

end Sys2Proof.Machine
end

