-- ==== Sys2Proof/Laws/PerInstr.lean ====
section
/-! SUPPORT. The family TableRow: the opcode byte an instruction encodes to selects a table row with its mnemonic and
mode, and that byte with the instruction's own operand bytes is read as the instruction (30_encoding.md R104, R110). -/

namespace Sys2Proof.Laws.TableRow

/-- An instruction's opcode byte selects its own row of the table, and is read back as the instruction. -/
def Statement (i : Instr) : Prop :=
  ∀ op : Byte, opcodeOf i = some op →
    (entryOf op).mnemonic = i.mnemonic ∧ (entryOf op).mode = i.mode ∧
    ∀ b1 b2 : Byte, operandOf i.mode b1 b2 = i.operand → instrOf op b1 b2 = i

/-- A byte found in a list satisfies what every byte of the list satisfies. -/
theorem of_contains {l : List Byte} {P : Byte → Prop} (h : ∀ b ∈ l, P b) {b : Byte} (hb : l.contains b = true) : P b :=
  h b (by simpa using hb)

theorem adc (o : Operand) : Statement (.adc o) := by
  intro op h
  cases o <;> cases h <;> exact ⟨rfl, rfl, fun _ _ ho => by cases ho; rfl⟩

theorem sbc (o : Operand) : Statement (.sbc o) := by
  intro op h
  cases o <;> cases h <;> exact ⟨rfl, rfl, fun _ _ ho => by cases ho; rfl⟩

theorem sbcUndoc (imm8 : Byte) : Statement (.sbcUndoc imm8) := by
  intro op h
  cases h
  exact ⟨rfl, rfl, fun _ _ ho => by cases ho; rfl⟩

theorem and (o : Operand) : Statement (.and o) := by
  intro op h
  cases o <;> cases h <;> exact ⟨rfl, rfl, fun _ _ ho => by cases ho; rfl⟩

theorem ora (o : Operand) : Statement (.ora o) := by
  intro op h
  cases o <;> cases h <;> exact ⟨rfl, rfl, fun _ _ ho => by cases ho; rfl⟩

theorem eor (o : Operand) : Statement (.eor o) := by
  intro op h
  cases o <;> cases h <;> exact ⟨rfl, rfl, fun _ _ ho => by cases ho; rfl⟩

theorem bit (o : Operand) : Statement (.bit o) := by
  intro op h
  cases o <;> cases h <;> exact ⟨rfl, rfl, fun _ _ ho => by cases ho; rfl⟩

theorem asl (o : Operand) : Statement (.asl o) := by
  intro op h
  cases o <;> cases h <;> exact ⟨rfl, rfl, fun _ _ ho => by cases ho; rfl⟩

theorem lsr (o : Operand) : Statement (.lsr o) := by
  intro op h
  cases o <;> cases h <;> exact ⟨rfl, rfl, fun _ _ ho => by cases ho; rfl⟩

theorem rol (o : Operand) : Statement (.rol o) := by
  intro op h
  cases o <;> cases h <;> exact ⟨rfl, rfl, fun _ _ ho => by cases ho; rfl⟩

theorem ror (o : Operand) : Statement (.ror o) := by
  intro op h
  cases o <;> cases h <;> exact ⟨rfl, rfl, fun _ _ ho => by cases ho; rfl⟩

theorem cmp (o : Operand) : Statement (.cmp o) := by
  intro op h
  cases o <;> cases h <;> exact ⟨rfl, rfl, fun _ _ ho => by cases ho; rfl⟩

theorem cpx (o : Operand) : Statement (.cpx o) := by
  intro op h
  cases o <;> cases h <;> exact ⟨rfl, rfl, fun _ _ ho => by cases ho; rfl⟩

theorem cpy (o : Operand) : Statement (.cpy o) := by
  intro op h
  cases o <;> cases h <;> exact ⟨rfl, rfl, fun _ _ ho => by cases ho; rfl⟩

theorem bcc (rel8 : Byte) : Statement (.bcc rel8) := by
  intro op h
  cases h
  exact ⟨rfl, rfl, fun _ _ ho => by cases ho; rfl⟩

theorem bcs (rel8 : Byte) : Statement (.bcs rel8) := by
  intro op h
  cases h
  exact ⟨rfl, rfl, fun _ _ ho => by cases ho; rfl⟩

theorem beq (rel8 : Byte) : Statement (.beq rel8) := by
  intro op h
  cases h
  exact ⟨rfl, rfl, fun _ _ ho => by cases ho; rfl⟩

theorem bne (rel8 : Byte) : Statement (.bne rel8) := by
  intro op h
  cases h
  exact ⟨rfl, rfl, fun _ _ ho => by cases ho; rfl⟩

theorem bmi (rel8 : Byte) : Statement (.bmi rel8) := by
  intro op h
  cases h
  exact ⟨rfl, rfl, fun _ _ ho => by cases ho; rfl⟩

theorem bpl (rel8 : Byte) : Statement (.bpl rel8) := by
  intro op h
  cases h
  exact ⟨rfl, rfl, fun _ _ ho => by cases ho; rfl⟩

theorem bvc (rel8 : Byte) : Statement (.bvc rel8) := by
  intro op h
  cases h
  exact ⟨rfl, rfl, fun _ _ ho => by cases ho; rfl⟩

theorem bvs (rel8 : Byte) : Statement (.bvs rel8) := by
  intro op h
  cases h
  exact ⟨rfl, rfl, fun _ _ ho => by cases ho; rfl⟩

theorem pha : Statement .pha := by
  intro op h
  cases h
  exact ⟨rfl, rfl, fun _ _ ho => by cases ho; rfl⟩

theorem php : Statement .php := by
  intro op h
  cases h
  exact ⟨rfl, rfl, fun _ _ ho => by cases ho; rfl⟩

theorem pla : Statement .pla := by
  intro op h
  cases h
  exact ⟨rfl, rfl, fun _ _ ho => by cases ho; rfl⟩

theorem plp : Statement .plp := by
  intro op h
  cases h
  exact ⟨rfl, rfl, fun _ _ ho => by cases ho; rfl⟩

theorem jsr (addr16 : Addr) : Statement (.jsr addr16) := by
  intro op h
  cases h
  exact ⟨rfl, rfl, fun _ _ ho => by cases ho; rfl⟩

theorem rts : Statement .rts := by
  intro op h
  cases h
  exact ⟨rfl, rfl, fun _ _ ho => by cases ho; rfl⟩

theorem rti : Statement .rti := by
  intro op h
  cases h
  exact ⟨rfl, rfl, fun _ _ ho => by cases ho; rfl⟩

theorem jmp (o : Operand) : Statement (.jmp o) := by
  intro op h
  cases o <;> cases h <;> exact ⟨rfl, rfl, fun _ _ ho => by cases ho; rfl⟩

theorem brk : Statement .brk := by
  intro op h
  cases h
  exact ⟨rfl, rfl, fun _ _ ho => by cases ho; rfl⟩

theorem tax : Statement .tax := by
  intro op h
  cases h
  exact ⟨rfl, rfl, fun _ _ ho => by cases ho; rfl⟩

theorem txa : Statement .txa := by
  intro op h
  cases h
  exact ⟨rfl, rfl, fun _ _ ho => by cases ho; rfl⟩

theorem tay : Statement .tay := by
  intro op h
  cases h
  exact ⟨rfl, rfl, fun _ _ ho => by cases ho; rfl⟩

theorem tya : Statement .tya := by
  intro op h
  cases h
  exact ⟨rfl, rfl, fun _ _ ho => by cases ho; rfl⟩

theorem tsx : Statement .tsx := by
  intro op h
  cases h
  exact ⟨rfl, rfl, fun _ _ ho => by cases ho; rfl⟩

theorem txs : Statement .txs := by
  intro op h
  cases h
  exact ⟨rfl, rfl, fun _ _ ho => by cases ho; rfl⟩

theorem clc : Statement .clc := by
  intro op h
  cases h
  exact ⟨rfl, rfl, fun _ _ ho => by cases ho; rfl⟩

theorem sec : Statement .sec := by
  intro op h
  cases h
  exact ⟨rfl, rfl, fun _ _ ho => by cases ho; rfl⟩

theorem cli : Statement .cli := by
  intro op h
  cases h
  exact ⟨rfl, rfl, fun _ _ ho => by cases ho; rfl⟩

theorem sei : Statement .sei := by
  intro op h
  cases h
  exact ⟨rfl, rfl, fun _ _ ho => by cases ho; rfl⟩

theorem cld : Statement .cld := by
  intro op h
  cases h
  exact ⟨rfl, rfl, fun _ _ ho => by cases ho; rfl⟩

theorem sed : Statement .sed := by
  intro op h
  cases h
  exact ⟨rfl, rfl, fun _ _ ho => by cases ho; rfl⟩

theorem clv : Statement .clv := by
  intro op h
  cases h
  exact ⟨rfl, rfl, fun _ _ ho => by cases ho; rfl⟩

theorem nop : Statement .nop := by
  intro op h
  cases h
  exact ⟨rfl, rfl, fun _ _ ho => by cases ho; rfl⟩

theorem nopUndoc (opcode : Byte) (o : Operand) : Statement (.nopUndoc opcode o) := by
  intro op h
  simp only [opcodeOf] at h
  split at h
  · rename_i hc
    cases h
    have hk : ∀ b ∈ nopUndocOpcodes o.mode,
        (entryOf b).mnemonic = .nop ∧ (entryOf b).mode = o.mode ∧ b ≠ 0xea#8 := by
      cases o.mode <;> decide
    obtain ⟨hm, hmode, hne⟩ := of_contains hk hc
    refine ⟨hm, hmode, fun b1 b2 ho => ?_⟩
    simp only [Instr.mode, Instr.operand] at ho
    simp only [instrOf, hm, hmode, if_neg hne, ho]
  · cases h

theorem lda (o : Operand) : Statement (.lda o) := by
  intro op h
  cases o <;> cases h <;> exact ⟨rfl, rfl, fun _ _ ho => by cases ho; rfl⟩

theorem ldx (o : Operand) : Statement (.ldx o) := by
  intro op h
  cases o <;> cases h <;> exact ⟨rfl, rfl, fun _ _ ho => by cases ho; rfl⟩

theorem ldy (o : Operand) : Statement (.ldy o) := by
  intro op h
  cases o <;> cases h <;> exact ⟨rfl, rfl, fun _ _ ho => by cases ho; rfl⟩

theorem sta (o : Operand) : Statement (.sta o) := by
  intro op h
  cases o <;> cases h <;> exact ⟨rfl, rfl, fun _ _ ho => by cases ho; rfl⟩

theorem stx (o : Operand) : Statement (.stx o) := by
  intro op h
  cases o <;> cases h <;> exact ⟨rfl, rfl, fun _ _ ho => by cases ho; rfl⟩

theorem sty (o : Operand) : Statement (.sty o) := by
  intro op h
  cases o <;> cases h <;> exact ⟨rfl, rfl, fun _ _ ho => by cases ho; rfl⟩

theorem inc (o : Operand) : Statement (.inc o) := by
  intro op h
  cases o <;> cases h <;> exact ⟨rfl, rfl, fun _ _ ho => by cases ho; rfl⟩

theorem dec (o : Operand) : Statement (.dec o) := by
  intro op h
  cases o <;> cases h <;> exact ⟨rfl, rfl, fun _ _ ho => by cases ho; rfl⟩

theorem inx : Statement .inx := by
  intro op h
  cases h
  exact ⟨rfl, rfl, fun _ _ ho => by cases ho; rfl⟩

theorem iny : Statement .iny := by
  intro op h
  cases h
  exact ⟨rfl, rfl, fun _ _ ho => by cases ho; rfl⟩

theorem dex : Statement .dex := by
  intro op h
  cases h
  exact ⟨rfl, rfl, fun _ _ ho => by cases ho; rfl⟩

theorem dey : Statement .dey := by
  intro op h
  cases h
  exact ⟨rfl, rfl, fun _ _ ho => by cases ho; rfl⟩

theorem kil (opcode : Byte) : Statement (.kil opcode) := by
  intro op h
  simp only [opcodeOf] at h
  split at h
  · rename_i hc
    cases h
    have hk : ∀ b ∈ kilOpcodes, (entryOf b).mnemonic = .kil ∧ (entryOf b).mode = .implicit := by decide
    obtain ⟨hm, hmode⟩ := of_contains hk hc
    exact ⟨hm, hmode, fun b1 b2 _ => by simp only [instrOf, hm]⟩
  · cases h

theorem slo (o : Operand) : Statement (.slo o) := by
  intro op h
  cases o <;> cases h <;> exact ⟨rfl, rfl, fun _ _ ho => by cases ho; rfl⟩

theorem rla (o : Operand) : Statement (.rla o) := by
  intro op h
  cases o <;> cases h <;> exact ⟨rfl, rfl, fun _ _ ho => by cases ho; rfl⟩

theorem sre (o : Operand) : Statement (.sre o) := by
  intro op h
  cases o <;> cases h <;> exact ⟨rfl, rfl, fun _ _ ho => by cases ho; rfl⟩

theorem rra (o : Operand) : Statement (.rra o) := by
  intro op h
  cases o <;> cases h <;> exact ⟨rfl, rfl, fun _ _ ho => by cases ho; rfl⟩

theorem sax (o : Operand) : Statement (.sax o) := by
  intro op h
  cases o <;> cases h <;> exact ⟨rfl, rfl, fun _ _ ho => by cases ho; rfl⟩

theorem lax (o : Operand) : Statement (.lax o) := by
  intro op h
  cases o <;> cases h <;> exact ⟨rfl, rfl, fun _ _ ho => by cases ho; rfl⟩

theorem dcp (o : Operand) : Statement (.dcp o) := by
  intro op h
  cases o <;> cases h <;> exact ⟨rfl, rfl, fun _ _ ho => by cases ho; rfl⟩

theorem isc (o : Operand) : Statement (.isc o) := by
  intro op h
  cases o <;> cases h <;> exact ⟨rfl, rfl, fun _ _ ho => by cases ho; rfl⟩

theorem anc (opcode : Byte) (imm8 : Byte) : Statement (.anc opcode imm8) := by
  intro op h
  simp only [opcodeOf] at h
  split at h
  · rename_i hc
    cases h
    have hk : ∀ b ∈ ancOpcodes, (entryOf b).mnemonic = .anc ∧ (entryOf b).mode = .immediate := by decide
    obtain ⟨hm, hmode⟩ := of_contains hk hc
    refine ⟨hm, hmode, fun b1 b2 ho => ?_⟩
    cases ho
    simp only [instrOf, hm]
  · cases h

theorem alr (imm8 : Byte) : Statement (.alr imm8) := by
  intro op h
  cases h
  exact ⟨rfl, rfl, fun _ _ ho => by cases ho; rfl⟩

theorem arr (imm8 : Byte) : Statement (.arr imm8) := by
  intro op h
  cases h
  exact ⟨rfl, rfl, fun _ _ ho => by cases ho; rfl⟩

theorem xaa (imm8 : Byte) : Statement (.xaa imm8) := by
  intro op h
  cases h
  exact ⟨rfl, rfl, fun _ _ ho => by cases ho; rfl⟩

theorem axs (imm8 : Byte) : Statement (.axs imm8) := by
  intro op h
  cases h
  exact ⟨rfl, rfl, fun _ _ ho => by cases ho; rfl⟩

theorem ahx (o : Operand) : Statement (.ahx o) := by
  intro op h
  cases o <;> cases h <;> exact ⟨rfl, rfl, fun _ _ ho => by cases ho; rfl⟩

theorem shy (addr16 : Addr) : Statement (.shy addr16) := by
  intro op h
  cases h
  exact ⟨rfl, rfl, fun _ _ ho => by cases ho; rfl⟩

theorem shx (addr16 : Addr) : Statement (.shx addr16) := by
  intro op h
  cases h
  exact ⟨rfl, rfl, fun _ _ ho => by cases ho; rfl⟩

theorem tas (addr16 : Addr) : Statement (.tas addr16) := by
  intro op h
  cases h
  exact ⟨rfl, rfl, fun _ _ ho => by cases ho; rfl⟩

theorem las (addr16 : Addr) : Statement (.las addr16) := by
  intro op h
  cases h
  exact ⟨rfl, rfl, fun _ _ ho => by cases ho; rfl⟩

end Sys2Proof.Laws.TableRow
end

