-- ==== Sys2Proof/Laws/Encoding.lean ====
section
/-! SUPPORT. Opcode bytes and well-formedness of all instructions, and the cycles each class of table row costs. -/

namespace Sys2Proof.Laws

/-- Every instruction's opcode byte selects its own table row. -/
theorem tableRow (i : Instr) : TableRow.Statement i :=
  match i with
  | .adc _ => TableRow.adc _
  | .sbc _ => TableRow.sbc _
  | .sbcUndoc _ => TableRow.sbcUndoc _
  | .and _ => TableRow.and _
  | .ora _ => TableRow.ora _
  | .eor _ => TableRow.eor _
  | .bit _ => TableRow.bit _
  | .asl _ => TableRow.asl _
  | .lsr _ => TableRow.lsr _
  | .rol _ => TableRow.rol _
  | .ror _ => TableRow.ror _
  | .cmp _ => TableRow.cmp _
  | .cpx _ => TableRow.cpx _
  | .cpy _ => TableRow.cpy _
  | .bcc _ => TableRow.bcc _
  | .bcs _ => TableRow.bcs _
  | .beq _ => TableRow.beq _
  | .bne _ => TableRow.bne _
  | .bmi _ => TableRow.bmi _
  | .bpl _ => TableRow.bpl _
  | .bvc _ => TableRow.bvc _
  | .bvs _ => TableRow.bvs _
  | .pha => TableRow.pha
  | .php => TableRow.php
  | .pla => TableRow.pla
  | .plp => TableRow.plp
  | .jsr _ => TableRow.jsr _
  | .rts => TableRow.rts
  | .rti => TableRow.rti
  | .jmp _ => TableRow.jmp _
  | .brk => TableRow.brk
  | .tax => TableRow.tax
  | .txa => TableRow.txa
  | .tay => TableRow.tay
  | .tya => TableRow.tya
  | .tsx => TableRow.tsx
  | .txs => TableRow.txs
  | .clc => TableRow.clc
  | .sec => TableRow.sec
  | .cli => TableRow.cli
  | .sei => TableRow.sei
  | .cld => TableRow.cld
  | .sed => TableRow.sed
  | .clv => TableRow.clv
  | .nop => TableRow.nop
  | .nopUndoc _ _ => TableRow.nopUndoc _ _
  | .lda _ => TableRow.lda _
  | .ldx _ => TableRow.ldx _
  | .ldy _ => TableRow.ldy _
  | .sta _ => TableRow.sta _
  | .stx _ => TableRow.stx _
  | .sty _ => TableRow.sty _
  | .inc _ => TableRow.inc _
  | .dec _ => TableRow.dec _
  | .inx => TableRow.inx
  | .iny => TableRow.iny
  | .dex => TableRow.dex
  | .dey => TableRow.dey
  | .kil _ => TableRow.kil _
  | .slo _ => TableRow.slo _
  | .rla _ => TableRow.rla _
  | .sre _ => TableRow.sre _
  | .rra _ => TableRow.rra _
  | .sax _ => TableRow.sax _
  | .lax _ => TableRow.lax _
  | .dcp _ => TableRow.dcp _
  | .isc _ => TableRow.isc _
  | .anc _ _ => TableRow.anc _ _
  | .alr _ => TableRow.alr _
  | .arr _ => TableRow.arr _
  | .xaa _ => TableRow.xaa _
  | .axs _ => TableRow.axs _
  | .ahx _ => TableRow.ahx _
  | .shy _ => TableRow.shy _
  | .shx _ => TableRow.shx _
  | .tas _ => TableRow.tas _
  | .las _ => TableRow.las _

end Sys2Proof.Laws

namespace Sys2Proof

/-- A well-formed instruction has an opcode byte. -/
theorem opcodeOf_of_wf {i : Instr} (h : WellFormed i) : ∃ op : Byte, opcodeOf i = some op := by
  cases i with
  | nopUndoc opcode o => exact ⟨opcode, if_pos (Bool.and_eq_true_iff.mp h).2⟩
  | kil opcode => exact ⟨opcode, if_pos (Bool.and_eq_true_iff.mp h).2⟩
  | anc opcode imm8 => exact ⟨opcode, if_pos (Bool.and_eq_true_iff.mp h).2⟩
  | adc o | sbc o | and o | ora o | eor o | bit o | asl o | lsr o | rol o | ror o | cmp o | cpx o | cpy o | jmp o
  | lda o | ldx o | ldy o | sta o | stx o | sty o | inc o | dec o | slo o | rla o | sre o | rra o | sax o | lax o
  | dcp o | isc o | ahx o =>
    cases o <;> first | exact ⟨_, rfl⟩ | exact absurd h (by simp [WellFormed, Instr.wf, Instr.mnemonic, Instr.mode, Instr.operand, Operand.mode, Mnemonic.modes])
  | _ => exact ⟨_, rfl⟩

/-- An instruction with an opcode byte is well-formed. -/
theorem wf_of_opcodeOf {i : Instr} {op : Byte} (h : opcodeOf i = some op) : WellFormed i := by
  cases i with
  | nopUndoc opcode o =>
    simp only [opcodeOf] at h
    split at h
    · rename_i hc
      refine Bool.and_eq_true_iff.mpr ⟨?_, hc⟩
      show ([Mode.zeroPage, .absolute, .zeroPageX, .implicit, .absoluteX, .immediate]).contains o.mode = true
      revert hc
      cases o.mode <;> first | exact fun _ => rfl | (intro hc; simp [nopUndocOpcodes] at hc)
    · cases h
  | kil opcode =>
    simp only [opcodeOf] at h
    split at h
    · rename_i hc; exact Bool.and_eq_true_iff.mpr ⟨rfl, hc⟩
    · cases h
  | anc opcode imm8 =>
    simp only [opcodeOf] at h
    split at h
    · rename_i hc; exact Bool.and_eq_true_iff.mpr ⟨rfl, hc⟩
    · cases h
  | adc o | sbc o | and o | ora o | eor o | bit o | asl o | lsr o | rol o | ror o | cmp o | cpx o | cpy o | jmp o
  | lda o | ldx o | ldy o | sta o | stx o | sty o | inc o | dec o | slo o | rla o | sre o | rra o | sax o | lax o
  | dcp o | isc o | ahx o => cases o <;> first | rfl | cases h
  | _ => rfl

theorem operandOf_mode (m : Mode) (b1 b2 : Byte) : (operandOf m b1 b2).mode = m := by cases m <;> rfl

/-- The instruction of an opcode byte has that opcode byte, and the operand its mode assembles. -/
theorem instrOf_row (op b1 b2 : Byte) :
    opcodeOf (instrOf op b1 b2) = some op ∧ (instrOf op b1 b2).operand = operandOf (entryOf op).mode b1 b2 := by
  by_cases hEB : op = 0xeb#8
  · subst hEB; exact ⟨rfl, rfl⟩
  by_cases hEA : op = 0xea#8
  · subst hEA; exact ⟨rfl, rfl⟩
  have h0 : ∀ op : Byte, opcodeOf (instrOf op 0 0) = some op ∧
      (instrOf op 0 0).operand = operandOf (entryOf op).mode 0 0 := by decide
  obtain ⟨h1, h2⟩ := h0 op
  cases hm : (entryOf op).mnemonic <;>
    simp only [instrOf, hm, if_neg hEB, if_neg hEA, opcodeOf, Instr.mnemonic, Instr.mode, operandOf_mode,
      Instr.operand, and_true] at h1 h2 ⊢ <;>
    first
      | exact h1
      | (refine ⟨h1, ?_⟩; revert h2; cases (entryOf op).mode <;> simp [operandOf])

namespace Machine

/-- What a reading instruction costs. -/
theorem cost_read {i : Instr} {op : Byte} (h : opcodeOf i = some op)
    (hi : i.mnemonic ∈ [.adc, .sbc, .and, .ora, .eor, .bit, .cmp, .cpx, .cpy, .lda, .ldx, .ldy, .lax, .las,
      .anc, .alr, .arr, .axs]) (c : Bool) :
    OpcodeEntry.cost (entryOf op) c false = readCost i.operand c := by
  cases i with
  | adc o | sbc o | and o | ora o | eor o | bit o | cmp o | cpx o | cpy o | lda o | ldx o | ldy o | lax o =>
    cases o <;> cases h <;> cases c <;> rfl
  | sbcUndoc imm8 | las addr16 | alr imm8 | arr imm8 | axs imm8 => cases h; cases c <;> rfl
  | anc opcode imm8 =>
    simp only [opcodeOf] at h
    split at h
    · rename_i hc
      cases h
      have hk : ∀ b ∈ ancOpcodes, ∀ c, OpcodeEntry.cost (entryOf b) c false = 2 := by decide
      exact hk _ (by simpa using hc) c
    · cases h
  | _ => simp [Instr.mnemonic] at hi

/-- What a storing instruction costs. -/
theorem cost_store {i : Instr} {op : Byte} (h : opcodeOf i = some op)
    (hi : i.mnemonic ∈ [.sta, .stx, .sty, .sax, .ahx, .shy, .shx, .tas]) (c : Bool) :
    OpcodeEntry.cost (entryOf op) c false = storeCost i.operand := by
  cases i with
  | sta o | stx o | sty o | sax o | ahx o => cases o <;> cases h <;> cases c <;> rfl
  | shy addr16 | shx addr16 | tas addr16 => cases h; cases c <;> rfl
  | _ => simp [Instr.mnemonic] at hi

/-- What a read-modify-write instruction costs. -/
theorem cost_modify {i : Instr} {op : Byte} (h : opcodeOf i = some op)
    (hi : i.mnemonic ∈ [.asl, .lsr, .rol, .ror, .inc, .dec, .slo, .rla, .sre, .rra, .dcp, .isc]) (c : Bool) :
    OpcodeEntry.cost (entryOf op) c false = modifyCost i.operand := by
  cases i with
  | asl o | lsr o | rol o | ror o | inc o | dec o | slo o | rla o | sre o | rra o | dcp o | isc o =>
    cases o <;> cases h <;> cases c <;> rfl
  | _ => simp [Instr.mnemonic] at hi

/-- No read-modify-write instruction has an Immediate form. -/
theorem modify_not_immediate {i : Instr} {op : Byte} (h : opcodeOf i = some op)
    (hi : i.mnemonic ∈ [.asl, .lsr, .rol, .ror, .inc, .dec, .slo, .rla, .sre, .rra, .dcp, .isc]) :
    i.mode ≠ .immediate := by
  cases i with
  | asl o | lsr o | rol o | ror o | inc o | dec o | slo o | rla o | sre o | rra o | dcp o | isc o =>
    intro hm
    cases o <;> simp [Instr.mode, Instr.operand, Operand.mode] at hm
    cases h
  | _ => simp [Instr.mnemonic] at hi

/-- What a branch costs. -/
theorem cost_branch {i : Instr} {op : Byte} (h : opcodeOf i = some op)
    (hi : i.mnemonic ∈ [.bcc, .bcs, .beq, .bne, .bmi, .bpl, .bvc, .bvs]) (c t : Bool) :
    OpcodeEntry.cost (entryOf op) c t = branchCost t c := by
  cases i with
  | bcc rel8 | bcs rel8 | beq rel8 | bne rel8 | bmi rel8 | bpl rel8 | bvc rel8 | bvs rel8 =>
    cases h; cases c <;> cases t <;> rfl
  | _ => simp [Instr.mnemonic] at hi

/-- No row costs less than 2 cycles or more than 8 (70 R395). -/
theorem cost_bounds (op : Byte) (c t : Bool) :
    2 ≤ OpcodeEntry.cost (entryOf op) c t ∧ OpcodeEntry.cost (entryOf op) c t ≤ 8 := by
  revert op c t; decide

end Machine
end Sys2Proof
end

