-- ==== Sys2Proof/Laws/Flags.lean ====
section
/-! SUPPORT. Every flag after every one-bit write of P (10 R26), and the pushed and pulled bytes (10 R37). -/

namespace Sys2Proof.Machine

/-- A bit of P after a masked write: the bits of the mask take the value, the others stay. -/
theorem getLsbD_writeMask (m p : Byte) (b : Bool) (k : Nat) (hk : k < 8) :
    (writeMask m b p).getLsbD k = if m.getLsbD k then b else p.getLsbD k := by
  unfold writeMask
  cases b <;> cases h : m.getLsbD k <;>
    simp only [h, hk, BitVec.getLsbD_or, BitVec.getLsbD_and, BitVec.getLsbD_not, Bool.or_true, Bool.or_false,
      Bool.and_true, Bool.and_false, Bool.not_true, Bool.not_false, decide_true, if_true, if_false,
      Bool.false_eq_true]

@[simp] theorem writeMask_writeMask (m p : Byte) (b c : Bool) : writeMask m b (writeMask m c p) = writeMask m b p := by
  refine BitVec.eq_of_getLsbD_eq fun k hk => ?_
  simp only [getLsbD_writeMask _ _ _ _ hk]
  split <;> rfl

@[simp] theorem setI_setI (b c : Bool) (p : Byte) : setI b (setI c p) = setI b p := writeMask_writeMask _ _ _ _

@[simp] theorem flagC_setC (b : Bool) (p : Byte) : flagC (setC b p) = b := by
  unfold flagC setC; rw [getLsbD_writeMask _ _ _ _ (by decide)]; rfl
@[simp] theorem flagZ_setC (b : Bool) (p : Byte) : flagZ (setC b p) = flagZ p := by
  unfold flagZ setC; rw [getLsbD_writeMask _ _ _ _ (by decide)]; rfl
@[simp] theorem flagI_setC (b : Bool) (p : Byte) : flagI (setC b p) = flagI p := by
  unfold flagI setC; rw [getLsbD_writeMask _ _ _ _ (by decide)]; rfl
@[simp] theorem flagD_setC (b : Bool) (p : Byte) : flagD (setC b p) = flagD p := by
  unfold flagD setC; rw [getLsbD_writeMask _ _ _ _ (by decide)]; rfl
@[simp] theorem flagB_setC (b : Bool) (p : Byte) : flagB (setC b p) = flagB p := by
  unfold flagB setC; rw [getLsbD_writeMask _ _ _ _ (by decide)]; rfl
@[simp] theorem flagR_setC (b : Bool) (p : Byte) : flagR (setC b p) = flagR p := by
  unfold flagR setC; rw [getLsbD_writeMask _ _ _ _ (by decide)]; rfl
@[simp] theorem flagV_setC (b : Bool) (p : Byte) : flagV (setC b p) = flagV p := by
  unfold flagV setC; rw [getLsbD_writeMask _ _ _ _ (by decide)]; rfl
@[simp] theorem flagN_setC (b : Bool) (p : Byte) : flagN (setC b p) = flagN p := by
  unfold flagN setC; rw [getLsbD_writeMask _ _ _ _ (by decide)]; rfl
@[simp] theorem flagC_setZ (b : Bool) (p : Byte) : flagC (setZ b p) = flagC p := by
  unfold flagC setZ; rw [getLsbD_writeMask _ _ _ _ (by decide)]; rfl
@[simp] theorem flagZ_setZ (b : Bool) (p : Byte) : flagZ (setZ b p) = b := by
  unfold flagZ setZ; rw [getLsbD_writeMask _ _ _ _ (by decide)]; rfl
@[simp] theorem flagI_setZ (b : Bool) (p : Byte) : flagI (setZ b p) = flagI p := by
  unfold flagI setZ; rw [getLsbD_writeMask _ _ _ _ (by decide)]; rfl
@[simp] theorem flagD_setZ (b : Bool) (p : Byte) : flagD (setZ b p) = flagD p := by
  unfold flagD setZ; rw [getLsbD_writeMask _ _ _ _ (by decide)]; rfl
@[simp] theorem flagB_setZ (b : Bool) (p : Byte) : flagB (setZ b p) = flagB p := by
  unfold flagB setZ; rw [getLsbD_writeMask _ _ _ _ (by decide)]; rfl
@[simp] theorem flagR_setZ (b : Bool) (p : Byte) : flagR (setZ b p) = flagR p := by
  unfold flagR setZ; rw [getLsbD_writeMask _ _ _ _ (by decide)]; rfl
@[simp] theorem flagV_setZ (b : Bool) (p : Byte) : flagV (setZ b p) = flagV p := by
  unfold flagV setZ; rw [getLsbD_writeMask _ _ _ _ (by decide)]; rfl
@[simp] theorem flagN_setZ (b : Bool) (p : Byte) : flagN (setZ b p) = flagN p := by
  unfold flagN setZ; rw [getLsbD_writeMask _ _ _ _ (by decide)]; rfl
@[simp] theorem flagC_setI (b : Bool) (p : Byte) : flagC (setI b p) = flagC p := by
  unfold flagC setI; rw [getLsbD_writeMask _ _ _ _ (by decide)]; rfl
@[simp] theorem flagZ_setI (b : Bool) (p : Byte) : flagZ (setI b p) = flagZ p := by
  unfold flagZ setI; rw [getLsbD_writeMask _ _ _ _ (by decide)]; rfl
@[simp] theorem flagI_setI (b : Bool) (p : Byte) : flagI (setI b p) = b := by
  unfold flagI setI; rw [getLsbD_writeMask _ _ _ _ (by decide)]; rfl
@[simp] theorem flagD_setI (b : Bool) (p : Byte) : flagD (setI b p) = flagD p := by
  unfold flagD setI; rw [getLsbD_writeMask _ _ _ _ (by decide)]; rfl
@[simp] theorem flagB_setI (b : Bool) (p : Byte) : flagB (setI b p) = flagB p := by
  unfold flagB setI; rw [getLsbD_writeMask _ _ _ _ (by decide)]; rfl
@[simp] theorem flagR_setI (b : Bool) (p : Byte) : flagR (setI b p) = flagR p := by
  unfold flagR setI; rw [getLsbD_writeMask _ _ _ _ (by decide)]; rfl
@[simp] theorem flagV_setI (b : Bool) (p : Byte) : flagV (setI b p) = flagV p := by
  unfold flagV setI; rw [getLsbD_writeMask _ _ _ _ (by decide)]; rfl
@[simp] theorem flagN_setI (b : Bool) (p : Byte) : flagN (setI b p) = flagN p := by
  unfold flagN setI; rw [getLsbD_writeMask _ _ _ _ (by decide)]; rfl
@[simp] theorem flagC_setD (b : Bool) (p : Byte) : flagC (setD b p) = flagC p := by
  unfold flagC setD; rw [getLsbD_writeMask _ _ _ _ (by decide)]; rfl
@[simp] theorem flagZ_setD (b : Bool) (p : Byte) : flagZ (setD b p) = flagZ p := by
  unfold flagZ setD; rw [getLsbD_writeMask _ _ _ _ (by decide)]; rfl
@[simp] theorem flagI_setD (b : Bool) (p : Byte) : flagI (setD b p) = flagI p := by
  unfold flagI setD; rw [getLsbD_writeMask _ _ _ _ (by decide)]; rfl
@[simp] theorem flagD_setD (b : Bool) (p : Byte) : flagD (setD b p) = b := by
  unfold flagD setD; rw [getLsbD_writeMask _ _ _ _ (by decide)]; rfl
@[simp] theorem flagB_setD (b : Bool) (p : Byte) : flagB (setD b p) = flagB p := by
  unfold flagB setD; rw [getLsbD_writeMask _ _ _ _ (by decide)]; rfl
@[simp] theorem flagR_setD (b : Bool) (p : Byte) : flagR (setD b p) = flagR p := by
  unfold flagR setD; rw [getLsbD_writeMask _ _ _ _ (by decide)]; rfl
@[simp] theorem flagV_setD (b : Bool) (p : Byte) : flagV (setD b p) = flagV p := by
  unfold flagV setD; rw [getLsbD_writeMask _ _ _ _ (by decide)]; rfl
@[simp] theorem flagN_setD (b : Bool) (p : Byte) : flagN (setD b p) = flagN p := by
  unfold flagN setD; rw [getLsbD_writeMask _ _ _ _ (by decide)]; rfl
@[simp] theorem flagC_setV (b : Bool) (p : Byte) : flagC (setV b p) = flagC p := by
  unfold flagC setV; rw [getLsbD_writeMask _ _ _ _ (by decide)]; rfl
@[simp] theorem flagZ_setV (b : Bool) (p : Byte) : flagZ (setV b p) = flagZ p := by
  unfold flagZ setV; rw [getLsbD_writeMask _ _ _ _ (by decide)]; rfl
@[simp] theorem flagI_setV (b : Bool) (p : Byte) : flagI (setV b p) = flagI p := by
  unfold flagI setV; rw [getLsbD_writeMask _ _ _ _ (by decide)]; rfl
@[simp] theorem flagD_setV (b : Bool) (p : Byte) : flagD (setV b p) = flagD p := by
  unfold flagD setV; rw [getLsbD_writeMask _ _ _ _ (by decide)]; rfl
@[simp] theorem flagB_setV (b : Bool) (p : Byte) : flagB (setV b p) = flagB p := by
  unfold flagB setV; rw [getLsbD_writeMask _ _ _ _ (by decide)]; rfl
@[simp] theorem flagR_setV (b : Bool) (p : Byte) : flagR (setV b p) = flagR p := by
  unfold flagR setV; rw [getLsbD_writeMask _ _ _ _ (by decide)]; rfl
@[simp] theorem flagV_setV (b : Bool) (p : Byte) : flagV (setV b p) = b := by
  unfold flagV setV; rw [getLsbD_writeMask _ _ _ _ (by decide)]; rfl
@[simp] theorem flagN_setV (b : Bool) (p : Byte) : flagN (setV b p) = flagN p := by
  unfold flagN setV; rw [getLsbD_writeMask _ _ _ _ (by decide)]; rfl
@[simp] theorem flagC_setN (b : Bool) (p : Byte) : flagC (setN b p) = flagC p := by
  unfold flagC setN; rw [getLsbD_writeMask _ _ _ _ (by decide)]; rfl
@[simp] theorem flagZ_setN (b : Bool) (p : Byte) : flagZ (setN b p) = flagZ p := by
  unfold flagZ setN; rw [getLsbD_writeMask _ _ _ _ (by decide)]; rfl
@[simp] theorem flagI_setN (b : Bool) (p : Byte) : flagI (setN b p) = flagI p := by
  unfold flagI setN; rw [getLsbD_writeMask _ _ _ _ (by decide)]; rfl
@[simp] theorem flagD_setN (b : Bool) (p : Byte) : flagD (setN b p) = flagD p := by
  unfold flagD setN; rw [getLsbD_writeMask _ _ _ _ (by decide)]; rfl
@[simp] theorem flagB_setN (b : Bool) (p : Byte) : flagB (setN b p) = flagB p := by
  unfold flagB setN; rw [getLsbD_writeMask _ _ _ _ (by decide)]; rfl
@[simp] theorem flagR_setN (b : Bool) (p : Byte) : flagR (setN b p) = flagR p := by
  unfold flagR setN; rw [getLsbD_writeMask _ _ _ _ (by decide)]; rfl
@[simp] theorem flagV_setN (b : Bool) (p : Byte) : flagV (setN b p) = flagV p := by
  unfold flagV setN; rw [getLsbD_writeMask _ _ _ _ (by decide)]; rfl
@[simp] theorem flagN_setN (b : Bool) (p : Byte) : flagN (setN b p) = b := by
  unfold flagN setN; rw [getLsbD_writeMask _ _ _ _ (by decide)]; rfl

@[simp] theorem flagZ_setZN (v p : Byte) : flagZ (setZN v p) = (v == 0#8) := by simp [setZN]
@[simp] theorem flagN_setZN (v p : Byte) : flagN (setZN v p) = v.getLsbD 7 := by simp [setZN]
@[simp] theorem flagC_setZN (v p : Byte) : flagC (setZN v p) = flagC p := by simp [setZN]
@[simp] theorem flagI_setZN (v p : Byte) : flagI (setZN v p) = flagI p := by simp [setZN]
@[simp] theorem flagD_setZN (v p : Byte) : flagD (setZN v p) = flagD p := by simp [setZN]
@[simp] theorem flagB_setZN (v p : Byte) : flagB (setZN v p) = flagB p := by simp [setZN]
@[simp] theorem flagR_setZN (v p : Byte) : flagR (setZN v p) = flagR p := by simp [setZN]
@[simp] theorem flagV_setZN (v p : Byte) : flagV (setZN v p) = flagV p := by simp [setZN]

@[simp] theorem flagB_pulledP (b : Byte) : flagB (pulledP b) = false := by
  revert b; decide
@[simp] theorem flagR_pulledP (b : Byte) : flagR (pulledP b) = true := by
  revert b; decide
@[simp] theorem flagC_pulledP (b : Byte) : flagC (pulledP b) = flagC b := by
  revert b; decide
@[simp] theorem flagZ_pulledP (b : Byte) : flagZ (pulledP b) = flagZ b := by
  revert b; decide
@[simp] theorem flagI_pulledP (b : Byte) : flagI (pulledP b) = flagI b := by
  revert b; decide
@[simp] theorem flagD_pulledP (b : Byte) : flagD (pulledP b) = flagD b := by
  revert b; decide
@[simp] theorem flagV_pulledP (b : Byte) : flagV (pulledP b) = flagV b := by
  revert b; decide
@[simp] theorem flagN_pulledP (b : Byte) : flagN (pulledP b) = flagN b := by
  revert b; decide
@[simp] theorem flagC_pushedP (brk : Bool) (p : Byte) : flagC (pushedP brk p) = flagC p := by
  revert brk p; decide
@[simp] theorem flagZ_pushedP (brk : Bool) (p : Byte) : flagZ (pushedP brk p) = flagZ p := by
  revert brk p; decide
@[simp] theorem flagI_pushedP (brk : Bool) (p : Byte) : flagI (pushedP brk p) = flagI p := by
  revert brk p; decide
@[simp] theorem flagD_pushedP (brk : Bool) (p : Byte) : flagD (pushedP brk p) = flagD p := by
  revert brk p; decide
@[simp] theorem flagB_pushedP (brk : Bool) (p : Byte) : flagB (pushedP brk p) = brk := by
  revert brk p; decide
@[simp] theorem flagR_pushedP (brk : Bool) (p : Byte) : flagR (pushedP brk p) = true := by
  revert brk p; decide
@[simp] theorem flagV_pushedP (brk : Bool) (p : Byte) : flagV (pushedP brk p) = flagV p := by
  revert brk p; decide
@[simp] theorem flagN_pushedP (brk : Bool) (p : Byte) : flagN (pushedP brk p) = flagN p := by
  revert brk p; decide

/-- Two status bytes with the same eight flags are equal. -/
theorem status_ext {p q : Byte} (hC : flagC p = flagC q) (hZ : flagZ p = flagZ q) (hI : flagI p = flagI q)
    (hD : flagD p = flagD q) (hB : flagB p = flagB q) (hR : flagR p = flagR q) (hV : flagV p = flagV q)
    (hN : flagN p = flagN q) : p = q := by
  apply BitVec.eq_of_getLsbD_eq
  intro k hk
  match k, hk with
  | 0, _ => exact hC
  | 1, _ => exact hZ
  | 2, _ => exact hI
  | 3, _ => exact hD
  | 4, _ => exact hB
  | 5, _ => exact hR
  | 6, _ => exact hV
  | 7, _ => exact hN

/-! ## The flags a write leaves alone, as one masked comparison -/

/-- Z and N written from a byte are that byte's. -/
theorem znOf_setZN (v p : Byte) : ZNOf v (setZN v p) :=
  ⟨by rw [flagZ_setZN]; rfl, by rw [flagN_setZN, BitVec.msb_eq_getLsbD_last]⟩

theorem sameFlags_setZN (v p : Byte) : SameFlags 0x7D#8 p (setZN v p) := by
  unfold SameFlags setZN setN setZ writeMask
  generalize v.getLsbD 7 = n
  generalize (v == 0#8) = z
  revert p; cases n <;> cases z <;> decide

theorem sameFlags_setC_setZN (v p : Byte) (c : Bool) : SameFlags 0x7C#8 p (setZN v (setC c p)) := by
  unfold SameFlags setZN setN setZ setC writeMask
  generalize v.getLsbD 7 = n
  generalize (v == 0#8) = z
  revert p; cases n <;> cases z <;> cases c <;> decide

theorem sameFlags_setC_setV_setZN (v p : Byte) (c o : Bool) :
    SameFlags 0x3C#8 p (setZN v (setV o (setC c p))) := by
  unfold SameFlags setZN setN setZ setC setV writeMask
  generalize v.getLsbD 7 = n
  generalize (v == 0#8) = z
  revert p; cases n <;> cases z <;> cases c <;> cases o <;> decide

/-! ## Signed overflow -/

theorem getLsbD_7 : ∀ v : Byte, v.getLsbD 7 = decide (128 ≤ v.toNat) := by decide

/-- The overflow expression of ADC (41 R161) says that the signed sum leaves the signed range. -/
theorem overflow_add (a m : Byte) (c : Bool) :
    (((a ^^^ BitVec.ofNat 8 (a.toNat + m.toNat + c.toNat)) &&&
      (m ^^^ BitVec.ofNat 8 (a.toNat + m.toNat + c.toNat))).getLsbD 7 = true) ↔
    (a.toInt + m.toInt + c.toNat < -128 ∨ 127 < a.toInt + m.toInt + c.toNat) := by
  have ha := a.isLt
  have hm := m.isLt
  rw [BitVec.getLsbD_and, BitVec.getLsbD_xor, BitVec.getLsbD_xor, getLsbD_7, getLsbD_7, getLsbD_7,
    BitVec.toNat_ofNat, BitVec.toInt_eq_toNat_cond, BitVec.toInt_eq_toNat_cond]
  cases c <;> simp only [Bool.toNat_true, Bool.toNat_false] <;> by_cases h1 : 128 ≤ a.toNat <;>
    by_cases h2 : 128 ≤ m.toNat <;> simp [h1, h2] <;> omega

/-- The overflow expression of SBC (41 R162) says that the signed difference leaves the signed range. -/
theorem overflow_sub (a m : Byte) (c : Bool) :
    (((a ^^^ m) &&& (a ^^^ BitVec.ofInt 8 ((a.toNat : Int) - m.toNat - (1 - c.toNat)))).getLsbD 7 = true) ↔
    (a.toInt - m.toInt - (1 - c.toNat) < -128 ∨ 127 < a.toInt - m.toInt - (1 - c.toNat)) := by
  have ha := a.isLt
  have hm := m.isLt
  rw [BitVec.getLsbD_and, BitVec.getLsbD_xor, BitVec.getLsbD_xor, getLsbD_7, getLsbD_7, getLsbD_7,
    BitVec.toNat_ofInt, BitVec.toInt_eq_toNat_cond, BitVec.toInt_eq_toNat_cond]
  cases c <;> simp only [Bool.toNat_true, Bool.toNat_false] <;> by_cases h1 : 128 ≤ a.toNat <;>
    by_cases h2 : 128 ≤ m.toNat <;> simp [h1, h2] <;> omega

end Sys2Proof.Machine
end

