-- ==== Sys2Proof/Laws/Operands.lean ====
section
/-! SUPPORT. The resolver and the operand accesses when what they touch is memory, and `perform` in terms of them. -/

namespace Sys2Proof.Machine

/-! ## Logged reads -/

theorem logReads_nil (s : State) : logReads [] s = s := rfl
theorem logReads_cons (a : Addr) (as : List Addr) (s : State) :
    logReads (a :: as) s = logReads as (s.log ⟨.read, a, s.peek a⟩) := rfl
theorem logReads_append (as bs : List Addr) (s : State) : logReads (as ++ bs) s = logReads bs (logReads as s) := by
  simp [logReads, List.foldl_append]

/-- Logged reads change the trace alone. -/
theorem logReads_eq (as : List Addr) (s : State) : logReads as s = { s with busLog := tracedReads as s } := by
  induction as generalizing s with
  | nil => rfl
  | cons a as ih =>
    rw [logReads_cons, ih]
    simp [tracedReads, State.log, State.peek]

@[simp] theorem logReads_peek (as : List Addr) (s : State) (b : Addr) : (logReads as s).peek b = s.peek b := by
  rw [logReads_eq]; rfl
@[simp] theorem logReads_isMemory (as : List Addr) (s : State) (b : Addr) :
    (logReads as s).isMemory b = s.isMemory b := by rw [logReads_eq]; rfl
@[simp] theorem logReads_a (as : List Addr) (s : State) : (logReads as s).a = s.a := by rw [logReads_eq]
@[simp] theorem logReads_mem (as : List Addr) (s : State) : (logReads as s).mem = s.mem := by rw [logReads_eq]
@[simp] theorem logReads_busMap (as : List Addr) (s : State) : (logReads as s).busMap = s.busMap := by
  rw [logReads_eq]
@[simp] theorem logReads_isRam (as : List Addr) (s : State) (b : Addr) :
    (logReads as s).isRam b = s.isRam b := by rw [logReads_eq]; rfl
@[simp] theorem logReads_p (as : List Addr) (s : State) : (logReads as s).p = s.p := by rw [logReads_eq]
@[simp] theorem logReads_params (as : List Addr) (s : State) : (logReads as s).params = s.params := by
  rw [logReads_eq]

/-! ## The resolver on memory -/

/-- A pointer in memory: the two reads, and then the pointer. -/
theorem memReadWrap_eq_logReads {a : Addr} {s : State} (h : [a, nextInPage a].all s.isMemory = true) :
    memReadWrap a s = .done (peekPointer a s) (logReads [a, nextInPage a] s) := by
  simp only [List.all_cons, List.all_nil, Bool.and_true, Bool.and_eq_true] at h
  rw [memReadWrap_memory h.1 h.2]; rfl

/-- The resolver, when its pointer bytes lie in memory: the view's answer after the pointer's reads. -/
theorem resolve_resolvable {o : Operand} {s : State} (h : resolvable o s = true) :
    resolve o s = .done (resolvedView o s) (logReads (pointerReads o s) s) := by
  cases o with
  | indexedIndirect zp8 =>
    simp only [resolve, memReadWrap_eq_logReads h, Result.bind_done]; rfl
  | indirectIndexed zp8 =>
    simp only [resolve, memReadWrap_eq_logReads h, Result.bind_done]; rfl
  | indirect ptr16 =>
    simp only [resolve, memReadWrap_eq_logReads h, Result.bind_done]; rfl
  | _ => rfl

/-- The handler's read of an operand at an address. -/
theorem readOperand_of_ea {o : Operand} {r : Resolved} {ea : Addr} {s : State} (himm : o.mode ≠ .immediate)
    (h : r.ea = some ea) : readOperand o r s = busRead ea s := by
  cases o <;> first | exact absurd rfl himm | simp only [readOperand, h]

/-- An operand at an address is read there, and nowhere else. -/
theorem dataReads_of_ea {o : Operand} {ea : Addr} {s : State} (himm : o.mode ≠ .immediate)
    (h : effectiveAddr o s = some ea) : dataReads o s = [ea] := by
  cases o <;> first | exact absurd rfl himm | simp only [dataReads, h, Option.toList]

/-- An operand at an address is the byte there. -/
theorem operandByte_of_ea {o : Operand} {ea : Addr} {s : State} (himm : o.mode ≠ .immediate)
    (h : effectiveAddr o s = some ea) : operandByte o s = s.peek ea := by
  cases o <;> first | exact absurd rfl himm | simp only [operandByte, h]

/-- The handler's read of its operand, when it lies in memory. -/
theorem readOperand_readable {o : Operand} {s : State} (h : readable o s = true) :
    readOperand o (resolvedView o s) (logReads (pointerReads o s) s) =
      .done (operandByte o s) (logReads (pointerReads o s ++ dataReads o s) s) := by
  obtain ⟨-, h⟩ := Bool.and_eq_true_iff.mp h
  by_cases himm : o.mode = .immediate
  · cases o <;> first | exact Mode.noConfusion himm | simp [readOperand, dataReads, operandByte]
  · cases he : effectiveAddr o s with
    | none =>
      cases o with
      | implicit => simp [readOperand, resolvedView, dataReads, operandByte, effectiveAddr]
      | immediate imm8 => exact absurd rfl himm
      | _ => simp [effectiveAddr, resolvedView, indexedFrom] at he
    | some ea =>
      rw [dataReads_of_ea himm he] at h ⊢
      have hm := (logReads_isMemory (pointerReads o s) s ea).trans (by simpa using h)
      rw [readOperand_of_ea himm he, busRead_memory hm, operandByte_of_ea himm he, logReads_append, logReads_peek]
      simp only [logReads_cons, logReads_nil, logReads_peek]

/-! ## Steps 3 to 5 -/

/-- `perform` of an instruction with an encoding. -/
theorem perform_eq {i : Instr} {op : Byte} (h : opcodeOf i = some op) (handler : Resolved → State → Result Bool)
    (s : State) :
    perform i handler s = ((resolve i.operand s).bind fun r s => (handler r s).bind fun taken s =>
      .done () (s.addCycles (OpcodeEntry.cost (entryOf op) r.crossed taken))).toOutcome := by
  simp [perform, tableEntry, h]

/-- `perform` when the resolver's pointer lies in memory. -/
theorem perform_resolvable {i : Instr} {op : Byte} (h : opcodeOf i = some op) {s : State}
    (hr : resolvable i.operand s = true) (handler : Resolved → State → Result Bool) :
    perform i handler s =
      ((handler (resolvedView i.operand s) (logReads (pointerReads i.operand s) s)).bind fun taken s' =>
        .done () (s'.addCycles (OpcodeEntry.cost (entryOf op) (crosses i.operand s) taken))).toOutcome := by
  rw [perform_eq h, resolve_resolvable hr]; rfl

/-- A reading instruction whose operand lies in memory completes. -/
theorem perform_readThen {i : Instr} {op : Byte} (h : opcodeOf i = some op) {s : State}
    (hr : readable i.operand s = true) (f : Byte → State → State) :
    perform i (readThen i.operand f) s =
      .next ((f (operandByte i.operand s)
        (logReads (pointerReads i.operand s ++ dataReads i.operand s) s)).addCycles
          (OpcodeEntry.cost (entryOf op) (crosses i.operand s) false)) := by
  rw [perform_resolvable h (Bool.and_eq_true_iff.mp hr).1]
  simp [readThen, readOperand_readable hr]

/-- An instruction that makes no access of its own completes in every state when it has no pointer. -/
theorem perform_registerOnly {i : Instr} {op : Byte} (h : opcodeOf i = some op) {s : State}
    (hp : pointerAddr i.operand s = none) (f : State → State) :
    perform i (registerOnly f) s =
      .next ((f s).addCycles (OpcodeEntry.cost (entryOf op) (crosses i.operand s) false)) := by
  have hr : pointerReads i.operand s = [] := by simp [pointerReads, hp]
  rw [perform_resolvable h (by simp [resolvable, hr]), hr]
  simp [registerOnly, logReads_nil]

/-- A storing instruction whose target lies in memory completes. -/
theorem perform_storeByte {i : Instr} {op : Byte} (h : opcodeOf i = some op) {s : State} {ea : Addr}
    (he : effectiveAddr i.operand s = some ea) (hs : storable i.operand s = true) (value : State → Byte) :
    perform i (storeByte value) s =
      .next ((((logReads (pointerReads i.operand s) s).setMem
        (memAfterWrite ea (value (logReads (pointerReads i.operand s) s)) s)).log
          ⟨.write, ea, value (logReads (pointerReads i.operand s) s)⟩).addCycles
            (OpcodeEntry.cost (entryOf op) (crosses i.operand s) false)) := by
  obtain ⟨hr, hm⟩ := Bool.and_eq_true_iff.mp hs
  simp only [he, Option.toList, List.all_cons, List.all_nil, Bool.and_true] at hm
  rw [effectiveAddr] at he
  rw [perform_resolvable h hr]
  have hm' := (logReads_isMemory (pointerReads i.operand s) s ea).trans hm
  simp only [storeByte, writeOperand, he, busWrite_memory hm', Result.bind_done, Result.toOutcome_done,
    memAfterWrite, logReads_isRam, logReads_mem]

/-- A read-modify-write of a memory byte completes. -/
theorem perform_readModifyWrite {i : Instr} {op : Byte} (h : opcodeOf i = some op) {s : State} {ea : Addr}
    (himm : i.mode ≠ .immediate) (he : effectiveAddr i.operand s = some ea) (hs : storable i.operand s = true)
    (change : Byte → State → Byte) (after : Byte → State → State) :
    perform i (readModifyWrite i.operand change after) s =
      .next ((after (s.peek ea) (((logReads (pointerReads i.operand s ++ [ea]) s).setMem
        (memAfterWrite ea (change (s.peek ea) (logReads (pointerReads i.operand s ++ [ea]) s)) s)).log
          ⟨.write, ea, change (s.peek ea) (logReads (pointerReads i.operand s ++ [ea]) s)⟩)).addCycles
            (OpcodeEntry.cost (entryOf op) (crosses i.operand s) false)) := by
  obtain ⟨hr, hm⟩ := Bool.and_eq_true_iff.mp hs
  simp only [he, Option.toList, List.all_cons, List.all_nil, Bool.and_true] at hm
  have hd := dataReads_of_ea himm he
  have hb := operandByte_of_ea himm he
  have hread : readable i.operand s = true := by simp [readable, hr, hd, hm]
  have hro := readOperand_readable hread
  rw [effectiveAddr] at he
  rw [perform_resolvable h hr]
  have hm' := (logReads_isMemory (pointerReads i.operand s ++ [ea]) s ea).trans hm
  rw [hd, hb] at hro
  simp only [readModifyWrite, hro, writeOperand, he, busWrite_memory hm', Result.bind_done, Result.toOutcome_done,
    memAfterWrite, logReads_isRam, logReads_mem]

/-! ## What the resolver keeps -/

theorem resolve_all {P : State → Prop} (hlog : ∀ acc s, P s → P (s.log acc))
    (hrun : ∀ f s, P s → P (s.setRun (.faulted f))) (o : Operand) {s : State} (h : P s) : (resolve o s).All P := by
  cases o with
  | indexedIndirect zp8 => exact (memReadWrap_all hlog hrun _ h).bind fun _ _ h => h
  | indirectIndexed zp8 => exact (memReadWrap_all hlog hrun _ h).bind fun _ _ h => h
  | indirect ptr16 => exact (memReadWrap_all hlog hrun _ h).bind fun _ _ h => h
  | _ => exact h

theorem readOperand_all {P : State → Prop} (hlog : ∀ acc s, P s → P (s.log acc))
    (hrun : ∀ f s, P s → P (s.setRun (.faulted f))) (o : Operand) (r : Resolved) {s : State} (h : P s) :
    (readOperand o r s).All P := by
  unfold readOperand
  split
  · exact h
  · exact busRead_all hlog hrun _ h
  · exact h

/-- What the resolver, the handler and the added cycles keep, the instruction keeps. -/
theorem perform_all {P : State → Prop} (hlog : ∀ acc s, P s → P (s.log acc))
    (hrun : ∀ f s, P s → P (s.setRun (.faulted f))) (hcyc : ∀ n s, P s → P (s.addCycles n)) {i : Instr}
    {handler : Resolved → State → Result Bool} {s t : State} (h : P s)
    (hh : ∀ r s, P s → (handler r s).All P) (ht : perform i handler s = .next t) : P t := by
  unfold perform at ht
  split at ht
  · cases ht
  · rename_i e _
    refine Result.All.of_next (Result.All.bind (resolve_all hlog hrun _ h) fun r s h =>
      Result.All.bind (hh r s h) fun taken s h => ?_) ht
    exact hcyc (OpcodeEntry.cost e r.crossed taken) s h

end Sys2Proof.Machine
end

