-- ==== Sys2Proof/Laws/Word.lean ====
section
/-! SUPPORT. Bytes and addresses as numbers: the halves of an address, the word of two bytes, pages, and the stack window. -/

namespace Sys2Proof

theorem toNat_hiByte (w : Addr) : (hiByte w).toNat = w.toNat / 256 := by
  have := w.isLt
  simp only [hiByte, BitVec.extractLsb'_toNat, Nat.shiftRight_eq_div_pow]
  omega

theorem toNat_loByte (w : Addr) : (loByte w).toNat = w.toNat % 256 := by
  simp [loByte, BitVec.extractLsb'_toNat]

theorem toNat_word16 (hi lo : Byte) : (word16 hi lo).toNat = hi.toNat * 256 + lo.toNat := by
  show (hi ++ lo).toNat = _
  rw [BitVec.toNat_append, ← Nat.shiftLeft_add_eq_or_of_lt lo.isLt, Nat.shiftLeft_eq]

@[simp] theorem word16_hi_lo (w : Addr) : word16 (hiByte w) (loByte w) = w := by
  apply BitVec.eq_of_toNat_eq
  rw [toNat_word16, toNat_hiByte, toNat_loByte]
  omega

@[simp] theorem hiByte_word16 (hi lo : Byte) : hiByte (word16 hi lo) = hi := by
  apply BitVec.eq_of_toNat_eq
  have := lo.isLt
  rw [toNat_hiByte, toNat_word16]
  omega

@[simp] theorem loByte_word16 (hi lo : Byte) : loByte (word16 hi lo) = lo := by
  apply BitVec.eq_of_toNat_eq
  have := lo.isLt
  rw [toNat_loByte, toNat_word16]
  omega

@[simp] theorem word16_inj {a b c d : Byte} : word16 a b = word16 c d ↔ a = c ∧ b = d := by
  constructor
  · intro h
    exact ⟨by simpa using congrArg hiByte h, by simpa using congrArg loByte h⟩
  · rintro ⟨rfl, rfl⟩; rfl

/-- Two addresses lie in one page exactly when they agree above the low byte. -/
theorem hiByte_eq_iff (a b : Addr) : hiByte a = hiByte b ↔ a.toNat / 256 = b.toNat / 256 := by
  rw [← BitVec.toNat_inj, toNat_hiByte, toNat_hiByte]

namespace Machine

theorem pageCrossed_eq (a b : Addr) : pageCrossed a b = decide (a.toNat / 256 ≠ b.toNat / 256) := by
  rw [pageCrossed, Bool.eq_iff_iff]
  simp [← hiByte_eq_iff]

@[simp] theorem stackAddr_inj {a b : Byte} : stackAddr a = stackAddr b ↔ a = b := by simp [stackAddr]

/-- A vector byte is no stack byte. -/
theorem vector_ne_stack {lo sp : Byte} : word16 0xFF#8 lo ≠ stackAddr sp := by simp [stackAddr]

end Machine
end Sys2Proof
end

