-- ==== Sys2Proof/Laws/Stack.lean ====
section
/-! SUPPORT. The 16-bit stack operations, taking an exception and returning from one, when what they touch is memory; and
what each of them keeps. -/

namespace Sys2Proof.Machine

/-- One store of a byte. -/
theorem memoryAfter_one {s : State} (h : Memory.wf s.mem = true) (a : Addr) (v : Byte) :
    MemoryAfter s [(a, v)] (memAfterWrite a v s) := MemoryAfter.cons (MemoryAfter.nil s) rfl h

/-- `perform` of an instruction with no operand. -/
theorem perform_implicit {i : Instr} {op : Byte} (h : opcodeOf i = some op) (ho : i.operand = .implicit)
    (handler : Resolved → State → Result Bool) (s : State) :
    perform i handler s = ((handler ⟨none, false⟩ s).bind fun taken s' =>
      .done () (s'.addCycles (OpcodeEntry.cost (entryOf op) false taken))).toOutcome := by
  rw [perform_eq h, ho]; rfl

theorem sub_one_sub_one (v : Byte) : v - 1 - 1 = v - 2 := by rw [BitVec.sub_sub]; rfl
theorem sub_two_sub_one (v : Byte) : v - 2 - 1 = v - 3 := by rw [BitVec.sub_sub]; rfl
theorem add_one_add_one (v : Byte) : v + 1 + 1 = v + 2 := by rw [BitVec.add_assoc]; rfl
theorem add_two_add_one (v : Byte) : v + 2 + 1 = v + 3 := by rw [BitVec.add_assoc]; rfl

/-- Memory after `Push16` on memory. -/
def memAfterPush16 (w : Addr) (s : State) : Memory :=
  memAfterWrite (stackAddr (s.sp - 1)) (loByte w) (s.setMem (memAfterWrite (stackAddr s.sp) (hiByte w) s))

theorem push16_memory (w : Addr) {s : State} (h : s.isMemory (stackAddr s.sp) = true)
    (h' : s.isMemory (stackAddr (s.sp - 1)) = true) :
    push16 w s = .done () { s with
      sp := s.sp - 2
      mem := memAfterPush16 w s
      busLog := ⟨.write, stackAddr (s.sp - 1), loByte w⟩ :: ⟨.write, stackAddr s.sp, hiByte w⟩ :: s.busLog } := by
  simp only [push16, push_memory h, Result.bind_done]
  rw [push_memory (by exact h'), ← sub_one_sub_one]
  rfl

theorem wf_memAfterPush16 {w : Addr} {s : State} (h : Memory.wf s.mem = true) :
    Memory.wf (memAfterPush16 w s) = true :=
  wf_memAfterWrite (s := s.setMem _) (wf_memAfterWrite h)

theorem memoryAfter_push16 {w : Addr} {s : State} (h : Memory.wf s.mem = true) :
    MemoryAfter s [(stackAddr (s.sp - 1), loByte w), (stackAddr s.sp, hiByte w)] (memAfterPush16 w s) :=
  MemoryAfter.cons (t := s.setMem _) (memoryAfter_one h _ _) rfl (wf_memAfterWrite h)

theorem pull16_memory {s : State} (h : s.isMemory (stackAddr (s.sp + 1)) = true)
    (h' : s.isMemory (stackAddr (s.sp + 2)) = true) :
    pull16 s = .done (word16 (s.peek (stackAddr (s.sp + 2))) (s.peek (stackAddr (s.sp + 1)))) { s with
      sp := s.sp + 2
      busLog := ⟨.read, stackAddr (s.sp + 2), s.peek (stackAddr (s.sp + 2))⟩ ::
        ⟨.read, stackAddr (s.sp + 1), s.peek (stackAddr (s.sp + 1))⟩ :: s.busLog } := by
  simp only [pull16, pull_memory h, Result.bind_done]
  rw [pull_memory (by simp only [State.log_sp, State.setSp_sp, add_one_add_one]; exact h')]
  simp only [State.log_sp, State.setSp_sp, add_one_add_one, Result.bind_done]
  rfl

/-- Memory after the three pushes of an exception. -/
def memAfterEntry (brk : Bool) (s : State) : Memory :=
  memAfterWrite (stackAddr (s.sp - 2)) (pushedP brk s.p) (s.setMem (memAfterPush16 s.pc s))

theorem wf_memAfterEntry {brk : Bool} {s : State} (h : Memory.wf s.mem = true) :
    Memory.wf (memAfterEntry brk s) = true := wf_memAfterWrite (s := s.setMem _) (wf_memAfterPush16 h)

theorem memoryAfter_entry {brk : Bool} {s : State} (h : Memory.wf s.mem = true) :
    MemoryAfter s [(stackAddr (s.sp - 2), pushedP brk s.p), (stackAddr (s.sp - 1), loByte s.pc),
      (stackAddr s.sp, hiByte s.pc)] (memAfterEntry brk s) :=
  MemoryAfter.cons (t := s.setMem _) (memoryAfter_push16 h) rfl (wf_memAfterPush16 h)

/-- A byte outside the three stack bytes is read after an exception's pushes as before. -/
theorem storedByte_not_stack {s : State} {sp1 sp2 sp3 v1 v2 v3 lo : Byte} :
    storedByte s [(stackAddr sp1, v1), (stackAddr sp2, v2), (stackAddr sp3, v3)] (word16 0xFF#8 lo) =
      s.peek (word16 0xFF#8 lo) := by
  simp only [storedByte, vector_ne_stack, false_and, if_false]

/-- The state after the three pushes of an exception on memory. -/
def afterEntryPushes (brk : Bool) (s : State) : State :=
  { s with
    sp := s.sp - 3
    mem := memAfterEntry brk s
    busLog := ⟨.write, stackAddr (s.sp - 2), pushedP brk s.p⟩ ::
      ⟨.write, stackAddr (s.sp - 1), loByte s.pc⟩ :: ⟨.write, stackAddr s.sp, hiByte s.pc⟩ :: s.busLog }

theorem afterEntryPushes_peek_vector {brk : Bool} {s : State} (hwf : Memory.wf s.mem = true) (lo : Byte) :
    (afterEntryPushes brk s).peek (word16 0xFF#8 lo) = s.peek (word16 0xFF#8 lo) :=
  (memoryAfter_entry hwf _).trans storedByte_not_stack

theorem beforeVector_eq (brk : Bool) (s : State) :
    beforeVector brk s = s.setP (if brk then setI true s.p else s.p) := by cases brk <;> rfl

/-- Taking an exception when the stack is memory, whatever answers the vector read: the pushes, then that read. -/
theorem enterException_pushes (brk : Bool) (vector : Addr) {s : State}
    (h0 : s.isMemory (stackAddr s.sp) = true) (h1 : s.isMemory (stackAddr (s.sp - 1)) = true)
    (h2 : s.isMemory (stackAddr (s.sp - 2)) = true) :
    enterException brk vector s = (memRead16 vector (beforeVector brk (afterEntryPushes brk s))).bind
      fun target s => .done () ((s.setP (setI true s.p)).setPc target) := by
  simp only [enterException, push16_memory _ h0 h1, Result.bind_done]
  rw [push_memory (by exact h2)]
  simp only [Result.bind_done, afterEntryPushes, ← sub_two_sub_one]
  rfl

/-- Taking an exception when the stack and the vector are memory. -/
theorem enterException_memory (brk : Bool) {lo : Byte} {s : State} (hwf : Memory.wf s.mem = true)
    (h0 : s.isMemory (stackAddr s.sp) = true) (h1 : s.isMemory (stackAddr (s.sp - 1)) = true)
    (h2 : s.isMemory (stackAddr (s.sp - 2)) = true) {lo' : Byte} (hlo : word16 0xFF#8 lo + 1 = word16 0xFF#8 lo')
    (hv : s.isMemory (word16 0xFF#8 lo) = true) (hv' : s.isMemory (word16 0xFF#8 lo') = true) :
    enterException brk (word16 0xFF#8 lo) s = .done () { s with
      sp := s.sp - 3
      p := setI true s.p
      pc := word16 (s.peek (word16 0xFF#8 lo')) (s.peek (word16 0xFF#8 lo))
      mem := memAfterEntry brk s
      busLog := ⟨.read, word16 0xFF#8 lo', s.peek (word16 0xFF#8 lo')⟩ ::
        ⟨.read, word16 0xFF#8 lo, s.peek (word16 0xFF#8 lo)⟩ ::
        ⟨.write, stackAddr (s.sp - 2), pushedP brk s.p⟩ ::
        ⟨.write, stackAddr (s.sp - 1), loByte s.pc⟩ :: ⟨.write, stackAddr s.sp, hiByte s.pc⟩ :: s.busLog } := by
  rw [enterException_pushes brk _ h0 h1 h2, beforeVector_eq,
    memRead16_memory (by exact hv) (by rw [hlo]; exact hv'), hlo]
  simp only [Result.bind_done, State.setP_peek, afterEntryPushes_peek_vector hwf]
  cases brk
  · rfl
  · simp only [if_true, State.log_p, State.setP_p, setI_setI]; rfl

/-- Returning from an exception when the stack is memory. -/
theorem returnFromException_memory {s : State} (h1 : s.isMemory (stackAddr (s.sp + 1)) = true)
    (h2 : s.isMemory (stackAddr (s.sp + 2)) = true) (h3 : s.isMemory (stackAddr (s.sp + 3)) = true) :
    returnFromException s = .done () { s with
      sp := s.sp + 3
      p := pulledP (s.peek (stackAddr (s.sp + 1)))
      pc := word16 (s.peek (stackAddr (s.sp + 3))) (s.peek (stackAddr (s.sp + 2)))
      busLog := ⟨.read, stackAddr (s.sp + 3), s.peek (stackAddr (s.sp + 3))⟩ ::
        ⟨.read, stackAddr (s.sp + 2), s.peek (stackAddr (s.sp + 2))⟩ ::
        ⟨.read, stackAddr (s.sp + 1), s.peek (stackAddr (s.sp + 1))⟩ :: s.busLog } := by
  have e2 : s.sp + 1 + 2 = s.sp + 3 := by rw [BitVec.add_assoc]; rfl
  simp only [returnFromException, pull_memory h1, Result.bind_done]
  rw [pull16_memory (by simp only [State.setP_sp, State.log_sp, State.setSp_sp, add_one_add_one]; exact h2)
    (by simp only [State.setP_sp, State.log_sp, State.setSp_sp, e2]; exact h3)]
  simp only [State.setP_sp, State.log_sp, State.setSp_sp, add_one_add_one, e2, Result.bind_done]
  rfl

/-! ## What the exception mechanism keeps -/

theorem returnFromException_all {P : State → Prop} (hlog : ∀ acc s, P s → P (s.log acc))
    (hrun : ∀ f s, P s → P (s.setRun (.faulted f))) (hsp : ∀ v s, P s → P (s.setSp v))
    (hp : ∀ b s, P s → P (s.setP (pulledP b))) (hpc : ∀ a s, P s → P (s.setPc a)) {s : State} (h : P s) :
    (returnFromException s).All P :=
  (pull_all hlog hrun hsp h).bind fun _ _ h => (pull16_all hlog hrun hsp (hp _ _ h)).bind fun _ _ h => hpc _ _ h

/-- A property that every store, S, a logged access and a raised fault keep is kept by `Push16`. -/
theorem push16_all {P : State → Prop} (hlog : ∀ acc s, P s → P (s.log acc))
    (hrun : ∀ f s, P s → P (s.setRun (.faulted f))) (hsp : ∀ v s, P s → P (s.setSp v))
    (hmem : ∀ (a : Addr) v s, P s → s.isRam a = true → P (s.setMem (Memory.write s.mem a.toNat v)))
    (w : Addr) {s : State} (h : P s) : (push16 w s).All P :=
  (push_all hlog hrun hsp _ (hmem _ _ _ h) h).bind fun _ _ h => push_all hlog hrun hsp _ (hmem _ _ _ h) h

theorem beforeVector_all {P : State → Prop} (hp : ∀ s, P s → P (s.setP (setI true s.p))) (brk : Bool) {s : State}
    (h : P s) : P (beforeVector brk s) := by cases brk; exacts [h, hp s h]

theorem enterException_all {P : State → Prop} (hlog : ∀ acc s, P s → P (s.log acc))
    (hrun : ∀ f s, P s → P (s.setRun (.faulted f))) (hsp : ∀ v s, P s → P (s.setSp v))
    (hmem : ∀ (a : Addr) v s, P s → s.isRam a = true → P (s.setMem (Memory.write s.mem a.toNat v)))
    (hp : ∀ s, P s → P (s.setP (setI true s.p))) (hpc : ∀ a s, P s → P (s.setPc a)) (brk : Bool) (vector : Addr)
    {s : State} (h : P s) : (enterException brk vector s).All P :=
  (push16_all hlog hrun hsp hmem _ h).bind fun _ _ h =>
    (push_all hlog hrun hsp _ (hmem _ _ _ h) h).bind fun _ _ h =>
      (memRead16_all hlog hrun _ (beforeVector_all hp brk h)).bind fun _ _ h => hpc _ _ (hp _ h)

end Sys2Proof.Machine
end

