-- ==== Sys2Proof/Laws/Exec.lean ====
section
/-! SUPPORT. Facts about every meaning at once. -/

namespace Sys2Proof.Machine

/-- Every meaning is steps 3 to 5 of `step()` around some handler. -/
theorem exec_is_perform (i : Instr) (s : State) : ∃ handler, exec i s = perform i handler s := by
  cases i <;>
    simp only [exec, performUndoc, execAdc, execSbc, execSbcUndoc, execAnd, execOra, execEor, execBit, execAsl,
      execLsr, execRol, execRor, execCmp, execCpx, execCpy, execBcc, execBcs, execBeq, execBne, execBmi,
      execBpl, execBvc, execBvs, execPha, execPhp, execPla, execPlp, execJsr, execRts, execRti, execJmp,
      execBrk, execTax, execTxa, execTay, execTya, execTsx, execTxs, execClc, execSec, execCli, execSei,
      execCld, execSed, execClv, execNop, execNopUndoc, execLda, execLdx, execLdy, execSta, execStx, execSty,
      execInc, execDec, execInx, execIny, execDex, execDey, execKil, execSlo, execRla, execSre, execRra,
      execSax, execLax, execDcp, execIsc, execAnc, execAlr, execArr, execXaa, execAxs, execAhx, execShy,
      execShx, execTas, execLas] <;>
    exact ⟨_, rfl⟩

/-- A raise of the resolver is the outcome, whatever the instruction. -/
theorem exec_of_resolve_raised {i : Instr} {op : Byte} (h : opcodeOf i = some op) {s u : State} {f : Fault}
    (hr : resolve i.operand s = .raised f u) : exec i s = .next u := by
  obtain ⟨handler, he⟩ := exec_is_perform i s
  rw [he, perform_eq h, hr]; rfl

/-- An instruction that answers a next state has an opcode byte. -/
theorem opcodeOf_of_next {i : Instr} {s t : State} (h : exec i s = .next t) : ∃ op, opcodeOf i = some op := by
  obtain ⟨handler, he⟩ := exec_is_perform i s
  rw [he] at h
  cases hop : opcodeOf i with
  | some op => exact ⟨op, rfl⟩
  | none => simp [perform, tableEntry, hop] at h

/-- RAM is memory. -/
theorem isMemory_of_isRam {s : State} {a : Addr} (h : s.isRam a = true) : s.isMemory a = true := by
  simp only [State.isRam, State.isMemory] at *
  simp [h]

end Sys2Proof.Machine
end

