-- ==== Sys2Proof/Laws/Keeps.lean ====
section
/-! SUPPORT. What the shapes of handler keep: a property of the state that the building blocks keep is kept by the handler,
so an invariant or a frame of an instruction is one citation of `perform_all` with one of these. -/

namespace Sys2Proof.Machine

variable {P : State → Prop}

/-- A reading handler keeps what its access and its effect keep. -/
theorem readThen_all (hlog : ∀ acc s, P s → P (s.log acc)) (hrun : ∀ f s, P s → P (s.setRun (.faulted f)))
    {f : Byte → State → State} (hf : ∀ m s, P s → P (f m s)) (o : Operand) (r : Resolved) {s : State} (h : P s) :
    (readThen o f r s).All P :=
  (readOperand_all hlog hrun o r h).bind fun m _ h => hf m _ h

/-- A handler with no access keeps what its effect keeps. -/
theorem registerOnly_all {f : State → State} (hf : ∀ s, P s → P (f s)) (r : Resolved) {s : State} (h : P s) :
    (registerOnly f r s).All P := hf s h

/-- A branch keeps what a write of PC keeps. -/
theorem branchIf_all (hpc : ∀ v s, P s → P (s.setPc v)) (cond : Byte → Bool) (r : Resolved) {s : State} (h : P s) :
    (branchIf cond r s).All P := by
  unfold branchIf jumpTo
  split
  · split
    · exact hpc _ _ h
    · exact h
  · exact h

/-- A jump keeps what a write of PC keeps. -/
theorem jumpTo_keeps (hpc : ∀ v s, P s → P (s.setPc v)) (r : Resolved) {s : State} (h : P s) : P (jumpTo r s) := by
  unfold jumpTo
  split
  · exact hpc _ _ h
  · exact h

/-- Writing a result keeps what a store at the effective address keeps, or a write of A when there is none. -/
theorem writeOperand_all (hlog : ∀ acc s, P s → P (s.log acc)) (hrun : ∀ f s, P s → P (s.setRun (.faulted f)))
    {r : Resolved} (hmem : ∀ (a : Addr) (v : Byte) s, r.ea = some a → P s → s.isRam a = true →
      P (s.setMem (Memory.write s.mem a.toNat v)))
    (ha : r.ea = none → ∀ v s, P s → P (s.setA v)) (v : Byte) {s : State} (h : P s) : (writeOperand r v s).All P := by
  unfold writeOperand
  split
  · rename_i ea he
    exact busWrite_all hlog hrun ea v (hmem ea v s he h) h
  · rename_i he
    exact ha he v s h

/-- A storing handler. -/
theorem storeByte_all (hlog : ∀ acc s, P s → P (s.log acc)) (hrun : ∀ f s, P s → P (s.setRun (.faulted f)))
    {r : Resolved} (hmem : ∀ (a : Addr) (v : Byte) s, r.ea = some a → P s → s.isRam a = true →
      P (s.setMem (Memory.write s.mem a.toNat v)))
    (ha : r.ea = none → ∀ v s, P s → P (s.setA v)) (value : State → Byte) {s : State} (h : P s) :
    (storeByte value r s).All P :=
  (writeOperand_all hlog hrun hmem ha _ h).bind fun _ _ h => h

/-- A read-modify-write handler. -/
theorem readModifyWrite_all (hlog : ∀ acc s, P s → P (s.log acc)) (hrun : ∀ f s, P s → P (s.setRun (.faulted f)))
    {r : Resolved} (hmem : ∀ (a : Addr) (v : Byte) s, r.ea = some a → P s → s.isRam a = true →
      P (s.setMem (Memory.write s.mem a.toNat v)))
    (ha : r.ea = none → ∀ v s, P s → P (s.setA v)) {change : Byte → State → Byte} {after : Byte → State → State}
    (hafter : ∀ v s, P s → P (after v s)) (o : Operand) {s : State} (h : P s) :
    (readModifyWrite o change after r s).All P :=
  (readOperand_all hlog hrun o r h).bind fun v _ h =>
    (writeOperand_all hlog hrun hmem ha _ h).bind fun _ _ h => hafter v _ h

/-- The raise of an undocumented opcode. -/
theorem unimplemented_all (hrun : ∀ f s, P s → P (s.setRun (.faulted f))) (i : Instr) {s : State} (h : P s) :
    (unimplemented i s).All P := hrun _ _ h

/-- `performUndoc` keeps what `perform` keeps, the handler counting only under `execute`. -/
theorem performUndoc_all (hlog : ∀ acc s, P s → P (s.log acc)) (hrun : ∀ f s, P s → P (s.setRun (.faulted f)))
    (hcyc : ∀ n s, P s → P (s.addCycles n)) {i : Instr} {handler : Resolved → State → Result Bool} {s t : State}
    (h : P s) (hh : ∀ r s, s.params.undocPolicy = .execute → P s → (handler r s).All P)
    (ht : performUndoc i handler s = .next t) : P t := by
  refine perform_all hlog hrun hcyc h (fun r s h => ?_) ht
  split
  · exact unimplemented_all hrun i h
  · rename_i hp; exact hh r s hp h

end Sys2Proof.Machine
end

