-- ==== Sys2Proof/Laws/Writes.lean ====
section
/-! SUPPORT. Everything an instruction can write, said once: a property of the state that survives those writes survives
the instruction (10_state.md R21 to R26, R36; 20_memory.md R66). -/

namespace Sys2Proof.Machine

/-- The instruction may write A; the second clause of each of these is about `UNDOC_POLICY = execute`. -/
def MayWriteA (i : Instr) (policy : UndocPolicy) : Prop :=
  i.mnemonic ∈ [.adc, .sbc, .and, .ora, .eor, .lda, .pla, .txa, .tya] ∨
  (i.mnemonic ∈ [.asl, .lsr, .rol, .ror] ∧ i.mode = .implicit) ∨
  (policy = .execute ∧ i.mnemonic ∈ [.slo, .rla, .sre, .rra, .lax, .isc, .anc, .alr, .arr, .las])

def MayWriteX (i : Instr) (policy : UndocPolicy) : Prop :=
  i.mnemonic ∈ [.ldx, .tax, .tsx, .inx, .dex] ∨ (policy = .execute ∧ i.mnemonic ∈ [.lax, .axs, .las])

def MayWriteY (i : Instr) : Prop := i.mnemonic ∈ [.ldy, .tay, .iny, .dey]

def MayWriteS (i : Instr) (policy : UndocPolicy) : Prop :=
  i.mnemonic ∈ [.pha, .php, .pla, .plp, .jsr, .rts, .rti, .brk, .txs] ∨
  (policy = .execute ∧ i.mnemonic ∈ [.tas, .las])

def MayWritePc (i : Instr) : Prop :=
  i.mnemonic ∈ [.bcc, .bcs, .beq, .bne, .bmi, .bpl, .bvc, .bvs, .jmp, .jsr, .rts, .rti, .brk]

def MayDraw (i : Instr) (policy : UndocPolicy) : Prop :=
  policy = .execute ∧ i.mnemonic ∈ [.lax, .ahx, .shy, .shx, .tas, .las]

def MayWriteC (i : Instr) (policy : UndocPolicy) : Prop :=
  i.mnemonic ∈ [.adc, .sbc, .asl, .lsr, .rol, .ror, .cmp, .cpx, .cpy, .clc, .sec, .plp, .rti] ∨
  (policy = .execute ∧ i.mnemonic ∈ [.slo, .rla, .sre, .rra, .dcp, .isc, .anc, .alr, .arr, .axs])

def MayWriteZN (i : Instr) (policy : UndocPolicy) : Prop :=
  i.mnemonic ∈ [.adc, .sbc, .and, .ora, .eor, .bit, .asl, .lsr, .rol, .ror, .cmp, .cpx, .cpy, .lda, .ldx, .ldy, .inc,
    .dec, .inx, .iny, .dex, .dey, .tax, .txa, .tay, .tya, .tsx, .pla, .plp, .rti] ∨
  (policy = .execute ∧
    i.mnemonic ∈ [.slo, .rla, .sre, .rra, .lax, .dcp, .isc, .anc, .alr, .arr, .axs, .las])

def MayWriteI (i : Instr) : Prop := i.mnemonic ∈ [.cli, .sei, .plp, .rti, .brk]

def MayWriteD (i : Instr) : Prop := i.mnemonic ∈ [.cld, .sed, .plp, .rti]

def MayWriteV (i : Instr) (policy : UndocPolicy) : Prop :=
  i.mnemonic ∈ [.adc, .sbc, .bit, .clv, .plp, .rti] ∨ (policy = .execute ∧ i.mnemonic ∈ [.rra, .isc, .arr])

/-- What an instruction may do to the status register: write flags of its own, and never make a legal status illegal. -/
structure FlagEffect (i : Instr) (policy : UndocPolicy) (p p' : Byte) : Prop where
  c : flagC p' ≠ flagC p → MayWriteC i policy
  z : flagZ p' ≠ flagZ p → MayWriteZN i policy
  n : flagN p' ≠ flagN p → MayWriteZN i policy
  int : flagI p' ≠ flagI p → MayWriteI i
  d : flagD p' ≠ flagD p → MayWriteD i
  v : flagV p' ≠ flagV p → MayWriteV i policy
  legal : LegalP p → LegalP p'

/-- The address an instruction may store at, in the state it starts in. -/
def MayStoreAt (i : Instr) (s : State) (a : Addr) : Prop :=
  (i.mnemonic ∈ [.sta, .stx, .sty, .inc, .dec, .asl, .lsr, .rol, .ror] ∧
    ∃ r u, resolve i.operand s = .done r u ∧ r.ea = some a) ∨
  (s.params.undocPolicy = .execute ∧
    i.mnemonic ∈ [.slo, .rla, .sre, .rra, .dcp, .isc, .sax, .shy, .shx, .tas] ∧
    ∃ r u, resolve i.operand s = .done r u ∧ r.ea = some a) ∨
  (s.params.undocPolicy = .execute ∧ i.mnemonic = .ahx ∧
    ∃ r u, resolve i.operand s = .done r u ∧ (ahxTarget r u).ea = some a) ∨
  (i.mnemonic ∈ [.pha, .php, .jsr, .brk] ∧ a = stackAddr s.sp) ∨
  (i.mnemonic ∈ [.jsr, .brk] ∧ a = stackAddr (s.sp - 1)) ∨
  (i.mnemonic = .brk ∧ a = stackAddr (s.sp - 2))

/-- A property of the state that survives every write `exec i s` can make. -/
structure Survives (P : State → Prop) (i : Instr) (s : State) : Prop where
  log : ∀ acc u, P u → P (u.log acc)
  run : ∀ f u, P u → P (u.setRun (.faulted f))
  cycles : ∀ n u, P u → P (u.addCycles n)
  a : MayWriteA i s.params.undocPolicy → ∀ v u, P u → P (u.setA v)
  x : MayWriteX i s.params.undocPolicy → ∀ v u, P u → P (u.setX v)
  y : MayWriteY i → ∀ v u, P u → P (u.setY v)
  sp : MayWriteS i s.params.undocPolicy → ∀ v u, P u → P (u.setSp v)
  pc : MayWritePc i → ∀ v u, P u → P (u.setPc v)
  p : ∀ p' u, FlagEffect i s.params.undocPolicy u.p p' → P u → P (u.setP p')
  free : MayDraw i s.params.undocPolicy → ∀ n u, P u → P (u.setFreeIndex n)
  mem : ∀ a v u, MayStoreAt i s a → P u → u.isRam a = true → P (u.setMem (Memory.write u.mem a.toNat v))

open Sys2Proof.Laws

variable {P : State → Prop} {i : Instr} {s t : State}

/-! ## The shapes of handler -/

/-- Steps 3 to 5 around a handler that keeps the property from the state the resolver ends in. -/
theorem perform_survives (h : Survives P i s) (hs : P s) {handler : Resolved → State → Result Bool}
    (hh : ∀ r u, resolve i.operand s = .done r u → P u → u.params = s.params → (handler r u).All P)
    (ht : perform i handler s = .next t) : P t := by
  obtain ⟨op, hop⟩ : ∃ op, opcodeOf i = some op := by
    cases hop : opcodeOf i with
    | some op => exact ⟨op, rfl⟩
    | none => simp [perform, tableEntry, hop] at ht
  rw [perform_eq hop] at ht
  have hP := resolve_all h.log h.run i.operand hs
  have hp : (resolve i.operand s).All fun u => u.params = s.params :=
    resolve_all (fun _ _ h => h) (fun _ _ h => h) i.operand rfl
  cases hr : resolve i.operand s with
  | raised f u => rw [hr] at ht hP; cases ht; exact hP
  | done r u =>
    rw [hr] at ht hP hp
    refine Result.All.of_next (Result.All.bind (hh r u hr hP hp) fun taken w hw => ?_) ht
    exact h.cycles (OpcodeEntry.cost (entryOf op) r.crossed taken) w hw

/-- The same for an undocumented mnemonic: its handler runs under `execute` alone. -/
theorem performUndoc_survives (h : Survives P i s) (hs : P s) {handler : Resolved → State → Result Bool}
    (hh : s.params.undocPolicy = .execute → ∀ r u, resolve i.operand s = .done r u → P u → (handler r u).All P)
    (ht : performUndoc i handler s = .next t) : P t := by
  refine perform_survives h hs (fun r u hr hu hp => ?_) ht
  split
  · exact h.run _ _ hu
  · rename_i hx; exact hh (by rw [← hp, hx]) r u hr hu

theorem read_survives (h : Survives P i s) (hs : P s) {o : Operand} {f : Byte → State → State}
    (hf : ∀ m u, P u → P (f m u)) (ht : perform i (readThen o f) s = .next t) : P t :=
  perform_survives h hs (fun r _ _ hu _ => readThen_all h.log h.run hf o r hu) ht

theorem undocRead_survives (h : Survives P i s) (hs : P s) {o : Operand} {f : Byte → State → State}
    (hf : s.params.undocPolicy = .execute → ∀ m u, P u → P (f m u))
    (ht : performUndoc i (readThen o f) s = .next t) : P t :=
  performUndoc_survives h hs (fun hx r _ _ hu => readThen_all h.log h.run (hf hx) o r hu) ht

theorem register_survives (h : Survives P i s) (hs : P s) {f : State → State} (hf : ∀ u, P u → P (f u))
    (ht : perform i (registerOnly f) s = .next t) : P t :=
  perform_survives h hs (fun r _ _ hu _ => registerOnly_all hf r hu) ht

theorem branch_survives (h : Survives P i s) (hs : P s) (hpc : MayWritePc i) {cond : Byte → Bool}
    (ht : perform i (branchIf cond) s = .next t) : P t :=
  perform_survives h hs (fun r _ _ hu _ => branchIf_all (h.pc hpc) cond r hu) ht

/-- A push, followed by statements that start with the stack pointer one lower. -/
theorem push_then_survives {β : Type} (h : Survives P i s) (hsp : MayWriteS i s.params.undocPolicy) {sp : Byte}
    (hat : MayStoreAt i s (stackAddr sp)) (v : Byte) {u : State} (hu : P u) (hus : u.sp = sp)
    {k : Unit → State → Result β} (hk : ∀ w, P w → w.sp = sp - 1 → (k () w).All P) :
    ((push v u).bind k).All P := by
  subst hus
  unfold push
  rcases busWrite_cases (stackAddr u.sp) v u with ⟨hr, e⟩ | ⟨-, e⟩ | ⟨-, e⟩ <;> rw [e]
  · exact hk _ (h.sp hsp _ _ (h.log _ _ (h.mem _ _ _ hat hu hr))) rfl
  · exact hk _ (h.sp hsp _ _ (h.log _ _ hu)) rfl
  · exact h.run _ _ hu

theorem pull_survives (h : Survives P i s) (hsp : MayWriteS i s.params.undocPolicy) {u : State} (hu : P u) :
    (pull u).All P := pull_all h.log h.run (h.sp hsp) hu

theorem store_survives (h : Survives P i s) (hat : ∀ r u a, resolve i.operand s = .done r u → r.ea = some a →
    MayStoreAt i s a) {r : Resolved} {u : State} (hr : resolve i.operand s = .done r u) (hne : r.ea ≠ none)
    (value : State → Byte) {w : State} (hw : P w) : (storeByte value r w).All P :=
  storeByte_all h.log h.run (fun a v u' ha hu' hram => h.mem a v u' (hat r u a hr ha) hu' hram)
    (fun hn => absurd hn hne) value hw

/-- What a read-modify-write writes, besides its store, is A for the accumulator form. -/
theorem modify_survives (h : Survives P i s) (hat : ∀ r u a, resolve i.operand s = .done r u → r.ea = some a →
    MayStoreAt i s a) {r : Resolved} {u : State} (hr : resolve i.operand s = .done r u)
    (ha : r.ea = none → MayWriteA i s.params.undocPolicy) {o : Operand} {change : Byte → State → Byte}
    {after : Byte → State → State} (hafter : ∀ v u, P u → P (after v u)) (hu : P u) :
    (readModifyWrite o change after r u).All P :=
  readModifyWrite_all h.log h.run (fun a v u' he hu' hram => h.mem a v u' (hat r u a hr he) hu' hram)
    (fun hn => h.a (ha hn)) hafter o hu

/-- The resolver answers the implicit marker for the implicit mode alone. -/
theorem ea_none_of_resolve {o : Operand} {r : Resolved} {u : State} (hr : resolve o s = .done r u)
    (hn : r.ea = none) : o = .implicit := by
  cases o <;> simp only [resolve, Result.bind_eq_done, Result.done.injEq] at hr <;>
    first
      | rfl
      | (obtain ⟨rfl, -⟩ := hr; simp [indexedFrom] at hn)
      | (obtain ⟨_, _, -, rfl, -⟩ := hr; simp [indexedFrom] at hn)

/-! ## The computations of the status register -/

variable {policy : UndocPolicy} {p : Byte}

theorem flagEffect_setZN (hz : MayWriteZN i policy) (v : Byte) : FlagEffect i policy p (setZN v p) :=
  ⟨by simp, fun _ => hz, fun _ => hz, by simp, by simp, by simp, by simp [LegalP]⟩

theorem flagEffect_setC (hc : MayWriteC i policy) (c : Bool) : FlagEffect i policy p (setC c p) :=
  ⟨fun _ => hc, by simp, by simp, by simp, by simp, by simp, by simp [LegalP]⟩

theorem flagEffect_setI (hi : MayWriteI i) (b : Bool) : FlagEffect i policy p (setI b p) :=
  ⟨by simp, by simp, by simp, fun _ => hi, by simp, by simp, by simp [LegalP]⟩

theorem flagEffect_setD (hd : MayWriteD i) (b : Bool) : FlagEffect i policy p (setD b p) :=
  ⟨by simp, by simp, by simp, by simp, fun _ => hd, by simp, by simp [LegalP]⟩

theorem flagEffect_setV (hv : MayWriteV i policy) (b : Bool) : FlagEffect i policy p (setV b p) :=
  ⟨by simp, by simp, by simp, by simp, by simp, fun _ => hv, by simp [LegalP]⟩

theorem FlagEffect.trans {q r : Byte} (h : FlagEffect i policy p q) (h' : FlagEffect i policy q r) :
    FlagEffect i policy p r where
  c hne := by by_cases e : flagC q = flagC p; exacts [h'.c (e ▸ hne), h.c e]
  z hne := by by_cases e : flagZ q = flagZ p; exacts [h'.z (e ▸ hne), h.z e]
  n hne := by by_cases e : flagN q = flagN p; exacts [h'.n (e ▸ hne), h.n e]
  int hne := by by_cases e : flagI q = flagI p; exacts [h'.int (e ▸ hne), h.int e]
  d hne := by by_cases e : flagD q = flagD p; exacts [h'.d (e ▸ hne), h.d e]
  v hne := by by_cases e : flagV q = flagV p; exacts [h'.v (e ▸ hne), h.v e]
  legal hl := h'.legal (h.legal hl)

theorem flagEffect_adcP (hc : MayWriteC i policy) (hv : MayWriteV i policy) (hz : MayWriteZN i policy) (a m : Byte) :
    FlagEffect i policy p (adcP a m p) :=
  ((flagEffect_setC hc _).trans (flagEffect_setV hv _)).trans (flagEffect_setZN hz _)

theorem flagEffect_sbcP (hc : MayWriteC i policy) (hv : MayWriteV i policy) (hz : MayWriteZN i policy) (a m : Byte) :
    FlagEffect i policy p (sbcP a m p) :=
  ((flagEffect_setC hc _).trans (flagEffect_setV hv _)).trans (flagEffect_setZN hz _)

theorem flagEffect_compareP (hc : MayWriteC i policy) (hz : MayWriteZN i policy) (a m : Byte) :
    FlagEffect i policy p (compareP a m p) := (flagEffect_setC hc _).trans (flagEffect_setZN hz _)

theorem flagEffect_shiftP (hc : MayWriteC i policy) (hz : MayWriteZN i policy) (r : Shifted) :
    FlagEffect i policy p (shiftP r p) := (flagEffect_setC hc _).trans (flagEffect_setZN hz _)

theorem flagEffect_arrP (hc : MayWriteC i policy) (hv : MayWriteV i policy) (hz : MayWriteZN i policy) (a : Byte) :
    FlagEffect i policy p (arrP a p) :=
  ((flagEffect_setC hc _).trans (flagEffect_setV hv _)).trans (flagEffect_setZN hz _)

theorem flagEffect_bitP (hv : MayWriteV i policy) (hz : MayWriteZN i policy) (a m : Byte) :
    FlagEffect i policy p (bitP a m p) := by
  refine ⟨?_, fun _ => hz, fun _ => hz, ?_, ?_, fun _ => hv, ?_⟩ <;> simp [bitP, LegalP]

theorem flagEffect_pulledP (hc : MayWriteC i policy) (hz : MayWriteZN i policy) (hi : MayWriteI i)
    (hd : MayWriteD i) (hv : MayWriteV i policy) (b : Byte) : FlagEffect i policy p (pulledP b) :=
  ⟨fun _ => hc, fun _ => hz, fun _ => hz, fun _ => hi, fun _ => hd, fun _ => hv, by simp [LegalP]⟩

/-! ## Every instruction -/

theorem Result.bind_assoc {α β γ : Type} (r : Result α) (k : α → State → Result β) (l : β → State → Result γ) :
    (r.bind k).bind l = r.bind fun v s => (k v s).bind l := by cases r <;> rfl

/-- Where no form of a mnemonic is implicit, the resolver answers an address. -/
theorem ea_ne_none {r : Resolved} {u : State} (ht : exec i s = .next t)
    (hm : i.mnemonic.modes.contains .implicit = false) (hr : resolve i.operand s = .done r u) : r.ea ≠ none := by
  intro hn
  obtain ⟨op, hop⟩ := opcodeOf_of_next ht
  have hw : i.wf = true := wf_of_opcodeOf hop
  have ho := ea_none_of_resolve hr hn
  simp only [Instr.wf, Bool.and_eq_true, Instr.mode, ho, Operand.mode] at hw
  rw [hm] at hw
  exact Bool.noConfusion hw.1

/-- A property that survives the writes of an instruction survives the instruction, whether or not a fault is raised.
  -/
theorem exec_survives (h : Survives P i s) (hs : P s) (ht : exec i s = .next t) : P t := by
  cases i with
  | adc o =>
    refine read_survives h hs (fun m u hu => ?_) ht
    exact h.p _ _ (flagEffect_adcP (.inl (by simp [Instr.mnemonic])) (.inl (by simp [Instr.mnemonic])) (.inl (by simp
      [Instr.mnemonic])) _ _) (h.a (.inl (by simp [Instr.mnemonic])) _ _ hu)
  | sbc o =>
    refine read_survives h hs (fun m u hu => ?_) ht
    exact h.p _ _ (flagEffect_sbcP (.inl (by simp [Instr.mnemonic])) (.inl (by simp [Instr.mnemonic])) (.inl (by simp
      [Instr.mnemonic])) _ _) (h.a (.inl (by simp [Instr.mnemonic])) _ _ hu)
  | sbcUndoc imm8 =>
    simp only [exec, execSbcUndoc] at ht
    refine read_survives h hs (fun m u hu => ?_) ht
    exact h.p _ _ (flagEffect_sbcP (.inl (by simp [Instr.mnemonic])) (.inl (by simp [Instr.mnemonic])) (.inl (by simp
      [Instr.mnemonic])) _ _) (h.a (.inl (by simp [Instr.mnemonic])) _ _ hu)
  | and o =>
    refine read_survives h hs (fun m u hu => ?_) ht
    exact h.p _ _ (flagEffect_setZN (.inl (by simp [Instr.mnemonic])) _) (h.a (.inl (by simp [Instr.mnemonic])) _ _
      hu)
  | ora o =>
    refine read_survives h hs (fun m u hu => ?_) ht
    exact h.p _ _ (flagEffect_setZN (.inl (by simp [Instr.mnemonic])) _) (h.a (.inl (by simp [Instr.mnemonic])) _ _
      hu)
  | eor o =>
    refine read_survives h hs (fun m u hu => ?_) ht
    exact h.p _ _ (flagEffect_setZN (.inl (by simp [Instr.mnemonic])) _) (h.a (.inl (by simp [Instr.mnemonic])) _ _
      hu)
  | bit o =>
    refine read_survives h hs (fun m u hu => ?_) ht
    exact h.p _ _ (flagEffect_bitP (.inl (by simp [Instr.mnemonic])) (.inl (by simp [Instr.mnemonic])) _ _) hu
  | asl o =>
    refine perform_survives h hs (fun r u hr hu _ => ?_) ht
    exact modify_survives h
      (fun r u a hr ha => .inl ⟨by simp [Instr.mnemonic], r, u, hr, ha⟩) hr
      (fun hn => .inr (.inl ⟨by simp [Instr.mnemonic], by
        rw [Instr.mode, ea_none_of_resolve hr hn]; rfl⟩))
      (fun v u hu => h.p _ _ (flagEffect_shiftP (.inl (by simp [Instr.mnemonic])) (.inl (by simp [Instr.mnemonic]))
        _) hu) hu
  | lsr o =>
    refine perform_survives h hs (fun r u hr hu _ => ?_) ht
    exact modify_survives h
      (fun r u a hr ha => .inl ⟨by simp [Instr.mnemonic], r, u, hr, ha⟩) hr
      (fun hn => .inr (.inl ⟨by simp [Instr.mnemonic], by
        rw [Instr.mode, ea_none_of_resolve hr hn]; rfl⟩))
      (fun v u hu => h.p _ _ (flagEffect_shiftP (.inl (by simp [Instr.mnemonic])) (.inl (by simp [Instr.mnemonic]))
        _) hu) hu
  | rol o =>
    refine perform_survives h hs (fun r u hr hu _ => ?_) ht
    exact modify_survives h
      (fun r u a hr ha => .inl ⟨by simp [Instr.mnemonic], r, u, hr, ha⟩) hr
      (fun hn => .inr (.inl ⟨by simp [Instr.mnemonic], by
        rw [Instr.mode, ea_none_of_resolve hr hn]; rfl⟩))
      (fun v u hu => h.p _ _ (flagEffect_shiftP (.inl (by simp [Instr.mnemonic])) (.inl (by simp [Instr.mnemonic]))
        _) hu) hu
  | ror o =>
    refine perform_survives h hs (fun r u hr hu _ => ?_) ht
    exact modify_survives h
      (fun r u a hr ha => .inl ⟨by simp [Instr.mnemonic], r, u, hr, ha⟩) hr
      (fun hn => .inr (.inl ⟨by simp [Instr.mnemonic], by
        rw [Instr.mode, ea_none_of_resolve hr hn]; rfl⟩))
      (fun v u hu => h.p _ _ (flagEffect_shiftP (.inl (by simp [Instr.mnemonic])) (.inl (by simp [Instr.mnemonic]))
        _) hu) hu
  | cmp o =>
    refine read_survives h hs (fun m u hu => ?_) ht
    exact h.p _ _ (flagEffect_compareP (.inl (by simp [Instr.mnemonic])) (.inl (by simp [Instr.mnemonic])) _ _) hu
  | cpx o =>
    refine read_survives h hs (fun m u hu => ?_) ht
    exact h.p _ _ (flagEffect_compareP (.inl (by simp [Instr.mnemonic])) (.inl (by simp [Instr.mnemonic])) _ _) hu
  | cpy o =>
    refine read_survives h hs (fun m u hu => ?_) ht
    exact h.p _ _ (flagEffect_compareP (.inl (by simp [Instr.mnemonic])) (.inl (by simp [Instr.mnemonic])) _ _) hu
  | bcc rel8 =>
    exact branch_survives h hs (by simp [MayWritePc, Instr.mnemonic]) ht
  | bcs rel8 =>
    exact branch_survives h hs (by simp [MayWritePc, Instr.mnemonic]) ht
  | beq rel8 =>
    exact branch_survives h hs (by simp [MayWritePc, Instr.mnemonic]) ht
  | bne rel8 =>
    exact branch_survives h hs (by simp [MayWritePc, Instr.mnemonic]) ht
  | bmi rel8 =>
    exact branch_survives h hs (by simp [MayWritePc, Instr.mnemonic]) ht
  | bpl rel8 =>
    exact branch_survives h hs (by simp [MayWritePc, Instr.mnemonic]) ht
  | bvc rel8 =>
    exact branch_survives h hs (by simp [MayWritePc, Instr.mnemonic]) ht
  | bvs rel8 =>
    exact branch_survives h hs (by simp [MayWritePc, Instr.mnemonic]) ht
  | pha =>
    refine perform_survives h hs (fun r u hr hu _ => ?_) ht
    obtain rfl : s = u := by cases hr; rfl
    exact push_then_survives h (.inl (by simp [Instr.mnemonic])) (.inr (.inr (.inr (.inl ⟨by simp [Instr.mnemonic],
      rfl⟩)))) _ hu rfl (fun w hw _ => hw)
  | php =>
    refine perform_survives h hs (fun r u hr hu _ => ?_) ht
    obtain rfl : s = u := by cases hr; rfl
    exact push_then_survives h (.inl (by simp [Instr.mnemonic])) (.inr (.inr (.inr (.inl ⟨by simp [Instr.mnemonic],
      rfl⟩)))) _ hu rfl (fun w hw _ => hw)
  | pla =>
    refine perform_survives h hs (fun r u hr hu _ => ?_) ht
    exact (pull_survives h (.inl (by simp [Instr.mnemonic])) hu).bind fun v w hw =>
      h.p _ _ (flagEffect_setZN (.inl (by simp [Instr.mnemonic])) _) (h.a (.inl (by simp [Instr.mnemonic])) _ _ hw)
  | plp =>
    refine perform_survives h hs (fun r u hr hu _ => ?_) ht
    exact (pull_survives h (.inl (by simp [Instr.mnemonic])) hu).bind fun v w hw =>
      h.p _ _ (flagEffect_pulledP (.inl (by simp [Instr.mnemonic])) (.inl (by simp [Instr.mnemonic])) (by simp
        [MayWriteI, Instr.mnemonic]) (by simp [MayWriteD, Instr.mnemonic]) (.inl (by simp [Instr.mnemonic])) _) hw
  | jsr addr16 =>
    refine perform_survives h hs (fun r u hr hu _ => ?_) ht
    obtain rfl : s = u := by cases hr; rfl
    unfold push16
    rw [Result.bind_assoc]
    exact push_then_survives h (.inl (by simp [Instr.mnemonic])) (.inr (.inr (.inr (.inl ⟨by simp [Instr.mnemonic],
      rfl⟩)))) _ hu rfl fun w hw hwsp =>
      push_then_survives h (.inl (by simp [Instr.mnemonic])) (.inr (.inr (.inr (.inr (.inl ⟨by simp [Instr.mnemonic],
        rfl⟩))))) _ hw hwsp fun w hw _ => jumpTo_keeps (h.pc (by simp [MayWritePc, Instr.mnemonic])) r hw
  | rts =>
    refine perform_survives h hs (fun r u hr hu _ => ?_) ht
    exact (pull16_all h.log h.run (h.sp (.inl (by simp [Instr.mnemonic]))) hu).bind fun v w hw =>
      h.pc (by simp [MayWritePc, Instr.mnemonic]) _ _ hw
  | rti =>
    refine perform_survives h hs (fun r u hr hu _ => ?_) ht
    exact (returnFromException_all h.log h.run (h.sp (.inl (by simp [Instr.mnemonic])))
      (fun b u hu => h.p _ _ (flagEffect_pulledP (.inl (by simp [Instr.mnemonic])) (.inl (by simp [Instr.mnemonic]))
        (by simp [MayWriteI, Instr.mnemonic]) (by simp [MayWriteD, Instr.mnemonic]) (.inl (by simp [Instr.mnemonic]))
        _) hu) (h.pc (by simp [MayWritePc, Instr.mnemonic])) hu).bind fun v w hw => hw
  | jmp o =>
    refine perform_survives h hs (fun r u hr hu _ => ?_) ht
    exact jumpTo_keeps (h.pc (by simp [MayWritePc, Instr.mnemonic])) r hu
  | brk =>
    refine perform_survives h hs (fun r u hr hu _ => ?_) ht
    obtain rfl : s = u := by cases hr; rfl
    unfold enterException push16
    simp only [Result.bind_assoc]
    have hu' := h.pc (by simp [MayWritePc, Instr.mnemonic]) (s.pc + brkPadding s) _ hu
    refine push_then_survives h (sp := s.sp) (.inl (by simp [Instr.mnemonic])) (.inr (.inr (.inr (.inl ⟨by simp
      [Instr.mnemonic], rfl⟩)))) _ hu' rfl fun w hw hwsp => ?_
    refine push_then_survives h (.inl (by simp [Instr.mnemonic])) (.inr (.inr (.inr (.inr (.inl ⟨by simp
      [Instr.mnemonic], rfl⟩))))) _ hw hwsp fun w hw hwsp => ?_
    refine push_then_survives h (.inl (by simp [Instr.mnemonic])) (.inr (.inr (.inr (.inr (.inr ⟨rfl, rfl⟩))))) _ hw
      (by rw [hwsp]; exact sub_one_sub_one _) fun w hw _ => ?_
    have hi : ∀ v, P v → P (v.setP (setI true v.p)) := fun v hv =>
      h.p _ _ (flagEffect_setI (by simp [MayWriteI, Instr.mnemonic]) _) hv
    exact (memRead16_all h.log h.run _ (hi _ hw)).bind fun v w hw =>
      h.pc (by simp [MayWritePc, Instr.mnemonic]) _ _ (hi _ hw)
  | tax =>
    simp only [exec, execTax] at ht
    refine register_survives h hs (fun u hu => ?_) ht
    exact h.p _ _ (flagEffect_setZN (.inl (by simp [Instr.mnemonic])) _) (h.x (.inl (by simp [Instr.mnemonic])) _ _
      hu)
  | txa =>
    simp only [exec, execTxa] at ht
    refine register_survives h hs (fun u hu => ?_) ht
    exact h.p _ _ (flagEffect_setZN (.inl (by simp [Instr.mnemonic])) _) (h.a (.inl (by simp [Instr.mnemonic])) _ _
      hu)
  | tay =>
    simp only [exec, execTay] at ht
    refine register_survives h hs (fun u hu => ?_) ht
    exact h.p _ _ (flagEffect_setZN (.inl (by simp [Instr.mnemonic])) _) (h.y (by simp [MayWriteY, Instr.mnemonic]) _
      _ hu)
  | tya =>
    simp only [exec, execTya] at ht
    refine register_survives h hs (fun u hu => ?_) ht
    exact h.p _ _ (flagEffect_setZN (.inl (by simp [Instr.mnemonic])) _) (h.a (.inl (by simp [Instr.mnemonic])) _ _
      hu)
  | tsx =>
    simp only [exec, execTsx] at ht
    refine register_survives h hs (fun u hu => ?_) ht
    exact h.p _ _ (flagEffect_setZN (.inl (by simp [Instr.mnemonic])) _) (h.x (.inl (by simp [Instr.mnemonic])) _ _
      hu)
  | txs =>
    simp only [exec, execTxs] at ht
    refine register_survives h hs (fun u hu => ?_) ht
    exact h.sp (.inl (by simp [Instr.mnemonic])) _ _ hu
  | clc =>
    simp only [exec, execClc] at ht
    refine register_survives h hs (fun u hu => ?_) ht
    exact h.p _ _ (flagEffect_setC (.inl (by simp [Instr.mnemonic])) _) hu
  | sec =>
    simp only [exec, execSec] at ht
    refine register_survives h hs (fun u hu => ?_) ht
    exact h.p _ _ (flagEffect_setC (.inl (by simp [Instr.mnemonic])) _) hu
  | cli =>
    simp only [exec, execCli] at ht
    refine register_survives h hs (fun u hu => ?_) ht
    exact h.p _ _ (flagEffect_setI (by simp [MayWriteI, Instr.mnemonic]) _) hu
  | sei =>
    simp only [exec, execSei] at ht
    refine register_survives h hs (fun u hu => ?_) ht
    exact h.p _ _ (flagEffect_setI (by simp [MayWriteI, Instr.mnemonic]) _) hu
  | cld =>
    simp only [exec, execCld] at ht
    refine register_survives h hs (fun u hu => ?_) ht
    exact h.p _ _ (flagEffect_setD (by simp [MayWriteD, Instr.mnemonic]) _) hu
  | sed =>
    simp only [exec, execSed] at ht
    refine register_survives h hs (fun u hu => ?_) ht
    exact h.p _ _ (flagEffect_setD (by simp [MayWriteD, Instr.mnemonic]) _) hu
  | clv =>
    simp only [exec, execClv] at ht
    refine register_survives h hs (fun u hu => ?_) ht
    exact h.p _ _ (flagEffect_setV (.inl (by simp [Instr.mnemonic])) _) hu
  | nop =>
    simp only [exec, execNop] at ht
    refine register_survives h hs (fun u hu => ?_) ht
    exact hu
  | nopUndoc opcode o =>
    refine register_survives h hs (fun u hu => ?_) ht
    exact hu
  | lda o =>
    refine read_survives h hs (fun m u hu => ?_) ht
    exact h.p _ _ (flagEffect_setZN (.inl (by simp [Instr.mnemonic])) _) (h.a (.inl (by simp [Instr.mnemonic])) _ _
      hu)
  | ldx o =>
    refine read_survives h hs (fun m u hu => ?_) ht
    exact h.p _ _ (flagEffect_setZN (.inl (by simp [Instr.mnemonic])) _) (h.x (.inl (by simp [Instr.mnemonic])) _ _
      hu)
  | ldy o =>
    refine read_survives h hs (fun m u hu => ?_) ht
    exact h.p _ _ (flagEffect_setZN (.inl (by simp [Instr.mnemonic])) _) (h.y (by simp [MayWriteY, Instr.mnemonic]) _
      _ hu)
  | sta o =>
    refine perform_survives h hs (fun r u hr hu _ => ?_) ht
    exact store_survives h
      (fun r u a hr ha => .inl ⟨by simp [Instr.mnemonic], r, u, hr, ha⟩) hr (ea_ne_none ht rfl hr) _ hu
  | stx o =>
    refine perform_survives h hs (fun r u hr hu _ => ?_) ht
    exact store_survives h
      (fun r u a hr ha => .inl ⟨by simp [Instr.mnemonic], r, u, hr, ha⟩) hr (ea_ne_none ht rfl hr) _ hu
  | sty o =>
    refine perform_survives h hs (fun r u hr hu _ => ?_) ht
    exact store_survives h
      (fun r u a hr ha => .inl ⟨by simp [Instr.mnemonic], r, u, hr, ha⟩) hr (ea_ne_none ht rfl hr) _ hu
  | inc o =>
    refine perform_survives h hs (fun r u hr hu _ => ?_) ht
    exact modify_survives h
      (fun r u a hr ha => .inl ⟨by simp [Instr.mnemonic], r, u, hr, ha⟩) hr
      (fun hn => absurd hn (ea_ne_none ht rfl hr)) (fun v u hu => h.p _ _ (flagEffect_setZN (.inl (by simp
        [Instr.mnemonic])) _) hu) hu
  | dec o =>
    refine perform_survives h hs (fun r u hr hu _ => ?_) ht
    exact modify_survives h
      (fun r u a hr ha => .inl ⟨by simp [Instr.mnemonic], r, u, hr, ha⟩) hr
      (fun hn => absurd hn (ea_ne_none ht rfl hr)) (fun v u hu => h.p _ _ (flagEffect_setZN (.inl (by simp
        [Instr.mnemonic])) _) hu) hu
  | inx =>
    simp only [exec, execInx] at ht
    refine register_survives h hs (fun u hu => ?_) ht
    exact h.p _ _ (flagEffect_setZN (.inl (by simp [Instr.mnemonic])) _) (h.x (.inl (by simp [Instr.mnemonic])) _ _
      hu)
  | iny =>
    simp only [exec, execIny] at ht
    refine register_survives h hs (fun u hu => ?_) ht
    exact h.p _ _ (flagEffect_setZN (.inl (by simp [Instr.mnemonic])) _) (h.y (by simp [MayWriteY, Instr.mnemonic]) _
      _ hu)
  | dex =>
    simp only [exec, execDex] at ht
    refine register_survives h hs (fun u hu => ?_) ht
    exact h.p _ _ (flagEffect_setZN (.inl (by simp [Instr.mnemonic])) _) (h.x (.inl (by simp [Instr.mnemonic])) _ _
      hu)
  | dey =>
    simp only [exec, execDey] at ht
    refine register_survives h hs (fun u hu => ?_) ht
    exact h.p _ _ (flagEffect_setZN (.inl (by simp [Instr.mnemonic])) _) (h.y (by simp [MayWriteY, Instr.mnemonic]) _
      _ hu)
  | kil opcode =>
    refine perform_survives h hs (fun r u hr hu _ => ?_) ht
    exact h.run _ _ hu
  | slo o =>
    refine performUndoc_survives h hs (fun hx r u hr hu => ?_) ht
    exact modify_survives h
      (fun r u a hr ha => .inr (.inl ⟨hx, by simp [Instr.mnemonic], r, u, hr, ha⟩)) hr (fun hn => absurd hn
        (ea_ne_none ht rfl hr))
      (fun v u hu => h.p _ _ ((flagEffect_setC (.inr ⟨hx, by simp [Instr.mnemonic]⟩) _).trans (flagEffect_setZN (.inr
        ⟨hx, by simp [Instr.mnemonic]⟩) _)) (h.a (.inr (.inr ⟨hx, by simp [Instr.mnemonic]⟩)) _ _ hu)) hu
  | rla o =>
    refine performUndoc_survives h hs (fun hx r u hr hu => ?_) ht
    exact modify_survives h
      (fun r u a hr ha => .inr (.inl ⟨hx, by simp [Instr.mnemonic], r, u, hr, ha⟩)) hr (fun hn => absurd hn
        (ea_ne_none ht rfl hr))
      (fun v u hu => h.p _ _ ((flagEffect_setC (.inr ⟨hx, by simp [Instr.mnemonic]⟩) _).trans (flagEffect_setZN (.inr
        ⟨hx, by simp [Instr.mnemonic]⟩) _)) (h.a (.inr (.inr ⟨hx, by simp [Instr.mnemonic]⟩)) _ _ hu)) hu
  | sre o =>
    refine performUndoc_survives h hs (fun hx r u hr hu => ?_) ht
    exact modify_survives h
      (fun r u a hr ha => .inr (.inl ⟨hx, by simp [Instr.mnemonic], r, u, hr, ha⟩)) hr (fun hn => absurd hn
        (ea_ne_none ht rfl hr))
      (fun v u hu => h.p _ _ ((flagEffect_setC (.inr ⟨hx, by simp [Instr.mnemonic]⟩) _).trans (flagEffect_setZN (.inr
        ⟨hx, by simp [Instr.mnemonic]⟩) _)) (h.a (.inr (.inr ⟨hx, by simp [Instr.mnemonic]⟩)) _ _ hu)) hu
  | rra o =>
    refine performUndoc_survives h hs (fun hx r u hr hu => ?_) ht
    exact modify_survives h
      (fun r u a hr ha => .inr (.inl ⟨hx, by simp [Instr.mnemonic], r, u, hr, ha⟩)) hr (fun hn => absurd hn
        (ea_ne_none ht rfl hr))
      (fun v u hu => h.p _ _ (flagEffect_adcP (.inr ⟨hx, by simp [Instr.mnemonic]⟩) (.inr ⟨hx, by simp
        [Instr.mnemonic]⟩) (.inr ⟨hx, by simp [Instr.mnemonic]⟩) _ _) (h.a (.inr (.inr ⟨hx, by simp
        [Instr.mnemonic]⟩)) _ _ (h.p _ _ (flagEffect_shiftP (.inr ⟨hx, by simp [Instr.mnemonic]⟩) (.inr ⟨hx, by simp
        [Instr.mnemonic]⟩) _) hu))) hu
  | sax o =>
    refine performUndoc_survives h hs (fun hx r u hr hu => ?_) ht
    exact store_survives h
      (fun r u a hr ha => .inr (.inl ⟨hx, by simp [Instr.mnemonic], r, u, hr, ha⟩)) hr (ea_ne_none ht rfl hr) _ hu
  | lax o =>
    refine undocRead_survives h hs (fun hx m u hu => ?_) ht
    unfold laxEffect
    split
    · exact h.p _ _ (flagEffect_setZN (.inr ⟨hx, by simp [Instr.mnemonic]⟩) _) (h.x (.inr ⟨hx, by simp
      [Instr.mnemonic]⟩) _ _ (h.a (.inr (.inr ⟨hx, by simp [Instr.mnemonic]⟩)) _ _ (h.free ⟨hx, by simp
      [Instr.mnemonic]⟩ _ _ hu)))
    · exact h.p _ _ (flagEffect_setZN (.inr ⟨hx, by simp [Instr.mnemonic]⟩) _) (h.x (.inr ⟨hx, by simp
      [Instr.mnemonic]⟩) _ _ (h.a (.inr (.inr ⟨hx, by simp [Instr.mnemonic]⟩)) _ _ hu))
  | dcp o =>
    refine performUndoc_survives h hs (fun hx r u hr hu => ?_) ht
    exact modify_survives h
      (fun r u a hr ha => .inr (.inl ⟨hx, by simp [Instr.mnemonic], r, u, hr, ha⟩)) hr (fun hn => absurd hn
        (ea_ne_none ht rfl hr))
      (fun v u hu => h.p _ _ (flagEffect_compareP (.inr ⟨hx, by simp [Instr.mnemonic]⟩) (.inr ⟨hx, by simp
        [Instr.mnemonic]⟩) _ _) hu) hu
  | isc o =>
    refine performUndoc_survives h hs (fun hx r u hr hu => ?_) ht
    exact modify_survives h
      (fun r u a hr ha => .inr (.inl ⟨hx, by simp [Instr.mnemonic], r, u, hr, ha⟩)) hr (fun hn => absurd hn
        (ea_ne_none ht rfl hr))
      (fun v u hu => h.p _ _ (flagEffect_sbcP (.inr ⟨hx, by simp [Instr.mnemonic]⟩) (.inr ⟨hx, by simp
        [Instr.mnemonic]⟩) (.inr ⟨hx, by simp [Instr.mnemonic]⟩) _ _) (h.a (.inr (.inr ⟨hx, by simp
        [Instr.mnemonic]⟩)) _ _ hu)) hu
  | anc opcode imm8 =>
    refine undocRead_survives h hs (fun hx m u hu => ?_) ht
    exact h.p _ _ ((flagEffect_setZN (.inr ⟨hx, by simp [Instr.mnemonic]⟩) _).trans (flagEffect_setC (.inr ⟨hx, by
      simp [Instr.mnemonic]⟩) _)) (h.a (.inr (.inr ⟨hx, by simp [Instr.mnemonic]⟩)) _ _ hu)
  | alr imm8 =>
    refine undocRead_survives h hs (fun hx m u hu => ?_) ht
    exact h.p _ _ (flagEffect_shiftP (.inr ⟨hx, by simp [Instr.mnemonic]⟩) (.inr ⟨hx, by simp [Instr.mnemonic]⟩) _)
      (h.a (.inr (.inr ⟨hx, by simp [Instr.mnemonic]⟩)) _ _ hu)
  | arr imm8 =>
    refine undocRead_survives h hs (fun hx m u hu => ?_) ht
    exact h.p _ _ (flagEffect_arrP (.inr ⟨hx, by simp [Instr.mnemonic]⟩) (.inr ⟨hx, by simp [Instr.mnemonic]⟩) (.inr
      ⟨hx, by simp [Instr.mnemonic]⟩) _) (h.a (.inr (.inr ⟨hx, by simp [Instr.mnemonic]⟩)) _ _ hu)
  | xaa imm8 =>
    simp only [exec, execXaa] at ht
    refine perform_survives h hs (fun r u hr hu _ => ?_) ht
    exact h.run _ _ hu
  | axs imm8 =>
    refine undocRead_survives h hs (fun hx m u hu => ?_) ht
    exact h.p _ _ (flagEffect_compareP (.inr ⟨hx, by simp [Instr.mnemonic]⟩) (.inr ⟨hx, by simp [Instr.mnemonic]⟩) _
      _) (h.x (.inr ⟨hx, by simp [Instr.mnemonic]⟩) _ _ hu)
  | ahx o =>
    refine performUndoc_survives h hs (fun hx r u hr hu => ?_) ht
    refine storeByte_all h.log h.run (fun a v w ha hw hram => h.mem a v w
      (.inr (.inr (.inl ⟨hx, rfl, r, u, hr, ha⟩))) hw hram) (fun hn => ?_) _ (h.free ⟨hx, by simp [Instr.mnemonic]⟩ _
        _ (h.free ⟨hx, by simp [Instr.mnemonic]⟩ _ _ hu))
    refine absurd ?_ (ea_ne_none ht rfl hr)
    unfold ahxTarget at hn
    split at hn
    · split at hn
      · cases hn
      · exact hn
    · assumption
  | shy addr16 =>
    refine performUndoc_survives h hs (fun hx r u hr hu => ?_) ht
    exact store_survives h
      (fun r u a hr ha => .inr (.inl ⟨hx, by simp [Instr.mnemonic], r, u, hr, ha⟩)) hr (ea_ne_none ht rfl hr) _
        (h.free ⟨hx, by simp [Instr.mnemonic]⟩ _ _ hu)
  | shx addr16 =>
    refine performUndoc_survives h hs (fun hx r u hr hu => ?_) ht
    exact store_survives h
      (fun r u a hr ha => .inr (.inl ⟨hx, by simp [Instr.mnemonic], r, u, hr, ha⟩)) hr (ea_ne_none ht rfl hr) _
        (h.free ⟨hx, by simp [Instr.mnemonic]⟩ _ _ hu)
  | tas addr16 =>
    refine performUndoc_survives h hs (fun hx r u hr hu => ?_) ht
    exact store_survives h
      (fun r u a hr ha => .inr (.inl ⟨hx, by simp [Instr.mnemonic], r, u, hr, ha⟩)) hr (ea_ne_none ht rfl hr) _
        (h.free ⟨hx, by simp [Instr.mnemonic]⟩ _ _ (h.sp (.inr ⟨hx, by simp [Instr.mnemonic]⟩) _ _ hu))
  | las addr16 =>
    refine undocRead_survives h hs (fun hx m u hu => ?_) ht
    exact h.sp (.inr ⟨hx, by simp [Instr.mnemonic]⟩) _ _ (h.p _ _ (flagEffect_setZN (.inr ⟨hx, by simp
      [Instr.mnemonic]⟩) _) (h.x (.inr ⟨hx, by simp [Instr.mnemonic]⟩) _ _ (h.a (.inr (.inr ⟨hx, by simp
      [Instr.mnemonic]⟩)) _ _ (h.free ⟨hx, by simp [Instr.mnemonic]⟩ _ _ hu))))

/-! ## Every step -/

/-- Fetching keeps what an access and a write of PC keep. -/
theorem fetchInstr_all (hlog : ∀ acc u, P u → P (u.log acc)) (hrun : ∀ f u, P u → P (u.setRun (.faulted f)))
    (hpc : ∀ v u, P u → P (u.setPc v)) (hs : P s) : (fetchInstr s).All P := by
  have hf : ∀ u, P u → (fetch8 u).All P := fun u hu => (busRead_all hlog hrun _ hu).bind fun _ w hw => hpc _ w hw
  refine (hf s hs).bind fun opcode u hu => ?_
  unfold fetchOperands
  split
  · refine Result.All.bind ?_ fun _ _ hw => hw
    unfold fetchImmediate
    split
    · exact busRead_all hlog hrun _ (hpc _ _ hu)
    · exact hpc _ _ hu
  · split
    · exact hu
    · exact (hf _ hu).bind fun _ _ hw => hw
    · exact (hf _ hu).bind fun _ _ hw => (hf _ hw).bind fun _ _ hv => hv

/-- An interrupt entry keeps what its writes keep. -/
theorem interruptEntry_survives (hlog : ∀ acc u, P u → P (u.log acc))
    (hrun : ∀ f u, P u → P (u.setRun (.faulted f))) (hcyc : ∀ n u, P u → P (u.addCycles n))
    (hsp : ∀ v u, P u → P (u.setSp v)) (hpc : ∀ v u, P u → P (u.setPc v))
    (hp : ∀ u, P u → P (u.setP (setI true u.p))) (hnmi : ∀ u, P u → P (u.setNmiPending false))
    (hmem : ∀ (a : Addr) v u, P u → u.isRam a = true → P (u.setMem (Memory.write u.mem a.toNat v)))
    {kind : InterruptKind} (hs : P s) (ht : interruptEntry kind s = .next t) : P t := by
  unfold interruptEntry at ht
  split at ht
  · cases ht
  · have hs' : P (kind.acknowledge s) := by cases kind; exacts [hnmi s hs, hs]
    refine Result.All.of_next (Result.All.bind (enterException_all hlog hrun hsp hmem hp hpc _ _ hs')
      fun _ u hu => ?_) ht
    exact hcyc u.params.intCycles u hu

/-- A step is an interrupt entry, an instruction, or a fetch that raised a fault. -/
theorem step_cases (h : step s = .next t) :
    s.run = .running ∧ ((∃ kind, interruptEntry kind s = .next t) ∨
      (∃ i u, fetchInstr s = .done i u ∧ exec i u = .next t) ∨ ∃ f, fetchInstr s = .raised f t) := by
  unfold step advance arbitrate at h
  cases hr : s.run with
  | faulted f => rw [hr] at h; cases h
  | running =>
    rw [hr] at h
    refine ⟨rfl, ?_⟩
    by_cases hn : s.nmiPending = true
    · simp only [hn, if_true] at h; exact .inl ⟨_, h⟩
    · by_cases hi : (s.irqLine && !flagI s.p) = true
      · simp only [hn, hi, if_true, Bool.false_eq_true, if_false] at h; exact .inl ⟨_, h⟩
      · simp only [hn, hi, Bool.false_eq_true, if_false, runInstruction] at h
        cases hf : fetchInstr s with
        | done i u => rw [hf] at h; exact .inr (.inl ⟨i, u, rfl, h⟩)
        | raised f u => rw [hf] at h; cases h; exact .inr (.inr ⟨f, rfl⟩)

end Sys2Proof.Machine
end

