-- ==== Sys2Proof/Tests/Slice0.lean ====
section
/-! SUPPORT. Tests and witnesses. The step tests are single-step vectors of 95_test_vectors.md and
96_test_vectors_by_family.md (start: PC 0x0600, S 0xFD, P 0x24, FlatRAM) or, where the spec has none, hand calculation
from the rule named; the decode words are written out from the encodings tables of files 41 to 49. -/

namespace Sys2Proof.Tests

open Sys2Proof Sys2Proof.Machine

/-! ## Helpers -/

/-- The start state of the spec's vectors (95 section 0). -/
def base : State := { State.reset with pc := 0x0600, busLog := [] }

/-- The same under `UNDOC_POLICY = execute`. -/
def baseExecute : State := { base with params := { Params.default with undocPolicy := .execute } }

def poke (s : State) (cell : Addr × Byte) : State := { s with mem := Memory.write s.mem cell.1.toNat cell.2 }

/-- A state with bytes in memory and an instruction at PC. -/
def start (code : List Byte) (cells : List (Addr × Byte)) (s : State) : State :=
  (code.zipIdx.map fun c => (s.pc + BitVec.ofNat 16 c.2, c.1)).foldl poke (cells.foldl poke s)

/-- A state on a bus of its own. -/
def onBus (regions : List Region) (s : State) : State := { s with busMap := regions }

/-- RAM below 0x8000 and nothing above it. -/
def lowRam : List Region := [⟨0x0000#16, 0x7FFF#16, .ram⟩]

/-- Everything but one address is RAM. -/
def ramBut (a : Addr) : List Region := [⟨0x0000#16, a - 1, .ram⟩, ⟨a + 1, 0xFFFF#16, .ram⟩]

def nextOf : Host.Outcome State Fault Refusal → Option State
  | .next t => some t
  | .fault _ => none
  | .refused _ => none

/-- What a vector lists after a step: the registers, the bytes at addresses and the value returned. -/
structure Seen where
  pc : Addr
  a : Byte
  x : Byte
  y : Byte
  sp : Byte
  p : Byte
  bytes : List Byte
  result : Returned
  deriving DecidableEq, Repr

def seen (s : State) (addrs : List Addr) : Option Seen :=
  (nextOf (step s)).map fun t => ⟨t.pc, t.a, t.x, t.y, t.sp, t.p, addrs.map t.peek, returned s t⟩

/-- A next state with a property the kernel evaluated. -/
theorem exists_next {o : Host.Outcome State Fault Refusal} {q : State → Bool} (h : (nextOf o).any q = true) :
    ∃ t, o = .next t ∧ q t = true := by
  cases o with
  | next t => exact ⟨t, rfl, h⟩
  | fault f => cases h
  | refused r => cases h

/-! ## WellFormed refuses ill-formed terms, one for each check -/

/-- A mode the mnemonic lacks: a store to an immediate, a load of the accumulator form, JMP with an index. -/
theorem test_wf_refuses_missing_mode :
    ¬ WellFormed (.sta (.immediate 0x00)) ∧ ¬ WellFormed (.lda .implicit) ∧ ¬ WellFormed (.jmp (.absoluteX 0x0000)) ∧
    ¬ WellFormed (.stx (.zeroPageX 0x00)) ∧ ¬ WellFormed (.asl (.absoluteY 0x0000)) ∧
    ¬ WellFormed (.lax (.absoluteX 0x0000)) := by decide

/-- An opcode byte that is not one of the mnemonic's. -/
theorem test_wf_refuses_wrong_opcode_byte :
    ¬ WellFormed (.kil 0x03) ∧ ¬ WellFormed (.anc 0x1B 0x00) ∧ ¬ WellFormed (.nopUndoc 0xEA .implicit) := by decide

/-- A NOP byte with the operand of another NOP byte. -/
theorem test_wf_refuses_nop_byte_of_other_mode :
    ¬ WellFormed (.nopUndoc 0x04 (.absolute 0x0004)) ∧ ¬ WellFormed (.nopUndoc 0x1A (.immediate 0x00)) := by decide

/-- What is refused has no bytes and no meaning. -/
theorem test_ill_formed_is_refused :
    encode (.sta (.immediate 0x00)) = none ∧ nextOf (exec (.sta (.immediate 0x00)) base) = none ∧
    encode (.kil 0x03) = none ∧ nextOf (exec (.kil 0x03) base) = none := by decide

/-! ## Decoding: every constructor by a word written out from its encodings table -/

theorem test_decode_arithmetic :
    decodeTableWord 16 0x1061 = some (.adc (.indexedIndirect 0x10)) ∧
    decodeTableWord 24 0x12347D = some (.adc (.absoluteX 0x1234)) ∧
    decodeTableWord 16 0x40E9 = some (.sbc (.immediate 0x40)) ∧
    decodeTableWord 16 0x20F1 = some (.sbc (.indirectIndexed 0x20)) ∧
    decodeTableWord 16 0x40EB = some (.sbcUndoc 0x40) := by decide

theorem test_decode_logical :
    decodeTableWord 24 0x123439 = some (.and (.absoluteY 0x1234)) ∧
    decodeTableWord 16 0x1015 = some (.ora (.zeroPageX 0x10)) ∧
    decodeTableWord 24 0x12344D = some (.eor (.absolute 0x1234)) ∧
    decodeTableWord 24 0x12342C = some (.bit (.absolute 0x1234)) := by decide

theorem test_decode_shift :
    decodeTableWord 8 0x0A = some (.asl .implicit) ∧
    decodeTableWord 16 0x1006 = some (.asl (.zeroPage 0x10)) ∧
    decodeTableWord 16 0x1056 = some (.lsr (.zeroPageX 0x10)) ∧
    decodeTableWord 24 0x12342E = some (.rol (.absolute 0x1234)) ∧
    decodeTableWord 24 0x12FF7E = some (.ror (.absoluteX 0x12FF)) := by decide

theorem test_decode_compare :
    decodeTableWord 16 0x20C1 = some (.cmp (.indexedIndirect 0x20)) ∧
    decodeTableWord 16 0x10E4 = some (.cpx (.zeroPage 0x10)) ∧
    decodeTableWord 16 0x06C0 = some (.cpy (.immediate 0x06)) := by decide

theorem test_decode_branch :
    decodeTableWord 16 0x0290 = some (.bcc 0x02) ∧
    decodeTableWord 16 0x02B0 = some (.bcs 0x02) ∧
    decodeTableWord 16 0x20F0 = some (.beq 0x20) ∧
    decodeTableWord 16 0xFED0 = some (.bne 0xFE) ∧
    decodeTableWord 16 0x0230 = some (.bmi 0x02) ∧
    decodeTableWord 16 0x0210 = some (.bpl 0x02) ∧
    decodeTableWord 16 0x0250 = some (.bvc 0x02) ∧
    decodeTableWord 16 0x8070 = some (.bvs 0x80) := by decide

theorem test_decode_stack_control :
    decodeTableWord 8 0x48 = some (.pha) ∧
    decodeTableWord 8 0x08 = some (.php) ∧
    decodeTableWord 8 0x68 = some (.pla) ∧
    decodeTableWord 8 0x28 = some (.plp) ∧
    decodeTableWord 24 0x123420 = some (.jsr 0x1234) ∧
    decodeTableWord 8 0x60 = some (.rts) ∧
    decodeTableWord 8 0x40 = some (.rti) ∧
    decodeTableWord 24 0x12344C = some (.jmp (.absolute 0x1234)) ∧
    decodeTableWord 24 0x10FF6C = some (.jmp (.indirect 0x10FF)) ∧
    decodeTableWord 8 0x00 = some (.brk) := by decide

theorem test_decode_transfer_flag_nop :
    decodeTableWord 8 0xAA = some (.tax) ∧
    decodeTableWord 8 0x8A = some (.txa) ∧
    decodeTableWord 8 0xA8 = some (.tay) ∧
    decodeTableWord 8 0x98 = some (.tya) ∧
    decodeTableWord 8 0xBA = some (.tsx) ∧
    decodeTableWord 8 0x9A = some (.txs) ∧
    decodeTableWord 8 0x18 = some (.clc) ∧
    decodeTableWord 8 0x38 = some (.sec) ∧
    decodeTableWord 8 0x58 = some (.cli) ∧
    decodeTableWord 8 0x78 = some (.sei) ∧
    decodeTableWord 8 0xD8 = some (.cld) ∧
    decodeTableWord 8 0xF8 = some (.sed) ∧
    decodeTableWord 8 0xB8 = some (.clv) ∧
    decodeTableWord 8 0xEA = some (.nop) ∧
    decodeTableWord 8 0x1A = some (.nopUndoc 0x1A .implicit) ∧
    decodeTableWord 16 0x1280 = some (.nopUndoc 0x80 (.immediate 0x12)) ∧
    decodeTableWord 16 0x1004 = some (.nopUndoc 0x04 (.zeroPage 0x10)) ∧
    decodeTableWord 16 0x1014 = some (.nopUndoc 0x14 (.zeroPageX 0x10)) ∧
    decodeTableWord 24 0x12340C = some (.nopUndoc 0x0C (.absolute 0x1234)) ∧
    decodeTableWord 24 0x10FFFC = some (.nopUndoc 0xFC (.absoluteX 0x10FF)) := by decide

theorem test_decode_load_store :
    decodeTableWord 16 0x80A9 = some (.lda (.immediate 0x80)) ∧
    decodeTableWord 24 0x1234BE = some (.ldx (.absoluteY 0x1234)) ∧
    decodeTableWord 16 0x10B4 = some (.ldy (.zeroPageX 0x10)) ∧
    decodeTableWord 16 0x2081 = some (.sta (.indexedIndirect 0x20)) ∧
    decodeTableWord 16 0x1096 = some (.stx (.zeroPageY 0x10)) ∧
    decodeTableWord 24 0x12348C = some (.sty (.absolute 0x1234)) ∧
    decodeTableWord 16 0x10E6 = some (.inc (.zeroPage 0x10)) ∧
    decodeTableWord 24 0x12FFDE = some (.dec (.absoluteX 0x12FF)) ∧
    decodeTableWord 8 0xE8 = some (.inx) ∧
    decodeTableWord 8 0xC8 = some (.iny) ∧
    decodeTableWord 8 0xCA = some (.dex) ∧
    decodeTableWord 8 0x88 = some (.dey) := by decide

theorem test_decode_undocumented :
    decodeTableWord 8 0x02 = some (.kil 0x02) ∧
    decodeTableWord 8 0xF2 = some (.kil 0xF2) ∧
    decodeTableWord 16 0x1007 = some (.slo (.zeroPage 0x10)) ∧
    decodeTableWord 16 0x2033 = some (.rla (.indirectIndexed 0x20)) ∧
    decodeTableWord 24 0x12344F = some (.sre (.absolute 0x1234)) ∧
    decodeTableWord 16 0x1077 = some (.rra (.zeroPageX 0x10)) ∧
    decodeTableWord 16 0x1097 = some (.sax (.zeroPageY 0x10)) ∧
    decodeTableWord 24 0x1234BF = some (.lax (.absoluteY 0x1234)) ∧
    decodeTableWord 16 0x55AB = some (.lax (.immediate 0x55)) ∧
    decodeTableWord 24 0x1234DB = some (.dcp (.absoluteY 0x1234)) ∧
    decodeTableWord 24 0x10FFFF = some (.isc (.absoluteX 0x10FF)) ∧
    decodeTableWord 16 0xFF0B = some (.anc 0x0B 0xFF) ∧
    decodeTableWord 16 0xFF2B = some (.anc 0x2B 0xFF) ∧
    decodeTableWord 16 0x034B = some (.alr 0x03) ∧
    decodeTableWord 16 0x036B = some (.arr 0x03) ∧
    decodeTableWord 16 0x008B = some (.xaa 0x00) ∧
    decodeTableWord 16 0x01CB = some (.axs 0x01) ∧
    decodeTableWord 16 0x2093 = some (.ahx (.indirectIndexed 0x20)) ∧
    decodeTableWord 24 0x02009C = some (.shy 0x0200) ∧
    decodeTableWord 24 0x02009E = some (.shx 0x0200) ∧
    decodeTableWord 24 0x02009B = some (.tas 0x0200) ∧
    decodeTableWord 24 0x0200BB = some (.las 0x0200) := by decide

/-- Too few bytes are rejected by name; what follows an instruction is left (30 R115). -/
theorem test_decode_rejects_short :
    decode [] = .rejected .noOpcodeByte ∧ decode [0xAD, 0x34] = .rejected (.operandBytesMissing 0xAD) ∧
    decode [0xEA, 0x34] = .instr .nop [0x34] := by decide

/-- The encoder writes the low byte of a 16-bit operand first (30 R101). -/
theorem test_encode_little_endian :
    encode (.lda (.absoluteX 0x12F0)) = some [0xBD, 0xF0, 0x12] ∧ encode (.bne 0xFE) = some [0xD0, 0xFE] ∧
    encode (.nopUndoc 0xFC (.absoluteX 0x10FF)) = some [0xFC, 0xFF, 0x10] := by decide

/-! ## Single steps: vectors of the spec -/

/-- Vector T3a of the spec: LDA $FF,X. -/
theorem test_lda_zeropage_x_wraps :
    seen (start [0xB5, 0xFF] [(0x0000, 0x5A), (0x0100, 0xA5)] { base with x := 0x01 }) [] =
    some ⟨0x0602, 0x5A, 0x01, 0x00, 0xFD, 0x24, [], .ok 4⟩ := by decide

/-- Vector M15 of the spec: LDA ($FF),Y: pointer at FF, high byte from 00. -/
theorem test_lda_indirect_indexed_wraps :
    seen (start [0xB1, 0xFF] [(0x0000, 0x30), (0x00FF, 0x00), (0x0100, 0x40), (0x3001, 0xD3), (0x4001, 0x99)] { base
      with y := 0x01 }) [] =
    some ⟨0x0602, 0xD3, 0x00, 0x01, 0xFD, 0xA4, [], .ok 5⟩ := by decide

/-- Vector T4a of the spec: JMP ($30FF). -/
theorem test_jmp_indirect_page_wrap :
    seen (start [0x6C, 0xFF, 0x30] [(0x3000, 0x12), (0x30FF, 0x34), (0x3100, 0x56)] base) [] =
    some ⟨0x1234, 0x00, 0x00, 0x00, 0xFD, 0x24, [], .ok 5⟩ := by decide

/-- Vector M17 of the spec: JMP $1234. -/
theorem test_jmp_absolute : seen (start [0x4C, 0x34, 0x12] [] base) [] =
    some ⟨0x1234, 0x00, 0x00, 0x00, 0xFD, 0x24, [], .ok 3⟩ := by decide

/-- Vector A7 of the spec: ADC #$7F (7F+7F+1). -/
theorem test_adc_signed_overflow : seen (start [0x69, 0x7F] [] { base with a := 0x7F, p := 0x25 }) [] =
    some ⟨0x0602, 0xFF, 0x00, 0x00, 0xFD, 0xE4, [], .ok 2⟩ := by decide

/-- Vector A3 of the spec: ADC #$00 (FF+00+1). -/
theorem test_adc_carry_out : seen (start [0x69, 0x00] [] { base with a := 0xFF, p := 0x25 }) [] =
    some ⟨0x0602, 0x00, 0x00, 0x00, 0xFD, 0x27, [], .ok 2⟩ := by decide

/-- Vector A14 of the spec: SBC #$FF (7F-FF signed overflow). -/
theorem test_sbc_signed_overflow : seen (start [0xE9, 0xFF] [] { base with a := 0x7F, p := 0x25 }) [] =
    some ⟨0x0602, 0x80, 0x00, 0x00, 0xFD, 0xE4, [], .ok 2⟩ := by decide

/-- Vector A16 of the spec: SBC #$00 (00-00-1). -/
theorem test_sbc_borrow : seen (start [0xE9, 0x00] [] { base with a := 0x00 }) [] =
    some ⟨0x0602, 0xFF, 0x00, 0x00, 0xFD, 0xA4, [], .ok 2⟩ := by decide

/-- Vector A18 of the spec: SBC #$01 via EB (undocumented encoding). -/
theorem test_sbcUndoc : seen (start [0xEB, 0x01] [] { base with a := 0x05, p := 0x25 }) [] =
    some ⟨0x0602, 0x04, 0x00, 0x00, 0xFD, 0x25, [], .ok 2⟩ := by decide

/-- Vector L8 of the spec: AND $1234,Y (cross). -/
theorem test_and_page_crossed :
    seen (start [0x39, 0x34, 0x12] [(0x1333, 0x3C)] { base with a := 0xFF, y := 0xFF }) [] =
    some ⟨0x0603, 0x3C, 0x00, 0xFF, 0xFD, 0x24, [], .ok 5⟩ := by decide

/-- Vector L4 of the spec: ORA #$80. -/
theorem test_ora : seen (start [0x09, 0x80] [] { base with a := 0x01 }) [] =
    some ⟨0x0602, 0x81, 0x00, 0x00, 0xFD, 0xA4, [], .ok 2⟩ := by decide

/-- Vector L6 of the spec: EOR #$FF. -/
theorem test_eor : seen (start [0x49, 0xFF] [] { base with a := 0x0F }) [] =
    some ⟨0x0602, 0xF0, 0x00, 0x00, 0xFD, 0xA4, [], .ok 2⟩ := by decide

/-- Vector L9 of the spec: BIT $10 (M=C0, A=01). -/
theorem test_bit_copies_bits : seen (start [0x24, 0x10] [(0x0010, 0xC0)] { base with a := 0x01 }) [] =
    some ⟨0x0602, 0x01, 0x00, 0x00, 0xFD, 0xE6, [], .ok 3⟩ := by decide

/-- Vector L10 of the spec: BIT $10 (M=01, A=01; V and N cleared). -/
theorem test_bit_clears_bits : seen (start [0x24, 0x10] [(0x0010, 0x01)] { base with a := 0x01, p := 0xE4 }) [] =
    some ⟨0x0602, 0x01, 0x00, 0x00, 0xFD, 0x24, [], .ok 3⟩ := by decide

/-- Vector H10 of the spec: ASL $10. -/
theorem test_asl_memory : seen (start [0x06, 0x10] [(0x0010, 0xC0)] { base with a := 0x33 }) [0x0010] =
    some ⟨0x0602, 0x33, 0x00, 0x00, 0xFD, 0xA5, [0x80], .ok 5⟩ := by decide

/-- Vector H3 of the spec: ASL A (40: N=1). -/
theorem test_asl_accumulator : seen (start [0x0A] [] { base with a := 0x40, p := 0x25 }) [] =
    some ⟨0x0601, 0x80, 0x00, 0x00, 0xFD, 0xA4, [], .ok 2⟩ := by decide

/-- Vector H11 of the spec: LSR $10,X. -/
theorem test_lsr_memory : seen (start [0x56, 0x10] [(0x0011, 0x03)] { base with x := 0x01 }) [0x0011] =
    some ⟨0x0602, 0x00, 0x01, 0x00, 0xFD, 0x25, [0x01], .ok 6⟩ := by decide

/-- Vector H5 of the spec: LSR A (FE; N always 0). -/
theorem test_lsr_accumulator : seen (start [0x4A] [] { base with a := 0xFE, p := 0xA5 }) [] =
    some ⟨0x0601, 0x7F, 0x00, 0x00, 0xFD, 0x24, [], .ok 2⟩ := by decide

/-- Vector H12 of the spec: ROL $1234. -/
theorem test_rol_memory : seen (start [0x2E, 0x34, 0x12] [(0x1234, 0x7F)] { base with p := 0x25 }) [0x1234] =
    some ⟨0x0603, 0x00, 0x00, 0x00, 0xFD, 0xA4, [0xFF], .ok 6⟩ := by decide

/-- Vector H6 of the spec: ROL A (80, C=1). -/
theorem test_rol_accumulator : seen (start [0x2A] [] { base with a := 0x80, p := 0x25 }) [] =
    some ⟨0x0601, 0x01, 0x00, 0x00, 0xFD, 0x25, [], .ok 2⟩ := by decide

/-- Vector H13 of the spec: ROR $12FF,X (cross; 7 cycles, no extra). -/
theorem test_ror_memory :
    seen (start [0x7E, 0xFF, 0x12] [(0x1300, 0x02)] { base with x := 0x01, p := 0x25 }) [0x1300] =
    some ⟨0x0603, 0x00, 0x01, 0x00, 0xFD, 0xA4, [0x81], .ok 7⟩ := by decide

/-- Vector H8 of the spec: ROR A (01, C=1). -/
theorem test_ror_accumulator : seen (start [0x6A] [] { base with a := 0x01, p := 0x25 }) [] =
    some ⟨0x0601, 0x80, 0x00, 0x00, 0xFD, 0xA5, [], .ok 2⟩ := by decide

/-- Vector K6 of the spec: CMP #$80 (A=7F); V untouched. -/
theorem test_cmp_leaves_v : seen (start [0xC9, 0x80] [] { base with a := 0x7F, p := 0x64 }) [] =
    some ⟨0x0602, 0x7F, 0x00, 0x00, 0xFD, 0xE4, [], .ok 2⟩ := by decide

/-- Vector K9 of the spec: CMP ($20),Y (cross). -/
theorem test_cmp_indirect_indexed :
    seen (start [0xD1, 0x20] [(0x0020, 0x01), (0x0021, 0x30), (0x3100, 0x41)] { base with a := 0x42, y := 0xFF }) [] =
    some ⟨0x0602, 0x42, 0x00, 0xFF, 0xFD, 0x25, [], .ok 6⟩ := by decide

/-- Vector K7 of the spec: CPX $10. -/
theorem test_cpx : seen (start [0xE4, 0x10] [(0x0010, 0x05)] { base with x := 0x05 }) [] =
    some ⟨0x0602, 0x00, 0x05, 0x00, 0xFD, 0x27, [], .ok 3⟩ := by decide

/-- Vector K8 of the spec: CPY #$06. -/
theorem test_cpy : seen (start [0xC0, 0x06] [] { base with y := 0x05 }) [] =
    some ⟨0x0602, 0x00, 0x00, 0x05, 0xFD, 0xA4, [], .ok 2⟩ := by decide

/-- Vector B20 of the spec: BCC -3 at 0600 (taken, to 05FF: cross). -/
theorem test_bcc_back_across_a_page : seen (start [0x90, 0xFD] [] base) [] =
    some ⟨0x05FF, 0x00, 0x00, 0x00, 0xFD, 0x24, [], .ok 4⟩ := by decide

/-- Vector B18 of the spec: BCC +127 at 0600 (taken, same page). -/
theorem test_bcc_forward : seen (start [0x90, 0x7F] [] base) [] =
    some ⟨0x0681, 0x00, 0x00, 0x00, 0xFD, 0x24, [], .ok 3⟩ := by decide

/-- Vector B3 of the spec: BCS +2 (C=1 taken). -/
theorem test_bcs : seen (start [0xB0, 0x02] [] { base with p := 0x25 }) [] =
    some ⟨0x0604, 0x00, 0x00, 0x00, 0xFD, 0x25, [], .ok 3⟩ := by decide

/-- Vector B16 of the spec: BEQ +$20 at 06F0 (taken, forward cross). -/
theorem test_beq_across_a_page : seen (start [0xF0, 0x20] [] { base with pc := 0x06F0, p := 0x26 }) [] =
    some ⟨0x0712, 0x00, 0x00, 0x00, 0xFD, 0x26, [], .ok 4⟩ := by decide

/-- Vector B7 of the spec: BNE -2 (Z=0 taken: branch to itself). -/
theorem test_bne_to_itself : seen (start [0xD0, 0xFE] [] base) [] =
    some ⟨0x0600, 0x00, 0x00, 0x00, 0xFD, 0x24, [], .ok 3⟩ := by decide

/-- Vector T6d of the spec: BNE +4 at 06FB (Z=1, not taken, target in other page). -/
theorem test_bne_not_taken : seen (start [0xD0, 0x04] [] { base with pc := 0x06FB, p := 0x26 }) [] =
    some ⟨0x06FD, 0x00, 0x00, 0x00, 0xFD, 0x26, [], .ok 2⟩ := by decide

/-- Vector B8 of the spec: BMI +2 (N=1 taken). -/
theorem test_bmi : seen (start [0x30, 0x02] [] { base with p := 0xA4 }) [] =
    some ⟨0x0604, 0x00, 0x00, 0x00, 0xFD, 0xA4, [], .ok 3⟩ := by decide

/-- Vector B10 of the spec: BPL +2 (N=0 taken). -/
theorem test_bpl : seen (start [0x10, 0x02] [] base) [] =
    some ⟨0x0604, 0x00, 0x00, 0x00, 0xFD, 0x24, [], .ok 3⟩ := by decide

/-- Vector B12 of the spec: BVC +2 (V=0 taken). -/
theorem test_bvc : seen (start [0x50, 0x02] [] base) [] =
    some ⟨0x0604, 0x00, 0x00, 0x00, 0xFD, 0x24, [], .ok 3⟩ := by decide

/-- Vector B17 of the spec: BVS -128 at 0600 (taken, backward cross). -/
theorem test_bvs_minus_128 : seen (start [0x70, 0x80] [] { base with p := 0x64 }) [] =
    some ⟨0x0582, 0x00, 0x00, 0x00, 0xFD, 0x64, [], .ok 4⟩ := by decide

/-- Vector S1 of the spec: PHA. -/
theorem test_pha : seen (start [0x48] [] { base with a := 0x42 }) [0x01FD] =
    some ⟨0x0601, 0x42, 0x00, 0x00, 0xFC, 0x24, [0x42], .ok 3⟩ := by decide

/-- Vector S2 of the spec: PHP (P=A5: pushes B5). -/
theorem test_php : seen (start [0x08] [] { base with p := 0xA5 }) [0x01FD] =
    some ⟨0x0601, 0x00, 0x00, 0x00, 0xFC, 0xA5, [0xB5], .ok 3⟩ := by decide

/-- Vector S4 of the spec: PLA (pulls 80: N). -/
theorem test_pla : seen (start [0x68] [(0x01FD, 0x80)] { base with sp := 0xFC }) [] =
    some ⟨0x0601, 0x80, 0x00, 0x00, 0xFD, 0xA4, [], .ok 4⟩ := by decide

/-- Vector S5 of the spec: PLP (pulls FF: bits 4 cleared, 5 set). -/
theorem test_plp_all_ones : seen (start [0x28] [(0x01FD, 0xFF)] { base with sp := 0xFC }) [] =
    some ⟨0x0601, 0x00, 0x00, 0x00, 0xFD, 0xEF, [], .ok 4⟩ := by decide

/-- Vector S6 of the spec: PLP (pulls 00: bit 5 still reads 1). -/
theorem test_plp_all_zeros : seen (start [0x28] [(0x01FD, 0x00)] { base with sp := 0xFC }) [] =
    some ⟨0x0601, 0x00, 0x00, 0x00, 0xFD, 0x20, [], .ok 4⟩ := by decide

/-- Vector S7 of the spec: JSR $1234. -/
theorem test_jsr : seen (start [0x20, 0x34, 0x12] [] base) [0x01FD, 0x01FC] =
    some ⟨0x1234, 0x00, 0x00, 0x00, 0xFB, 0x24, [0x06, 0x02], .ok 6⟩ := by decide

/-- Vector S10 of the spec: RTS (stack holds FFFF: PC wraps to 0000). -/
theorem test_rts_wraps : seen (start [0x60] [(0x01FC, 0xFF), (0x01FD, 0xFF)] { base with sp := 0xFB }) [] =
    some ⟨0x0000, 0x00, 0x00, 0x00, 0xFD, 0x24, [], .ok 6⟩ := by decide

/-- Vector S11 of the spec: RTI (stack: P=C3, PC=1234). -/
theorem test_rti : seen (start [0x40] [(0x01FB, 0xC3), (0x01FC, 0x34), (0x01FD, 0x12)] { base with sp := 0xFA }) [] =
    some ⟨0x1234, 0x00, 0x00, 0x00, 0xFD, 0xE3, [], .ok 6⟩ := by decide

/-- Vector S15 of the spec: BRK at 0600 (P=24). -/
theorem test_brk : seen (start [0x00] [(0xFFFE, 0x00), (0xFFFF, 0x90)] base) [0x01FD, 0x01FC, 0x01FB] =
    some ⟨0x9000, 0x00, 0x00, 0x00, 0xFA, 0x24, [0x06, 0x02, 0x34], .ok 7⟩ := by decide

/-- Vector S17 of the spec: BRK with S=01: stack wraps. -/
theorem test_brk_stack_wraps :
    seen (start [0x00] [(0xFFFE, 0x00), (0xFFFF, 0x90)] { base with sp := 0x01 }) [0x0101, 0x0100, 0x01FF] =
    some ⟨0x9000, 0x00, 0x00, 0x00, 0xFE, 0x24, [0x06, 0x02, 0x34], .ok 7⟩ := by decide

/-- Vector X1 of the spec: TAX (A=00: Z). -/
theorem test_tax : seen (start [0xAA] [] { base with a := 0x00, x := 0x55 }) [] =
    some ⟨0x0601, 0x00, 0x00, 0x00, 0xFD, 0x26, [], .ok 2⟩ := by decide

/-- Vector X3 of the spec: TXA. -/
theorem test_txa : seen (start [0x8A] [] { base with a := 0x00, x := 0x7F }) [] =
    some ⟨0x0601, 0x7F, 0x7F, 0x00, 0xFD, 0x24, [], .ok 2⟩ := by decide

/-- Vector X4 of the spec: TAY. -/
theorem test_tay : seen (start [0xA8] [] { base with a := 0xFF }) [] =
    some ⟨0x0601, 0xFF, 0x00, 0xFF, 0xFD, 0xA4, [], .ok 2⟩ := by decide

/-- Vector X5 of the spec: TYA (Y=00: Z). -/
theorem test_tya : seen (start [0x98] [] { base with a := 0x12, y := 0x00 }) [] =
    some ⟨0x0601, 0x00, 0x00, 0x00, 0xFD, 0x26, [], .ok 2⟩ := by decide

/-- Vector X6 of the spec: TSX (S=FD: N). -/
theorem test_tsx : seen (start [0xBA] [] base) [] =
    some ⟨0x0601, 0x00, 0xFD, 0x00, 0xFD, 0xA4, [], .ok 2⟩ := by decide

/-- Vector X8 of the spec: TXS (X=00: no flags). -/
theorem test_txs : seen (start [0x9A] [] { base with x := 0x00, p := 0xA4 }) [] =
    some ⟨0x0601, 0x00, 0x00, 0x00, 0x00, 0xA4, [], .ok 2⟩ := by decide

/-- Vector X10 of the spec: CLC. -/
theorem test_clc : seen (start [0x18] [] { base with p := 0xEF }) [] =
    some ⟨0x0601, 0x00, 0x00, 0x00, 0xFD, 0xEE, [], .ok 2⟩ := by decide

/-- Vector X11 of the spec: SEC. -/
theorem test_sec : seen (start [0x38] [] { base with p := 0x20 }) [] =
    some ⟨0x0601, 0x00, 0x00, 0x00, 0xFD, 0x21, [], .ok 2⟩ := by decide

/-- Vector X12 of the spec: CLI. -/
theorem test_cli : seen (start [0x58] [] { base with p := 0xEF }) [] =
    some ⟨0x0601, 0x00, 0x00, 0x00, 0xFD, 0xEB, [], .ok 2⟩ := by decide

/-- Vector X13 of the spec: SEI. -/
theorem test_sei : seen (start [0x78] [] { base with p := 0x20 }) [] =
    some ⟨0x0601, 0x00, 0x00, 0x00, 0xFD, 0x24, [], .ok 2⟩ := by decide

/-- Vector X14 of the spec: CLD. -/
theorem test_cld : seen (start [0xD8] [] { base with p := 0xEF }) [] =
    some ⟨0x0601, 0x00, 0x00, 0x00, 0xFD, 0xE7, [], .ok 2⟩ := by decide

/-- Vector X15 of the spec: SED. -/
theorem test_sed : seen (start [0xF8] [] { base with p := 0x20 }) [] =
    some ⟨0x0601, 0x00, 0x00, 0x00, 0xFD, 0x28, [], .ok 2⟩ := by decide

/-- Vector X16 of the spec: CLV. -/
theorem test_clv : seen (start [0xB8] [] { base with p := 0xEF }) [] =
    some ⟨0x0601, 0x00, 0x00, 0x00, 0xFD, 0xAF, [], .ok 2⟩ := by decide

/-- Vector X17 of the spec: NOP. -/
theorem test_nop : seen (start [0xEA] [] { base with a := 0x01, x := 0x02, y := 0x03, p := 0xEF }) [] =
    some ⟨0x0601, 0x01, 0x02, 0x03, 0xFD, 0xEF, [], .ok 2⟩ := by decide

/-- Vector U2 of the spec: NOP #$12 (80): operand not read. -/
theorem test_nopUndoc_immediate : seen (start [0x80, 0x12] [] base) [] =
    some ⟨0x0602, 0x00, 0x00, 0x00, 0xFD, 0x24, [], .ok 2⟩ := by decide

/-- Vector U7 of the spec: NOP $10FF,X (1C) cross: +1 cycle. -/
theorem test_nopUndoc_page_crossed : seen (start [0x1C, 0xFF, 0x10] [] { base with x := 0x01 }) [] =
    some ⟨0x0603, 0x00, 0x01, 0x00, 0xFD, 0x24, [], .ok 5⟩ := by decide

/-- Vector D4 of the spec: LDX $1234,Y (cross). -/
theorem test_ldx_page_crossed : seen (start [0xBE, 0x34, 0x12] [(0x1333, 0x80)] { base with y := 0xFF }) [] =
    some ⟨0x0603, 0x00, 0x80, 0xFF, 0xFD, 0xA4, [], .ok 5⟩ := by decide

/-- Vector D6 of the spec: LDY $10,X. -/
theorem test_ldy_zeropage_x : seen (start [0xB4, 0x10] [(0x0012, 0x33)] { base with x := 0x02 }) [] =
    some ⟨0x0602, 0x00, 0x02, 0x33, 0xFD, 0x24, [], .ok 4⟩ := by decide

/-- Vector M9 of the spec: STA $12F0,X (cross, no extra cycle). -/
theorem test_sta_page_crossed : seen (start [0x9D, 0xF0, 0x12] [] { base with a := 0x44, x := 0x10 }) [0x1300] =
    some ⟨0x0603, 0x44, 0x10, 0x00, 0xFD, 0x24, [0x44], .ok 5⟩ := by decide

/-- Vector M16 of the spec: STA ($20),Y (cross, no extra cycle). -/
theorem test_sta_indirect_indexed :
    seen (start [0x91, 0x20] [(0x0020, 0xF8), (0x0021, 0x30)] { base with a := 0x5A, y := 0x10 }) [0x3108] =
    some ⟨0x0602, 0x5A, 0x00, 0x10, 0xFD, 0x24, [0x5A], .ok 6⟩ := by decide

/-- Vector D10 of the spec: STX $10,Y. -/
theorem test_stx : seen (start [0x96, 0x10] [] { base with x := 0x99, y := 0x01 }) [0x0011] =
    some ⟨0x0602, 0x00, 0x99, 0x01, 0xFD, 0x24, [0x99], .ok 4⟩ := by decide

/-- Vector D11 of the spec: STY $1234. -/
theorem test_sty : seen (start [0x8C, 0x34, 0x12] [] { base with y := 0xAB }) [0x1234] =
    some ⟨0x0603, 0x00, 0x00, 0xAB, 0xFD, 0x24, [0xAB], .ok 4⟩ := by decide

/-- Vector D13 of the spec: INC $10 (FF -> 00: Z, C untouched). -/
theorem test_inc_to_zero : seen (start [0xE6, 0x10] [(0x0010, 0xFF)] { base with p := 0x25 }) [0x0010] =
    some ⟨0x0602, 0x00, 0x00, 0x00, 0xFD, 0x27, [0x00], .ok 5⟩ := by decide

/-- Vector D15 of the spec: DEC $10 (00 -> FF). -/
theorem test_dec_from_zero : seen (start [0xC6, 0x10] [(0x0010, 0x00)] base) [0x0010] =
    some ⟨0x0602, 0x00, 0x00, 0x00, 0xFD, 0xA4, [0xFF], .ok 5⟩ := by decide

/-- Vector D18 of the spec: INX (FF -> 00). -/
theorem test_inx : seen (start [0xE8] [] { base with x := 0xFF }) [] =
    some ⟨0x0601, 0x00, 0x00, 0x00, 0xFD, 0x26, [], .ok 2⟩ := by decide

/-- Vector D19 of the spec: INY (7F -> 80). -/
theorem test_iny : seen (start [0xC8] [] { base with y := 0x7F }) [] =
    some ⟨0x0601, 0x00, 0x00, 0x80, 0xFD, 0xA4, [], .ok 2⟩ := by decide

/-- Vector D20 of the spec: DEX (00 -> FF). -/
theorem test_dex : seen (start [0xCA] [] { base with x := 0x00 }) [] =
    some ⟨0x0601, 0x00, 0xFF, 0x00, 0xFD, 0xA4, [], .ok 2⟩ := by decide

/-- Vector D21 of the spec: DEY (01 -> 00). -/
theorem test_dey : seen (start [0x88] [] { base with y := 0x01 }) [] =
    some ⟨0x0601, 0x00, 0x00, 0x00, 0xFD, 0x26, [], .ok 2⟩ := by decide

/-- Vector U8 of the spec: KIL (02). -/
theorem test_kil : seen (start [0x02] [] { base with a := 0x11 }) [] =
    some ⟨0x0601, 0x11, 0x00, 0x00, 0xFD, 0x24, [], .err (.unimplementedInstruction 0x02)⟩ := by decide

/-- Vector U15 of the spec: ISC $10FF,X (FF). -/
theorem test_isc_faults : seen (start [0xFF, 0xFF, 0x10] [(0x1100, 0x01)] { base with x := 0x01 }) [0x1100] =
    some ⟨0x0603, 0x00, 0x01, 0x00, 0xFD, 0x24, [0x01], .err (.unimplementedInstruction 0xFF)⟩ := by decide

/-- Vector U12 of the spec: SAX ($20,X) (83): pointer is read, then fault. -/
theorem test_sax_reads_pointer_then_faults : seen (start [0x83, 0x20] [(0x0020, 0x00), (0x0021, 0x30)] base) [] =
    some ⟨0x0602, 0x00, 0x00, 0x00, 0xFD, 0x24, [], .err (.unimplementedInstruction 0x83)⟩ := by decide

/-- Vector M19 of the spec: LDA $1234 at FFFE: operand fetch wraps. -/
theorem test_fetch_wraps : seen (start [0xAD, 0x34, 0x12] [(0x1234, 0x66)] { base with pc := 0xFFFE }) [] =
    some ⟨0x0001, 0x66, 0x00, 0x00, 0xFD, 0x24, [], .ok 4⟩ := by decide

/-! ## Single steps under `UNDOC_POLICY = execute`: calculated by hand from the informative sentences of 49 -/

/-- R304: 0x81 shifts to 0x02 with carry 1; A 0x10 or 0x02 is 0x12. -/
theorem test_slo : seen (start [0x07, 0x10] [(0x0010, 0x81)] { baseExecute with a := 0x10 }) [0x0010] =
    some ⟨0x0602, 0x12, 0x00, 0x00, 0xFD, 0x25, [0x02], .ok 5⟩ := by decide

/-- R305: 0x81 rotates with carry 1 to 0x03 with carry 1; A 0xF1 and 0x03 is 0x01. -/
theorem test_rla : seen (start [0x27, 0x10] [(0x0010, 0x81)] { baseExecute with a := 0xF1, p := 0x25 }) [0x0010] =
    some ⟨0x0602, 0x01, 0x00, 0x00, 0xFD, 0x25, [0x03], .ok 5⟩ := by decide

/-- R306: 0x03 shifts to 0x01 with carry 1; A 0x81 xor 0x01 is 0x80. -/
theorem test_sre : seen (start [0x4F, 0x34, 0x12] [(0x1234, 0x03)] { baseExecute with a := 0x81 }) [0x1234] =
    some ⟨0x0603, 0x80, 0x00, 0x00, 0xFD, 0xA5, [0x01], .ok 6⟩ := by decide

/-- R307: 0x03 rotates with carry 0 to 0x01 with carry 1; A 0x7E + 0x01 + 1 is 0x80, a signed overflow without carry. -/
theorem test_rra : seen (start [0x67, 0x10] [(0x0010, 0x03)] { baseExecute with a := 0x7E }) [0x0010] =
    some ⟨0x0602, 0x80, 0x00, 0x00, 0xFD, 0xE4, [0x01], .ok 5⟩ := by decide

/-- R308: A 0xF0 and X 0x3C is 0x30; no flag changes. -/
theorem test_sax : seen (start [0x87, 0x10] [] { baseExecute with a := 0xF0, x := 0x3C, p := 0xA7 }) [0x0010] =
    some ⟨0x0602, 0xF0, 0x3C, 0x00, 0xFD, 0xA7, [0x30], .ok 3⟩ := by decide

/-- R309: the byte in A and X, one more cycle across the page. -/
theorem test_lax : seen (start [0xBF, 0xFF, 0x12] [(0x1300, 0x80)] { baseExecute with y := 0x01 }) [] =
    some ⟨0x0603, 0x80, 0x80, 0x01, 0xFD, 0xA4, [], .ok 5⟩ := by decide

/-- R310: 0x00 decrements to 0xFF; A 0xFF compares equal, so carry and zero. -/
theorem test_dcp : seen (start [0xC7, 0x10] [] { baseExecute with a := 0xFF }) [0x0010] =
    some ⟨0x0602, 0xFF, 0x00, 0x00, 0xFD, 0x27, [0xFF], .ok 5⟩ := by decide

/-- R311: 0x00 increments to 0x01; A 0x80 - 0x01 is 0x7F, a signed overflow without borrow. -/
theorem test_isc : seen (start [0xE7, 0x10] [] { baseExecute with a := 0x80, p := 0x25 }) [0x0010] =
    some ⟨0x0602, 0x7F, 0x00, 0x00, 0xFD, 0x65, [0x01], .ok 5⟩ := by decide

/-- R312: A 0x81 and 0xF0 is 0x80; carry is its bit 7. -/
theorem test_anc : seen (start [0x2B, 0xF0] [] { baseExecute with a := 0x81 }) [] =
    some ⟨0x0602, 0x80, 0x00, 0x00, 0xFD, 0xA5, [], .ok 2⟩ := by decide

/-- R313: A 0x83 and 0x03 is 0x03, shifted to 0x01 with carry 1. -/
theorem test_alr : seen (start [0x4B, 0x03] [] { baseExecute with a := 0x83 }) [] =
    some ⟨0x0602, 0x01, 0x00, 0x00, 0xFD, 0x25, [], .ok 2⟩ := by decide

/-- R314: A 0xFF and 0x80 is 0x80, rotated with carry 0 to 0x40: C is bit 6, V is bit 6 xor bit 5. -/
theorem test_arr : seen (start [0x6B, 0x80] [] { baseExecute with a := 0xFF }) [] =
    some ⟨0x0602, 0x40, 0x00, 0x00, 0xFD, 0x65, [], .ok 2⟩ := by decide

/-- R315: XAA faults under either policy. -/
theorem test_xaa : seen (start [0x8B, 0x00] [] baseExecute) [] =
    some ⟨0x0602, 0x00, 0x00, 0x00, 0xFD, 0x24, [], .err (.unimplementedInstruction 0x8B)⟩ := by decide

/-- R316: A 0x0F and X 0x3C is 0x0C; minus 0x0D is 0xFF with a borrow, whatever the carry was. -/
theorem test_axs : seen (start [0xCB, 0x0D] [] { baseExecute with a := 0x0F, x := 0x3C, p := 0x25 }) [] =
    some ⟨0x0602, 0x0F, 0xFF, 0x00, 0xFD, 0xA4, [], .ok 2⟩ := by decide

/-- R320: S is A and X; what TAS stores is not fixed, where it stores is. -/
theorem test_tas : (nextOf (step (start [0x9B, 0x34, 0x12] [] { baseExecute with a := 0xF0, x := 0x3C, y := 0x01 }))).map
    (fun t => (t.sp, t.pc, t.cycles, t.busLog.head?.map fun acc => (acc.kind, acc.addr))) =
    some (0x30, 0x0603, 5, some (.write, 0x1235)) := by decide

/-- R317, R318, R319: one write at the effective address, no register and no flag changed. -/
theorem test_unstable_stores :
    [0x9F#8, 0x9C#8, 0x9E#8].all (fun opcode =>
      (nextOf (step (start [opcode, 0x34, 0x12] [] { baseExecute with a := 0xF0, x := 0x01, y := 0x01 }))).any fun t =>
        t.a == 0xF0 && t.x == 0x01 && t.y == 0x01 && t.sp == 0xFD && t.p == 0x24 && t.cycles == 5 &&
        t.busLog.head?.map (fun acc => (acc.kind, acc.addr)) == some (.write, 0x1235#16)) = true := by decide

/-- R321: LAS reads its operand, crossing a page, and leaves Y alone; its value is not fixed. -/
theorem test_las : (nextOf (step (start [0xBB, 0xFF, 0x12] [] { baseExecute with y := 0x01 }))).map
    (fun t => (t.y, t.pc, t.cycles, t.busLog.head?.map fun acc => (acc.kind, acc.addr))) =
    some (0x01, 0x0603, 5, some (.read, 0x1300)) := by decide

/-! ## Faults, interrupts, reset and the load of a word -/

/-- An unmapped operand: its own address, PC past the bytes, no cycles (60 R342; 20 R83). -/
theorem test_unmapped_operand : seen (onBus lowRam (start [0xAD, 0x34, 0x92] [] base)) [] =
    some ⟨0x0603, 0x00, 0x00, 0x00, 0xFD, 0x24, [], .err (.unmappedAddress 0x9234)⟩ := by decide

/-- An unmapped opcode fetch leaves PC (40 R132). -/
theorem test_unmapped_fetch : seen (onBus lowRam { base with pc := 0x8000 }) [] =
    some ⟨0x8000, 0x00, 0x00, 0x00, 0xFD, 0x24, [], .err (.unmappedAddress 0x8000)⟩ := by decide

/-- An unmapped second byte, third byte and Immediate byte: the PC each leaves (40 R132, R142, R139). -/
theorem test_unmapped_operand_fetch :
    let at8000 := fun code => seen (onBus [⟨0x0000, 0x7FFF, .ram⟩] code) []
    at8000 (start [0xA5] [] { base with pc := 0x7FFF }) =
      some ⟨0x8000, 0x00, 0x00, 0x00, 0xFD, 0x24, [], .err (.unmappedAddress 0x8000)⟩ ∧
    at8000 (start [0xAD, 0x00] [] { base with pc := 0x7FFE }) =
      some ⟨0x8000, 0x00, 0x00, 0x00, 0xFD, 0x24, [], .err (.unmappedAddress 0x8000)⟩ ∧
    at8000 (start [0xA9] [] { base with pc := 0x7FFF }) =
      some ⟨0x8001, 0x00, 0x00, 0x00, 0xFD, 0x24, [], .err (.unmappedAddress 0x8000)⟩ := by decide

/-- ROM accepts a write and ignores it (20 R60). -/
theorem test_rom_ignores_write :
    seen (onBus [⟨0x8000, 0xFFFF, .rom⟩, ⟨0x0000, 0x7FFF, .ram⟩] (start [0x8D, 0x00, 0x90] [(0x9000, 0x12)]
      { base with a := 0x77 })) [0x9000] =
    some ⟨0x0603, 0x77, 0x00, 0x00, 0xFD, 0x24, [0x12], .ok 4⟩ := by decide

/-- A faulted machine answers its fault (40 R131). -/
theorem test_faulted_machine_reports : step { base with run := .faulted (.unmappedAddress 0x1234) } =
    .fault (.unmappedAddress 0x1234) := rfl

/-- NMI entry: PC 0x1234 and P with Break clear and Reserved set pushed, I set, the vector loaded, 7 cycles (60 R352). -/
theorem test_nmi_entry :
    seen (start [] [(0xFFFA, 0x00), (0xFFFB, 0x80)] { base with pc := 0x1234, p := 0x61, nmiPending := true })
      [0x01FD, 0x01FC, 0x01FB] =
    some ⟨0x8000, 0x00, 0x00, 0x00, 0xFA, 0x65, [0x12, 0x34, 0x61], .ok 7⟩ := by decide

/-- An NMI whose vector is unmapped: the pushes stay, PC and `P.I` keep their old values (60 R352, 92 D21). -/
theorem test_nmi_vector_fault :
    seen (onBus lowRam { base with pc := 0x1234, p := 0x61, nmiPending := true }) [0x01FD, 0x01FC, 0x01FB] =
    some ⟨0x1234, 0x00, 0x00, 0x00, 0xFA, 0x61, [0x12, 0x34, 0x61], .err (.unmappedAddress 0xFFFA)⟩ := by decide

/-- A BRK whose vector is unmapped has set `P.I`; PC stands past the padding byte (46 R228, 60 R341). -/
theorem test_brk_vector_fault :
    seen (onBus lowRam (start [0x00] [] { base with p := 0x20 })) [0x01FB] =
    some ⟨0x0602, 0x00, 0x00, 0x00, 0xFA, 0x24, [0x30], .err (.unmappedAddress 0xFFFE)⟩ := by decide

/-- An IRQ is taken with I clear, through 0xFFFE. -/
theorem test_irq_entry :
    seen (start [] [(0xFFFE, 0x00), (0xFFFF, 0x90)] { base with pc := 0x1234, p := 0x20, irqLine := true }) [0x01FB] =
    some ⟨0x9000, 0x00, 0x00, 0x00, 0xFA, 0x24, [0x20], .ok 7⟩ := by decide

/-- With I set the instruction runs instead (60 R355). -/
theorem test_irq_masked : seen (start [0xE8] [] { base with irqLine := true }) [] =
    some ⟨0x0601, 0x00, 0x01, 0x00, 0xFD, 0x24, [], .ok 2⟩ := by decide

/-- `reset()` leaves a Faulted machine Running at the reset vector and keeps memory (70 R380, R381). -/
theorem test_reset_call :
    (nextOf (resetCall (start [] [(0xFFFC, 0x00), (0xFFFD, 0x80)]
      { base with a := 0x55, sp := 0x10, p := 0xE3, cycles := 99, run := .faulted (.unmappedAddress 0x0000) }))).any
      (fun t => t.pc == 0x8000 && t.a == 0x00 && t.sp == 0xFD && t.p == 0x24 && t.cycles == 0 && t.run == .running &&
        t.peek 0xFFFD == 0x80) = true := by decide

/-- The state after reset meets the invariant and lists no memory. -/
theorem reset_inv : StateInv State.reset := by unfold StateInv LegalP; decide

/-- A word loaded after reset is the instruction the next step runs: LDA #$80. -/
theorem test_withFetchWord : seen (State.reset.withFetchWord 16 0x80A9) [] =
    some ⟨0x0002, 0x80, 0x00, 0x00, 0xFD, 0xA4, [], .ok 2⟩ := by decide

/-- Writing the unlisted byte removes the entry, and the form stays canonical. -/
theorem test_memory_canonical :
    Memory.write (Memory.write [] 5 0x11) 5 0x00 = [] ∧ Memory.wf (Memory.write (Memory.write [] 9 0x22) 3 0x11) = true ∧
    Memory.wf [(9, 0x22), (3, 0x11)] = false ∧ Memory.wf [(3, 0x00)] = false ∧ Memory.wf [(65536, 0x01)] = false := by
  decide

/-! ## Witnesses: concrete states and operands that meet the hypotheses of each obligation, clause by clause -/

/-- DecodeOfEncode, EncodeOfDecode. -/
theorem wit_encode_decode :
    encode (.lda (.absoluteX 0xFFFF)) = some [0xBD, 0xFF, 0xFF] ∧ encode .brk = some [0x00] ∧
    decode [0xBD, 0xFF, 0xFF, 0x00] = .instr (.lda (.absoluteX 0xFFFF)) [0x00] := by decide

/-- EveryByteSelectsAnInstruction: one byte too few, and exactly enough. -/
theorem wit_every_byte :
    [0x34#8].length < (entryOf 0xAD).mode.operandCount ∧ (entryOf 0xAD).mode.operandCount ≤ [0x34#8, 0x12#8].length ∧
    (entryOf 0x00).mode.operandCount ≤ ([] : List Byte).length := by decide

/-- IllFormedTermsAreRefused. -/
theorem wit_ill_formed : ¬ WellFormed (.sta (.immediate 0x00)) ∧ WellFormed (.sta (.zeroPage 0x00)) := by decide

/-- StepRunsDecodedInstruction, with either of its interrupt premises, and at the top of memory. -/
theorem wit_step_runs :
    (∀ s ∈ [start [0xBD, 0xF0, 0x12] [] base, { start [0xBD, 0xF0, 0x12] [] base with irqLine := true },
        start [0xBD, 0xF0, 0x12] [] { base with pc := 0xFFFE, p := 0x20 }],
      s.run = .running ∧ s.nmiPending = false ∧ (s.irqLine = false ∨ flagI s.p = true) ∧
      decode [s.peek s.pc, s.peek (s.pc + 1), s.peek (s.pc + 2)] = .instr (.lda (.absoluteX 0x12F0)) [] ∧
      (fetchAddrs s.params.undocPolicy (.lda (.absoluteX 0x12F0)) s.pc).all s.isMemory = true) := by decide

/-- FaultedReportsItsFault, and the faulted clauses of AdvanceArbitrates and InterruptEntrySavesAndVectors. -/
theorem wit_faulted :
    State.run { base with run := .faulted (.unimplementedInstruction 0x02) } =
      .faulted (.unimplementedInstruction 0x02) := rfl

/-- AdvanceArbitrates, its three running clauses. -/
theorem wit_advance :
    (let s := { base with nmiPending := true }; s.run = .running ∧ s.nmiPending = true) ∧
    (let s := { base with irqLine := true, p := 0x20 };
      s.run = .running ∧ s.nmiPending = false ∧ s.irqLine = true ∧ flagI s.p = false) ∧
    (base.run = .running ∧ base.nmiPending = false ∧ base.irqLine = false) := by decide

/-- InterruptEntrySavesAndVectors, its first clause, with the stack wrapping: both vectors readable, unmapped in their
first byte, unmapped in their second. -/
theorem wit_interrupt_entry :
    let s := { base with sp := 0x01 }
    let stack := [word16 0x01#8 s.sp, word16 0x01#8 (s.sp - 1), word16 0x01#8 (s.sp - 2)]
    s.run = .running ∧ Memory.wf s.mem = true ∧
    [0xFFFA#16, 0xFFFE#16].all (fun vec =>
      let below := onBus [⟨0x0000#16, vec - 1, .ram⟩] s
      let upTo := onBus [⟨0x0000#16, vec, .ram⟩] s
      (stack ++ [vec, vec + 1]).all s.isMemory &&
      (stack.all below.isMemory && (backingOf below.busMap vec).isNone) &&
      ((stack ++ [vec]).all upTo.isMemory && (backingOf upTo.busMap (vec + 1)).isNone)) = true := by decide

/-- InterruptEntrySavesAndVectors, its second clause: the vector is unmapped. -/
theorem wit_interrupt_entry_faults :
    ∃ t, interruptEntry .nmi (onBus lowRam base) = .next t ∧
      (decide (t.run = .faulted (.unmappedAddress 0xFFFA)) : Bool) = true := exists_next (by decide)

/-- Fetch8ReadsThenIncrements: a mapped PC at the top of memory, an unmapped one. -/
theorem wit_fetch8 :
    State.isMemory { base with pc := 0xFFFF } 0xFFFF = true ∧
    (let s := onBus lowRam { base with pc := 0x8000 };
      s.run = .running ∧ s.nmiPending = false ∧ s.irqLine = false ∧ backingOf s.busMap s.pc = none) := by decide

theorem wit_fetch8_read : ∃ v t, busRead base.pc base = .done v t := ⟨_, _, rfl⟩

/-- ExecAccountsForCycles: an instruction that completes, one that faults, one that draws a free value. -/
theorem wit_exec_accounts :
    (∃ t, exec .inx base = .next t ∧ (decide (t.run = .running) : Bool) = true) ∧
    (∃ t, exec (.lda (.absolute 0x9000)) (onBus lowRam base) = .next t ∧
      (decide (t.run ≠ .running) : Bool) = true) ∧
    ∃ t, exec (.shy 0x0200) baseExecute = .next t ∧ (decide (t.freeIndex ≠ baseExecute.freeIndex) : Bool) = true :=
  ⟨exists_next (by decide), exists_next (by decide), exists_next (by decide)⟩

/-- StepLeavesTheEnvironmentAlone: a step that completes, and a step that faults. -/
theorem wit_step_environment :
    (∃ t, step (start [0xE8] [] base) = .next t ∧ (decide (t.run = .running) : Bool) = true) ∧
    ∃ t, step (onBus lowRam { base with pc := 0x8000 }) = .next t ∧
      (decide (t.run = .faulted (.unmappedAddress 0x8000)) : Bool) = true :=
  ⟨exists_next (by decide), exists_next (by decide)⟩

/-- StepStoresOnlyLoggedWrites: STA $10 changes a byte. -/
theorem wit_step_stores :
    Memory.wf (start [0x85, 0x10] [] { base with a := 0x42 }).mem = true ∧
    ∃ t, step (start [0x85, 0x10] [] { base with a := 0x42 }) = .next t ∧
      (decide (t.peek 0x0010 ≠ (start [0x85, 0x10] [] { base with a := 0x42 }).peek 0x0010) : Bool) = true :=
  ⟨by decide, exists_next (by decide)⟩

/-- StepKeepsInv, its three transitions from one state. -/
theorem wit_step_keeps_inv :
    StateInv (start [0x28] [(0x01FE, 0xFF)] base) ∧
    (∃ t, step (start [0x28] [(0x01FE, 0xFF)] base) = .next t ∧ (decide (t.p = 0xEF) : Bool) = true) ∧
    (∃ t, interruptEntry .irq (start [0x28] [(0x01FE, 0xFF)] base) = .next t ∧ (decide (t.sp = 0xFA) : Bool) = true) ∧
    ∃ t, resetCall (start [0x28] [(0x01FE, 0xFF)] base) = .next t ∧ (decide (t.p = 0x24) : Bool) = true :=
  ⟨by unfold StateInv LegalP; decide, exists_next (by decide), exists_next (by decide), exists_next (by decide)⟩

/-- ResetCall, its three clauses. -/
theorem wit_reset_call :
    (base.isMemory 0xFFFC = true ∧ base.isMemory 0xFFFD = true) ∧
    backingOf (onBus (ramBut 0xFFFC) base).busMap 0xFFFC = none ∧
    ((onBus (ramBut 0xFFFD) base).isMemory 0xFFFC = true ∧
      backingOf (onBus (ramBut 0xFFFD) base).busMap 0xFFFD = none) := by decide

/-- BusAccesses: RAM and ROM at the two ends of the address space, a hole, and a device. -/
theorem wit_bus_accesses :
    (base.isMemory 0x0000 = true ∧ base.isMemory 0xFFFF = true ∧ Memory.wf base.mem = true) ∧
    State.isMemory (onBus [⟨0x8000, 0xFFFF, .rom⟩] base) 0xFFFF = true ∧
    backingOf (onBus lowRam base).busMap 0x8000 = none ∧
    backingOf (onBus [⟨0x2000, 0x2007, .external⟩] base).busMap 0x2007 = some .external := by decide

/-- BusAccesses, a device: whatever it answers, one of the clauses about it applies. -/
theorem wit_bus_device :
    ((∃ w, Config.externalRead base.busLog 0x2007 = some w) ∨ Config.externalRead base.busLog 0x2007 = none) ∧
    (Config.externalWrite base.busLog 0x2007 0x00 = true ∨ Config.externalWrite base.busLog 0x2007 0x00 = false) := by
  constructor
  · cases Config.externalRead base.busLog 0x2007 with
    | none => exact .inr rfl
    | some w => exact .inl ⟨w, rfl⟩
  · cases Config.externalWrite base.busLog 0x2007 0x00 <;> simp

/-- SixteenBitReads: at the end of a page and at the end of memory. -/
theorem wit_sixteen_bit_reads :
    [0x30FF#16, 0x3080#16, 0xFFFF#16].all (fun a => base.isMemory a && base.isMemory (a + 1) &&
      base.isMemory (word16 (hiByte a) (loByte a + 1))) = true := by decide

/-- PushAndPull, Push16ThenPull16, PushInstructions, JsrPushesReturnAddress: a stack pointer that wraps. -/
theorem wit_stack :
    ∀ sp ∈ [0x00#8, 0x01#8, 0xFF#8], let s := { base with sp := sp }
      Memory.wf s.mem = true ∧ s.isMemory (word16 0x01#8 s.sp) = true ∧ s.isMemory (word16 0x01#8 (s.sp - 1)) = true ∧
      s.isMemory (word16 0x01#8 (s.sp + 1)) = true ∧ s.isRam (word16 0x01#8 s.sp) = true ∧
      s.isRam (word16 0x01#8 (s.sp - 1)) = true := by decide

/-- LoadSeesStore: STA $3010 through a pointer, then LDA, LDX and LDY of it with A, X and Y changed in between. -/
theorem wit_load_sees_store :
    let s := { poke base (0x0021, 0x30) with a := 0x5A, y := 0x10 }
    Memory.wf s.mem = true ∧ s.isRam 0x3010 = true ∧ effectiveAddr (.indirectIndexed 0x20) s = some 0x3010 ∧
    resolvable (.indirectIndexed 0x20) s = true ∧
    ((nextOf (exec (.sta (.indirectIndexed 0x20)) s)).any fun t =>
      let t' := { t with a := 0x00, x := 0x00, y := 0x00 }
      effectiveAddr (.absolute 0x3010) t' == some 0x3010 && resolvable (.absolute 0x3010) t' &&
      ((nextOf (exec (.lda (.absolute 0x3010)) t')).any fun u => u.a == 0x5A) &&
      ((nextOf (exec (.ldx (.absolute 0x3010)) t')).any fun u => u.x == 0x5A) &&
      ((nextOf (exec (.ldy (.absolute 0x3010)) t')).any fun u => u.y == 0x5A)) = true := by decide

/-- LoadSeesStore: STX in the zero page and STY by an index, at the two ends of what they address. -/
theorem wit_load_sees_store_xy :
    let s := { base with x := 0x01, y := 0xFF }
    WellFormed (.stx (.zeroPageY 0x01)) ∧ effectiveAddr (.zeroPageY 0x01) s = some 0x0000 ∧
    WellFormed (.sty (.absolute 0xFFFF)) ∧ effectiveAddr (.absolute 0xFFFF) s = some 0xFFFF ∧
    s.isRam 0x0000 = true ∧ s.isRam 0xFFFF = true := by decide

/-- ResolverModes: pointers at the end of the zero page and of a page. -/
theorem wit_resolver :
    let s := { base with x := 0x01 }
    s.isMemory (word16 0x00#8 (0xFE + s.x)) = true ∧ s.isMemory (word16 0x00#8 (0xFE + s.x + 1)) = true ∧
    s.isMemory (word16 0x00#8 0xFF) = true ∧ s.isMemory 0x30FF = true ∧
    s.isMemory (word16 (hiByte 0x30FF) (loByte 0x30FF + 1)) = true := by decide

/-- AdcAddsWithCarry, SbcSubtractsWithBorrow, LogicalCombinesWithA, ComparesSetFlags, LoadsReadMemory: the eight operand
forms of their mnemonics. -/
theorem wit_readable :
    ∀ o ∈ [Operand.immediate 0xFF, .zeroPage 0xFF, .zeroPageX 0xFF, .indexedIndirect 0xFF, .indirectIndexed 0xFF,
        .absolute 0xFFFF, .absoluteX 0xFFFF, .absoluteY 0xFFFF],
      readable o base = true ∧ WellFormed (.adc o) ∧ WellFormed (.sbc o) ∧ WellFormed (.and o) ∧ WellFormed (.ora o) ∧
      WellFormed (.eor o) ∧ WellFormed (.cmp o) ∧ WellFormed (.lda o) := by decide

/-- The same for SBC 0xEB, BIT, CPX, CPY, LDX and LDY. -/
theorem wit_readable_other :
    Instr.mnemonic (.sbcUndoc 0xFF) = .sbc ∧ WellFormed (.sbcUndoc 0xFF) ∧
    readable (.immediate 0xFF) base = true ∧ readable (.zeroPageY 0xFF) base = true ∧
    readable (.absolute 0xFFFF) base = true ∧ WellFormed (.bit (.absolute 0xFFFF)) ∧
    WellFormed (.cpx (.immediate 0xFF)) ∧ WellFormed (.cpy (.absolute 0xFFFF)) ∧ WellFormed (.ldx (.zeroPageY 0xFF)) ∧
    WellFormed (.ldy (.immediate 0xFF)) := by decide

/-- DecimalFlagIsInert and AdcThenSbc. -/
theorem wit_decimal :
    ((nextOf (exec (.adc (.immediate 0x99)) base)).any fun t =>
      (nextOf (exec (.sbc (.immediate 0x99)) t)).isSome &&
      (nextOf (exec (.sbc (.immediate 0x99)) { t with p := setC (!flagC base.p) t.p })).isSome) = true ∧
    (∃ t, exec (.adc (.immediate 0x99)) base = .next t ∧ (decide (t.a = 0x99) : Bool) = true) ∧
    (∃ t, exec (.sbc (.immediate 0x99)) base = .next t ∧ (decide (t.a = 0x66) : Bool) = true) :=
  ⟨by decide, exists_next (by decide), exists_next (by decide)⟩

/-- StoresWriteMemory, ShiftsOfMemory, IncDecMemory, UndocumentedReadModifyWrite, UndocumentedLoadAndStore. -/
theorem wit_storable :
    let s := { baseExecute with x := 0x01, y := 0x01 }
    Memory.wf s.mem = true ∧ s.params.undocPolicy = .execute ∧
    (effectiveAddr (.zeroPageX 0xFF) s = some 0x0000 ∧ storable (.zeroPageX 0xFF) s = true ∧
      WellFormed (.sta (.zeroPageX 0xFF)) ∧ WellFormed (.sty (.zeroPageX 0xFF)) ∧ WellFormed (.asl (.zeroPageX 0xFF)) ∧
      WellFormed (.lsr (.zeroPageX 0xFF)) ∧ WellFormed (.rol (.zeroPageX 0xFF)) ∧ WellFormed (.ror (.zeroPageX 0xFF)) ∧
      WellFormed (.inc (.zeroPageX 0xFF)) ∧ WellFormed (.dec (.zeroPageX 0xFF)) ∧ WellFormed (.slo (.zeroPageX 0xFF)) ∧
      WellFormed (.rla (.zeroPageX 0xFF)) ∧ WellFormed (.sre (.zeroPageX 0xFF)) ∧ WellFormed (.rra (.zeroPageX 0xFF)) ∧
      WellFormed (.dcp (.zeroPageX 0xFF)) ∧ WellFormed (.isc (.zeroPageX 0xFF))) ∧
    (effectiveAddr (.zeroPageY 0xFF) s = some 0x0000 ∧ storable (.zeroPageY 0xFF) s = true ∧
      readable (.zeroPageY 0xFF) s = true ∧ WellFormed (.stx (.zeroPageY 0xFF)) ∧ WellFormed (.sax (.zeroPageY 0xFF)) ∧
      WellFormed (.lax (.zeroPageY 0xFF)) ∧ Operand.mode (.zeroPageY 0xFF) ≠ .immediate) := by decide

/-- LogicalCombinesWithA, ComparesSetFlags and StoresWriteMemory: an instruction of each list, with all its hypotheses. -/
theorem wit_register_lists :
    let s := { base with a := 0xF0, x := 0x80 }
    ((Instr.eor (.immediate 0xFF), 0x0F#8) ∈ [(.and (.immediate 0xFF), s.a &&& operandByte (.immediate 0xFF) s),
        (.ora (.immediate 0xFF), s.a ||| operandByte (.immediate 0xFF) s),
        (.eor (.immediate 0xFF), s.a ^^^ operandByte (.immediate 0xFF) s)] ∧
      WellFormed (.eor (.immediate 0xFF)) ∧ readable (.immediate 0xFF) s = true) ∧
    ((Instr.cpx (.immediate 0xFF), 0x80#8) ∈
        [(.cmp (.immediate 0xFF), s.a), (.cpx (.immediate 0xFF), s.x), (.cpy (.immediate 0xFF), s.y)] ∧
      WellFormed (.cpx (.immediate 0xFF)) ∧ operandByte (.immediate 0xFF) s = 0xFF) ∧
    ((Instr.stx (.zeroPage 0xFF), 0x80#8) ∈
        [(.sta (.zeroPage 0xFF), s.a), (.stx (.zeroPage 0xFF), s.x), (.sty (.zeroPage 0xFF), s.y)] ∧
      WellFormed (.stx (.zeroPage 0xFF)) ∧ effectiveAddr (.zeroPage 0xFF) s = some 0x00FF ∧
      storable (.zeroPage 0xFF) s = true ∧ Memory.wf s.mem = true) := by decide

/-- ShiftsOfTheAccumulator and ShiftsOfMemory: ROR of 0x01 with the carry set. -/
theorem wit_shifts :
    let s := poke { base with a := 0x01, p := 0x25 } (0x0010, 0x01)
    1 = (flagC s.p).toNat ∧
    (Instr.ror .implicit, 0x80, true) ∈ [(.asl .implicit, s.a.toNat * 2 % 256, s.a.getLsbD 7),
      (.lsr .implicit, s.a.toNat / 2, s.a.getLsbD 0), (.rol .implicit, (s.a.toNat * 2 + 1) % 256, s.a.getLsbD 7),
      (.ror .implicit, s.a.toNat / 2 + 1 * 128, s.a.getLsbD 0)] ∧
    effectiveAddr (.zeroPage 0x10) s = some 0x0010 ∧ 0x01 = (s.peek 0x0010).toNat ∧
    (Instr.ror (.zeroPage 0x10), 0x80, true) ∈ [(.asl (.zeroPage 0x10), 0x01 * 2 % 256, (0x01).testBit 7),
      (.lsr (.zeroPage 0x10), 0x01 / 2, (0x01).testBit 0), (.rol (.zeroPage 0x10), (0x01 * 2 + 1) % 256, (0x01).testBit 7),
      (.ror (.zeroPage 0x10), 0x01 / 2 + 1 * 128, (0x01).testBit 0)] ∧
    WellFormed (.ror (.zeroPage 0x10)) ∧ storable (.zeroPage 0x10) s = true ∧ Memory.wf s.mem = true := by decide

/-- IncDecMemory and UndocumentedReadModifyWrite: the byte 0xFF incremented, with A 0x80 and the carry set. -/
theorem wit_modify :
    let s := poke { baseExecute with a := 0x80, p := 0x25 } (0x0010, 0xFF)
    s.params.undocPolicy = .execute ∧ effectiveAddr (.zeroPage 0x10) s = some 0x0010 ∧
    0xFF = (s.peek 0x0010).toNat ∧ 1 = (flagC s.p).toNat ∧ 1 = 0xFF % 2 ∧
    (Instr.inc (.zeroPage 0x10), 0x00#8) ∈
      [(.inc (.zeroPage 0x10), s.peek 0x0010 + 1), (.dec (.zeroPage 0x10), s.peek 0x0010 - 1)] ∧
    (Instr.isc (.zeroPage 0x10), 0x00, 0x180, true) ∈ [(.isc (.zeroPage 0x10), (0xFF + 1) % 256,
      s.a.toNat + (255 - (0xFF + 1) % 256) + 1, decide ((0xFF + 1) % 256 + (1 - 1) ≤ s.a.toNat))] ∧
    WellFormed (.inc (.zeroPage 0x10)) ∧ WellFormed (.isc (.zeroPage 0x10)) ∧ storable (.zeroPage 0x10) s = true ∧
    Memory.wf s.mem = true := by decide

/-- BranchesTestOneFlag, PushInstructions and the store clause of UnstableOpcodesRun: an entry of each list. -/
theorem wit_lists :
    (Instr.bne 0xFD, 0xD0#8, true) ∈ [(.beq 0xFD, 0xF0#8, flagZ base.p), (.bne 0xFD, 0xD0#8, !flagZ base.p)] ∧
    (Instr.php, 0x08#8, 0x34#8) ∈ [(.pha, 0x48#8, base.a), (.php, 0x08#8, base.p ||| 0x30#8)] ∧
    (Instr.shx 0xFFFF, Operand.absoluteY 0xFFFF, 0xFFFF#16, 0xFD#8) ∈
      [(.shx 0xFFFF, .absoluteY 0xFFFF, 0xFFFF#16 + base.y.setWidth 16, base.sp)] := by decide

/-- PullInstructions and Returns: pulls that wrap. -/
theorem wit_pulls :
    let s := { base with sp := 0xFE }
    s.isMemory (word16 0x01#8 (s.sp + 1)) = true ∧ s.isMemory (word16 0x01#8 (s.sp + 2)) = true ∧
    s.isMemory (word16 0x01#8 (s.sp + 3)) = true := by decide

/-- JsrSecondPushFaults: the byte below the stack pointer is the one hole of the bus. -/
theorem wit_jsr_fault :
    let s := onBus (ramBut 0x01FC) base
    Memory.wf s.mem = true ∧ s.isMemory (word16 0x01#8 s.sp) = true ∧
    backingOf s.busMap (word16 0x01#8 (s.sp - 1)) = none := by decide

/-- JmpSetsPc: the pointer at the end of a page. -/
theorem wit_jmp : base.isMemory 0x30FF = true ∧ base.isMemory (word16 (hiByte 0x30FF) (loByte 0x30FF + 1)) = true := by
  decide

/-- BrkTakesTheException, with the stack wrapping. -/
theorem wit_brk :
    let s := { base with sp := 0x01 }
    Memory.wf s.mem = true ∧ [word16 0x01#8 s.sp, word16 0x01#8 (s.sp - 1), word16 0x01#8 (s.sp - 2), 0xFFFE#16,
      0xFFFF#16].all s.isMemory = true := by decide

/-- ReturnsUndoEntries: its state, and the entries of its three clauses. -/
theorem wit_returns_undo :
    StateInv { base with sp := 0x01 } ∧ State.run { base with sp := 0x01 } = .running ∧
    [word16 0x01#8 0x01, word16 0x01#8 (0x01 - 1), word16 0x01#8 (0x01 - 2)].all (State.isRam base) = true ∧
    (∃ t, interruptEntry .irq { base with sp := 0x01 } = .next t ∧ (decide (t.run = .running) : Bool) = true) ∧
    (∃ t, exec .brk { base with sp := 0x01 } = .next t ∧ (decide (t.run = .running) : Bool) = true) ∧
    ∃ t, exec (.jsr 0x1234) { base with sp := 0x01 } = .next t ∧ (decide (t.run = .running) : Bool) = true :=
  ⟨by unfold StateInv LegalP; decide, rfl, by decide, exists_next (by decide), exists_next (by decide),
    exists_next (by decide)⟩

/-- NopsOnlyTakeTime: every form of the undocumented NOPs. -/
theorem wit_nops :
    WellFormed (.nopUndoc 0x1A .implicit) ∧ WellFormed (.nopUndoc 0x80 (.immediate 0xFF)) ∧
    WellFormed (.nopUndoc 0x04 (.zeroPage 0xFF)) ∧ WellFormed (.nopUndoc 0x14 (.zeroPageX 0xFF)) ∧
    WellFormed (.nopUndoc 0x0C (.absolute 0xFFFF)) ∧ WellFormed (.nopUndoc 0xFC (.absoluteX 0xFFFF)) := by decide

/-- UndocumentedOpcodesFault and OnlyUndocumentedOpcodesAreUnimplemented. -/
theorem wit_undocumented_faults :
    WellFormed (.kil 0xF2) ∧ base.params.undocPolicy = .fault ∧
    opcodeOf (.sax (.indexedIndirect 0xFF)) = some 0x83 ∧ resolvable (.indexedIndirect 0xFF) base = true ∧
    opcodeOf (.las 0xFFFF) = some 0xBB ∧ resolvable (.absoluteY 0xFFFF) base = true := by decide

theorem wit_unimplemented :
    ∃ t, exec (.kil 0x02) base = .next t ∧
      (decide (t.run = .faulted (.unimplementedInstruction 0x02)) : Bool) = true := exists_next (by decide)

/-- UndocumentedImmediates and UnstableOpcodesRun: their policy, a bus that is all memory, and AHX's forms. -/
theorem wit_execute :
    baseExecute.params.undocPolicy = .execute ∧ Memory.wf baseExecute.mem = true ∧ WellFormed (.anc 0x2B 0xFF) ∧
    WellFormed (.ahx (.indirectIndexed 0xFF)) ∧ WellFormed (.ahx (.absoluteY 0xFFFF)) := by decide

theorem wit_all_memory (a : Addr) : baseExecute.isMemory a = true := by
  have h : ((0x0000#16 ≤ a) ∧ a ≤ 0xFFFF#16) := ⟨by bv_omega, by bv_omega⟩
  simp [State.isMemory, baseExecute, base, State.reset, State.flatRam, backingOf, Region.holds, h.1, h.2]

/-- RegisterWriters, FlagWriters: instructions that do change what the clauses speak of. -/
theorem wit_writers :
    StateInv base ∧
    (∃ t, exec (.adc (.immediate 0x80)) { base with a := 0x80 } = .next t ∧
      (decide (t.a ≠ 0x80 ∧ flagC t.p ≠ flagC base.p ∧ flagZ t.p ≠ flagZ base.p ∧ flagV t.p ≠ flagV base.p) : Bool)
        = true) ∧
    (∃ t, exec .dex base = .next t ∧ (decide (t.x ≠ base.x ∧ flagN t.p ≠ flagN base.p) : Bool) = true) ∧
    (∃ t, exec .dey base = .next t ∧ (decide (t.y ≠ base.y) : Bool) = true) ∧
    (∃ t, exec .cli base = .next t ∧ (decide (flagI t.p ≠ flagI base.p) : Bool) = true) ∧
    (∃ t, exec .sed base = .next t ∧ (decide (flagD t.p ≠ flagD base.p) : Bool) = true) ∧
    ∃ t, exec (.jsr 0x1234) base = .next t ∧ (decide (t.sp ≠ base.sp ∧ t.pc ≠ base.pc) : Bool) = true :=
  ⟨by unfold StateInv LegalP; decide, exists_next (by decide), exists_next (by decide), exists_next (by decide),
    exists_next (by decide), exists_next (by decide), exists_next (by decide)⟩

/-- NonStoringFormsKeepMemory: a load, an accumulator shift, and a storing mnemonic that faults under `fault`. -/
theorem wit_non_storing :
    (∃ t, exec (.lda (.zeroPage 0x10)) base = .next t ∧ (decide (t.run = .running) : Bool) = true) ∧
    (∃ t, exec (.asl .implicit) base = .next t ∧ (decide (Instr.mode (.asl .implicit) = .implicit) : Bool) = true) ∧
    ∃ t, exec (.slo (.zeroPage 0x10)) base = .next t ∧ (decide (base.params.undocPolicy = .fault) : Bool) = true :=
  ⟨exists_next (by decide), exists_next (by decide), exists_next (by decide)⟩

/-- StoringFormsKeepOtherBytes: a byte outside the stored ones, for a store, AHX, a push, JSR and BRK. -/
theorem wit_storing :
    (resolve (.zeroPage 0x10) base = .done ⟨some 0x0010, false⟩ base ∧ (0x0010#16) ≠ 0x0011#16) ∧
    (ahxTarget ⟨some 0x1234, false⟩ baseExecute).ea ≠ some 0x0011#16 ∧
    (0x0200#16 ≠ stackAddr base.sp ∧ 0x0200#16 ≠ stackAddr (base.sp - 1) ∧ 0x0200#16 ≠ stackAddr (base.sp - 2)) ∧
    (∃ t, exec (.sta (.zeroPage 0x10)) base = .next t ∧ (decide (t.run = .running) : Bool) = true) ∧
    (∃ t, exec (.ahx (.absoluteY 0x1234)) baseExecute = .next t ∧ (decide (t.run = .running) : Bool) = true) ∧
    (∃ t, exec .pha base = .next t ∧ (decide (t.run = .running) : Bool) = true) ∧
    (∃ t, exec (.jsr 0x1234) base = .next t ∧ (decide (t.run = .running) : Bool) = true) ∧
    ∃ t, exec .brk base = .next t ∧ (decide (t.run = .running) : Bool) = true :=
  ⟨⟨rfl, by decide⟩, by decide, by decide, exists_next (by decide), exists_next (by decide), exists_next (by decide),
    exists_next (by decide), exists_next (by decide)⟩

/-- UnmappedOperandFaults, the fetch: the second byte wraps to an unmapped 0x0000, of a ZeroPage and of an Immediate
instruction; the third byte wraps to it; an undocumented Immediate instruction that reads its byte. -/
theorem wit_unmapped_fetch :
    [(0xA5#8, Mode.zeroPage), (0xA9#8, Mode.immediate)].all (fun c =>
      let s := onBus [⟨0x8000, 0xFFFF, .ram⟩] (start [c.1] [] { base with pc := 0xFFFF })
      decide (s.run = .running ∧ s.nmiPending = false ∧ flagI s.p = true ∧ s.isMemory s.pc = true ∧
        (entryOf (s.peek s.pc)).mode = c.2 ∧ backingOf s.busMap (s.pc + 1) = none)) = true ∧
    (let s := onBus [⟨0x8000, 0xFFFF, .ram⟩] (start [0x6C, 0x00] [] { base with pc := 0xFFFE })
     s.run = .running ∧ s.nmiPending = false ∧ s.isMemory s.pc = true ∧ s.isMemory (s.pc + 1) = true ∧
      (entryOf (s.peek s.pc)).mode = .indirect ∧ backingOf s.busMap (s.pc + 2) = none) ∧
    (entryOf 0xA9).mnemonic = .lda ∧ (entryOf 0x4B).mnemonic = .alr ∧ (entryOf 0x4B).mode = .immediate ∧
    baseExecute.params.undocPolicy = .execute := by decide

/-- UnmappedOperandFaults: a hole at the pointer, at its second byte, and at the effective address. -/
theorem wit_unmapped_operand :
    (WellFormed (.lda (.indirectIndexed 0x20)) ∧ pointerAddr (.indirectIndexed 0x20) base = some 0x0020 ∧
      backingOf (onBus (ramBut 0x0020) base).busMap 0x0020 = none) ∧
    ((onBus (ramBut 0x0021) base).isMemory 0x0020 = true ∧
      backingOf (onBus (ramBut 0x0021) base).busMap (word16 (hiByte 0x0020) (loByte 0x0020 + 1)) = none) ∧
    (let s := onBus (ramBut 0x0020) base
     WellFormed (.inc (.zeroPage 0x20)) ∧ Instr.mode (.inc (.zeroPage 0x20)) ≠ .immediate ∧
      resolvable (.zeroPage 0x20) s = true ∧ effectiveAddr (.zeroPage 0x20) s = some 0x0020 ∧
      backingOf s.busMap 0x0020 = none) := by decide

end Sys2Proof.Tests
end

section
/-! The family 10_state: what every transition keeps, what it adds to the cycle counter, and which registers and flags an
instruction writes. -/

namespace Sys2Proof.Machine

/-! ## A property that every write keeps is kept by every transition -/

/-- A property of the state that every write a transition can make keeps: the writes of `Survives` whatever the
instruction, and the NMI acknowledgement of an interrupt entry (60_exceptions.md R352). -/
structure KeptByWrites (P : State → Prop) : Prop where
  log : ∀ acc u, P u → P (u.log acc)
  run : ∀ f u, P u → P (u.setRun (.faulted f))
  cycles : ∀ n u, P u → P (u.addCycles n)
  a : ∀ v u, P u → P (u.setA v)
  x : ∀ v u, P u → P (u.setX v)
  y : ∀ v u, P u → P (u.setY v)
  sp : ∀ v u, P u → P (u.setSp v)
  pc : ∀ v u, P u → P (u.setPc v)
  p : ∀ p' u, (LegalP u.p → LegalP p') → P u → P (u.setP p')
  nmi : ∀ u, P u → P (u.setNmiPending false)
  free : ∀ n u, P u → P (u.setFreeIndex n)
  mem : ∀ (a : Addr) v u, P u → u.isRam a = true → P (u.setMem (Memory.write u.mem a.toNat v))

section

variable {P : State → Prop} {s t : State}

theorem KeptByWrites.survives (h : KeptByWrites P) (i : Instr) (s : State) : Survives P i s where
  log := h.log
  run := h.run
  cycles := h.cycles
  a _ := h.a
  x _ := h.x
  y _ := h.y
  sp _ := h.sp
  pc _ := h.pc
  p p' u he := h.p p' u he.legal
  free _ := h.free
  mem a v u _ := h.mem a v u

theorem KeptByWrites.of_interruptEntry (h : KeptByWrites P) (hs : P s) {kind : InterruptKind}
    (ht : interruptEntry kind s = .next t) : P t :=
  interruptEntry_survives h.log h.run h.cycles h.sp h.pc (fun u hu => h.p _ u (by simp [LegalP]) hu) h.nmi h.mem hs ht

theorem KeptByWrites.of_step (h : KeptByWrites P) (hs : P s) (ht : step s = .next t) : P t := by
  have hfetch := fetchInstr_all h.log h.run h.pc hs
  obtain ⟨-, ⟨kind, hentry⟩ | ⟨i, u, hdone, hexec⟩ | ⟨f, hraised⟩⟩ := step_cases ht
  · exact h.of_interruptEntry hs hentry
  · rw [hdone] at hfetch
    exact exec_survives (h.survives i u) hfetch hexec
  · rw [hraised] at hfetch
    exact hfetch

/-- `reset()` keeps what its register writes and the writes of its vector read keep (70_reset_and_hazards.md R380). -/
theorem KeptByWrites.of_resetCall (h : KeptByWrites P) (hs : P (resetRegisters s))
    (ht : resetCall s = .next t) : P t := by
  refine Result.All.of_next (Result.All.bind (memRead16_all h.log h.run _ hs) fun target u hu => ?_) ht
  exact h.pc target u hu

end

/-! ## The cycles of a transition (40_addressing_modes.md R136, R139) -/

/-- A computation that started in `s` added no cycles; when it raised a fault it ends in Faulted with that fault, and
otherwise in the run state it started in. -/
def Result.UnchargedFrom {α : Type} (s : State) : Result α → Prop
  | .done _ t => t.run = s.run ∧ t.cycles = s.cycles
  | .raised f t => t.run = .faulted f ∧ t.cycles = s.cycles

namespace Result.UnchargedFrom

variable {α β : Type} {s u : State}

/-- The writes before a computation do not matter when they leave the run state and the counter. -/
theorem of_same {r : Result α} (h : r.UnchargedFrom u) (hrun : u.run = s.run) (hcycles : u.cycles = s.cycles) :
    r.UnchargedFrom s := by
  cases r with
  | done v t => exact ⟨h.1.trans hrun, h.2.trans hcycles⟩
  | raised f t => exact ⟨h.1, h.2.trans hcycles⟩

theorem bind {r : Result α} {k : α → State → Result β} (hr : r.UnchargedFrom s)
    (hk : ∀ v t, (k v t).UnchargedFrom t) : (r.bind k).UnchargedFrom s := by
  cases r with
  | done v t => exact (hk v t).of_same hr.1 hr.2
  | raised f t => exact hr

/-- A transition that adds its cycles last: all of them, or none when a fault was raised. -/
theorem charge {r : Result α} {cost : α → State → Nat} {t : State} (hr : r.UnchargedFrom s)
    (ht : (r.bind fun v u => .done () (u.addCycles (cost v u))).toOutcome = .next t) :
    (∃ f, t.run = .faulted f ∧ t.cycles = s.cycles) ∨
      (t.run = s.run ∧ ∃ v u, t.cycles = s.cycles + cost v u) := by
  cases r with
  | done v u =>
    cases ht
    exact .inr ⟨hr.1, v, u, congrArg (· + cost v u) hr.2⟩
  | raised f u =>
    cases ht
    exact .inl ⟨f, hr⟩

end Result.UnchargedFrom

theorem busRead_uncharged (a : Addr) (s : State) : (busRead a s).UnchargedFrom s := by
  rcases busRead_cases a s with ⟨v, e⟩ | e <;> rw [e] <;> exact ⟨rfl, rfl⟩

theorem busWrite_uncharged (a : Addr) (v : Byte) (s : State) : (busWrite a v s).UnchargedFrom s := by
  rcases busWrite_cases a v s with ⟨-, e⟩ | ⟨-, e⟩ | ⟨-, e⟩ <;> rw [e] <;> exact ⟨rfl, rfl⟩

theorem memRead16_uncharged (a : Addr) (s : State) : (memRead16 a s).UnchargedFrom s :=
  (busRead_uncharged a s).bind fun _ _ => (busRead_uncharged _ _).bind fun _ _ => ⟨rfl, rfl⟩

theorem memReadWrap_uncharged (a : Addr) (s : State) : (memReadWrap a s).UnchargedFrom s :=
  (busRead_uncharged a s).bind fun _ _ => (busRead_uncharged _ _).bind fun _ _ => ⟨rfl, rfl⟩

theorem push_uncharged (v : Byte) (s : State) : (push v s).UnchargedFrom s :=
  (busWrite_uncharged _ v s).bind fun _ _ => ⟨rfl, rfl⟩

theorem push16_uncharged (w : Addr) (s : State) : (push16 w s).UnchargedFrom s :=
  (push_uncharged _ s).bind fun _ _ => push_uncharged _ _

theorem pull_uncharged (s : State) : (pull s).UnchargedFrom s := (busRead_uncharged _ _).of_same rfl rfl

theorem pull16_uncharged (s : State) : (pull16 s).UnchargedFrom s :=
  (pull_uncharged s).bind fun _ _ => (pull_uncharged _).bind fun _ _ => ⟨rfl, rfl⟩

theorem enterException_uncharged (brk : Bool) (vector : Addr) (s : State) :
    (enterException brk vector s).UnchargedFrom s := by
  refine (push16_uncharged _ s).bind fun _ _ => (push_uncharged _ _).bind fun _ u => ?_
  rw [beforeVector_eq]
  exact ((memRead16_uncharged vector _).of_same rfl rfl).bind fun _ _ => ⟨rfl, rfl⟩

theorem returnFromException_uncharged (s : State) : (returnFromException s).UnchargedFrom s :=
  (pull_uncharged s).bind fun _ _ => ((pull16_uncharged _).of_same rfl rfl).bind fun _ _ => ⟨rfl, rfl⟩

theorem resolve_uncharged (o : Operand) (s : State) : (resolve o s).UnchargedFrom s := by
  cases o with
  | indexedIndirect zp8 | indirectIndexed zp8 | indirect ptr16 =>
    exact (memReadWrap_uncharged _ s).bind fun _ _ => ⟨rfl, rfl⟩
  | _ => exact ⟨rfl, rfl⟩

theorem fetch8_uncharged (s : State) : (fetch8 s).UnchargedFrom s :=
  (busRead_uncharged _ s).bind fun _ _ => ⟨rfl, rfl⟩

theorem fetchImmediate_uncharged (m : Mnemonic) (s : State) : (fetchImmediate m s).UnchargedFrom s := by
  unfold fetchImmediate
  split
  · exact (busRead_uncharged _ _).of_same rfl rfl
  · exact ⟨rfl, rfl⟩

theorem fetchInstr_uncharged (s : State) : (fetchInstr s).UnchargedFrom s := by
  refine (fetch8_uncharged s).bind fun opcode u => ?_
  unfold fetchOperands
  split
  · exact (fetchImmediate_uncharged _ u).bind fun _ _ => ⟨rfl, rfl⟩
  · split
    · exact ⟨rfl, rfl⟩
    · exact (fetch8_uncharged u).bind fun _ _ => ⟨rfl, rfl⟩
    · exact (fetch8_uncharged u).bind fun _ _ => (fetch8_uncharged _).bind fun _ _ => ⟨rfl, rfl⟩

/-! ## The cycles of an instruction -/

/-- A handler never adds cycles: `perform` does, after it. -/
def Uncharged (handler : Resolved → State → Result Bool) : Prop := ∀ r u, (handler r u).UnchargedFrom u

/-- An effect on registers and flags leaves the run state and the counter. -/
def KeepsClock (f : State → State) : Prop := ∀ u, (f u).run = u.run ∧ (f u).cycles = u.cycles

theorem jumpTo_keepsClock (r : Resolved) : KeepsClock (jumpTo r) := by
  intro u
  unfold jumpTo
  split <;> exact ⟨rfl, rfl⟩

theorem laxEffect_keepsClock (o : Operand) (m : Byte) : KeepsClock (laxEffect o m) := by
  intro u
  unfold laxEffect
  split <;> exact ⟨rfl, rfl⟩

theorem readOperand_uncharged (o : Operand) (r : Resolved) (s : State) : (readOperand o r s).UnchargedFrom s := by
  unfold readOperand
  split
  · exact ⟨rfl, rfl⟩
  · exact busRead_uncharged _ s
  · exact ⟨rfl, rfl⟩

theorem writeOperand_uncharged (r : Resolved) (v : Byte) (s : State) : (writeOperand r v s).UnchargedFrom s := by
  unfold writeOperand
  split
  · exact busWrite_uncharged _ v s
  · exact ⟨rfl, rfl⟩

theorem readThen_uncharged (o : Operand) {f : Byte → State → State} (hf : ∀ m, KeepsClock (f m)) :
    Uncharged (readThen o f) := fun r u => (readOperand_uncharged o r u).bind fun m w => hf m w

theorem registerOnly_uncharged {f : State → State} (hf : KeepsClock f) : Uncharged (registerOnly f) := fun _ u => hf u

theorem branchIf_uncharged (cond : Byte → Bool) : Uncharged (branchIf cond) := by
  intro r u
  unfold branchIf
  split
  · exact jumpTo_keepsClock r u
  · exact ⟨rfl, rfl⟩

theorem storeByte_uncharged (value : State → Byte) : Uncharged (storeByte value) :=
  fun r u => (writeOperand_uncharged r _ u).bind fun _ _ => ⟨rfl, rfl⟩

theorem storeUnstable_uncharged : Uncharged storeUnstable :=
  fun r _ => (storeByte_uncharged _ r _).of_same rfl rfl

theorem readModifyWrite_uncharged (o : Operand) (change : Byte → State → Byte) {after : Byte → State → State}
    (hafter : ∀ v, KeepsClock (after v)) : Uncharged (readModifyWrite o change after) :=
  fun r u => (readOperand_uncharged o r u).bind fun v _ => (writeOperand_uncharged r _ _).bind fun _ w => hafter v w

theorem shiftHandler_uncharged (o : Operand) (shift : Byte → Byte → Shifted) : Uncharged (shiftHandler o shift) :=
  readModifyWrite_uncharged o _ fun _ _ => ⟨rfl, rfl⟩

theorem unimplemented_uncharged (i : Instr) (s : State) : (unimplemented i s).UnchargedFrom s := ⟨rfl, rfl⟩

/-- An instruction whose handler adds no cycles. -/
def PerformsUncharged (i : Instr) (s : State) : Prop := ∃ handler, Uncharged handler ∧ exec i s = perform i handler s

theorem performsUncharged {i : Instr} {handler : Resolved → State → Result Bool} {s : State}
    (he : exec i s = perform i handler s) (h : Uncharged handler) : PerformsUncharged i s := ⟨handler, h, he⟩

theorem performsUncharged_undoc {i : Instr} {handler : Resolved → State → Result Bool} {s : State}
    (he : exec i s = performUndoc i handler s) (h : Uncharged handler) : PerformsUncharged i s := by
  refine ⟨_, fun r u => ?_, he⟩
  split
  · exact unimplemented_uncharged i u
  · exact h r u

/-- Every meaning is `perform` around a handler that adds no cycles. -/
theorem exec_performsUncharged (i : Instr) (s : State) : PerformsUncharged i s := by
  cases i with
  | adc o | sbc o | and o | ora o | eor o | bit o | cmp o | cpx o | cpy o | lda o | ldx o | ldy o =>
    exact performsUncharged rfl (readThen_uncharged _ fun _ _ => ⟨rfl, rfl⟩)
  | sbcUndoc imm8 =>
    refine performsUncharged (by unfold exec; rfl) ?_
    exact readThen_uncharged _ fun _ _ => ⟨rfl, rfl⟩
  | asl o | lsr o | rol o | ror o => exact performsUncharged rfl (shiftHandler_uncharged _ _)
  | inc o | dec o =>
    exact performsUncharged rfl (readModifyWrite_uncharged _ _ fun _ _ => ⟨rfl, rfl⟩)
  | bcc rel8 | bcs rel8 | beq rel8 | bne rel8 | bmi rel8 | bpl rel8 | bvc rel8 | bvs rel8 =>
    exact performsUncharged rfl (branchIf_uncharged _)
  | tax | txa | tay | tya | tsx | txs | clc | sec | cli | sei | cld | sed | clv | nop | inx | iny | dex | dey
  | nopUndoc opcode o =>
    refine performsUncharged (by unfold exec; rfl) ?_
    exact registerOnly_uncharged fun _ => ⟨rfl, rfl⟩
  | sta o | stx o | sty o => exact performsUncharged rfl (storeByte_uncharged _)
  | pha | php => exact performsUncharged rfl fun _ u => (push_uncharged _ u).bind fun _ _ => ⟨rfl, rfl⟩
  | pla | plp => exact performsUncharged rfl fun _ u => (pull_uncharged u).bind fun _ _ => ⟨rfl, rfl⟩
  | jsr addr16 => exact performsUncharged rfl fun r u => (push16_uncharged _ u).bind fun _ w => jumpTo_keepsClock r w
  | rts => exact performsUncharged rfl fun _ u => (pull16_uncharged u).bind fun _ _ => ⟨rfl, rfl⟩
  | rti => exact performsUncharged rfl fun _ u => (returnFromException_uncharged u).bind fun _ _ => ⟨rfl, rfl⟩
  | jmp o => exact performsUncharged rfl fun r u => jumpTo_keepsClock r u
  | brk =>
    exact performsUncharged rfl fun _ _ =>
      ((enterException_uncharged true _ _).of_same rfl rfl).bind fun _ _ => ⟨rfl, rfl⟩
  | kil opcode | xaa imm8 => exact performsUncharged rfl fun _ u => unimplemented_uncharged _ u
  | slo o | rla o | sre o | rra o | dcp o | isc o =>
    exact performsUncharged_undoc rfl (readModifyWrite_uncharged _ _ fun _ _ => ⟨rfl, rfl⟩)
  | lax o => exact performsUncharged_undoc rfl (readThen_uncharged _ (laxEffect_keepsClock o))
  | anc opcode imm8 | alr imm8 | arr imm8 | axs imm8 | las addr16 =>
    exact performsUncharged_undoc rfl (readThen_uncharged _ fun _ _ => ⟨rfl, rfl⟩)
  | sax o => exact performsUncharged_undoc rfl (storeByte_uncharged _)
  | shy addr16 | shx addr16 => exact performsUncharged_undoc rfl storeUnstable_uncharged
  | ahx o | tas addr16 => exact performsUncharged_undoc rfl fun _ _ => (storeUnstable_uncharged _ _).of_same rfl rfl

/-- An instruction adds no cycles when it raises a fault, and 2 to 8 otherwise (40_addressing_modes.md R139,
70_reset_and_hazards.md R395). -/
theorem exec_charge {i : Instr} {s t : State} (ht : exec i s = .next t) :
    (∃ f, t.run = .faulted f ∧ t.cycles = s.cycles) ∨
      (t.run = s.run ∧ s.cycles + 2 ≤ t.cycles ∧ t.cycles ≤ s.cycles + 8) := by
  obtain ⟨op, hop⟩ := opcodeOf_of_next ht
  obtain ⟨handler, hh, he⟩ := exec_performsUncharged i s
  rw [he, perform_eq hop] at ht
  have hres := resolve_uncharged i.operand s
  cases hr : resolve i.operand s with
  | raised f u =>
    rw [hr] at ht hres
    cases ht
    exact .inl ⟨f, hres⟩
  | done r u =>
    rw [hr] at ht hres
    refine (((hh r u).of_same hres.1 hres.2).charge ht).imp_right fun ⟨hrun, taken, _, hcycles⟩ => ?_
    obtain ⟨hlow, hhigh⟩ := cost_bounds op r.crossed taken
    exact ⟨hrun, by omega, by omega⟩

/-- An interrupt entry that raises a fault leaves the cycle counter (60_exceptions.md R352). -/
theorem interruptEntry_cycles_of_faulted {kind : InterruptKind} {s t : State} (ht : interruptEntry kind s = .next t)
    {f : Fault} (hf : t.run = .faulted f) : t.cycles = s.cycles := by
  unfold interruptEntry at ht
  split at ht
  · cases ht
  · rename_i hrunning
    have hsame : (kind.acknowledge s).run = s.run ∧ (kind.acknowledge s).cycles = s.cycles := by
      cases kind <;> exact ⟨rfl, rfl⟩
    rcases ((enterException_uncharged false _ _).of_same hsame.1 hsame.2).charge ht with ⟨-, -, hcycles⟩ | ⟨hrun, -⟩
    · exact hcycles
    · rw [hrun, hrunning] at hf; cases hf

/-- A step that raises a fault leaves the cycle counter (40_addressing_modes.md R139). -/
theorem step_cycles_of_faulted {s t : State} (ht : step s = .next t) {f : Fault} (hf : t.run = .faulted f) :
    t.cycles = s.cycles := by
  have hfetch := fetchInstr_uncharged s
  obtain ⟨hrunning, ⟨kind, hentry⟩ | ⟨i, u, hdone, hexec⟩ | ⟨g, hraised⟩⟩ := step_cases ht
  · exact interruptEntry_cycles_of_faulted hentry hf
  · rw [hdone] at hfetch
    obtain ⟨hurun, hucycles⟩ := hfetch
    rcases exec_charge hexec with ⟨-, -, hcycles⟩ | ⟨hrun, -⟩
    · exact hcycles.trans hucycles
    · rw [hrun, hurun, hrunning] at hf; cases hf
  · rw [hraised] at hfetch
    exact hfetch.2

/-! ## The invariant (10_state.md R31, R33) -/

theorem stateInv_kept : KeptByWrites StateInv where
  log _ _ h := h
  run _ _ h := h
  cycles _ _ h := h
  a _ _ h := h
  x _ _ h := h
  y _ _ h := h
  sp _ _ h := h
  pc _ _ h := h
  p _ _ hlegal h := ⟨hlegal h.1, h.2⟩
  nmi _ h := h
  free _ _ h := h
  mem a v _ h _ := ⟨h.1, Memory.wf_write h.2 a v⟩

/-- The status register after `reset()` is legal (10_state.md R48). -/
theorem legalP_reset : LegalP 0x24#8 := ⟨by decide, by decide⟩

theorem stateInv_resetRegisters {s : State} (h : StateInv s) : StateInv (resetRegisters s) := ⟨legalP_reset, h.2⟩

/-- Settles O15: the invariant is kept by every single write. -/
theorem stepKeepsInv : Obligations.StepKeepsInv := fun _ _ hs =>
  ⟨stateInv_kept.of_step hs, fun _ => stateInv_kept.of_interruptEntry hs,
    stateInv_kept.of_resetCall (stateInv_resetRegisters hs)⟩

/-! ## The environment's fields (10_state.md R40, R43, R44; 20_memory.md R90) -/

/-- What every state on the way from `s` has in common with it. -/
def SameEnvironment (s u : State) : Prop :=
  s.cycles ≤ u.cycles ∧ u.irqLine = s.irqLine ∧ u.params = s.params ∧ u.busMap = s.busMap ∧
  (u.nmiPending = true → s.nmiPending = true) ∧ ∃ accesses : List BusAccess, u.busLog = accesses ++ s.busLog

theorem SameEnvironment.refl (s : State) : SameEnvironment s s := ⟨Nat.le_refl _, rfl, rfl, rfl, id, [], rfl⟩

theorem sameEnvironment_kept (s : State) : KeptByWrites (SameEnvironment s) where
  log acc _ := fun ⟨hcyc, hirq, hpar, hbus, hnmi, accesses, hlog⟩ =>
    ⟨hcyc, hirq, hpar, hbus, hnmi, acc :: accesses, congrArg (acc :: ·) hlog⟩
  run _ _ h := h
  cycles _ _ := fun ⟨hcyc, h⟩ => ⟨Nat.le_add_right_of_le hcyc, h⟩
  a _ _ h := h
  x _ _ h := h
  y _ _ h := h
  sp _ _ h := h
  pc _ _ h := h
  p _ _ _ h := h
  nmi _ := fun ⟨hcyc, hirq, hpar, hbus, _, hlog⟩ =>
    ⟨hcyc, hirq, hpar, hbus, fun h => absurd h Bool.false_ne_true, hlog⟩
  free _ _ h := h
  mem _ _ _ h _ := h

/-- Settles O13: every write keeps the environment's fields, and the cycles are added last. -/
theorem stepLeavesTheEnvironmentAlone : Obligations.StepLeavesTheEnvironmentAlone := by
  intro s t ht
  obtain ⟨hcyc, hrest⟩ := (sameEnvironment_kept s).of_step (SameEnvironment.refl s) ht
  exact ⟨hcyc, fun _ hf => step_cycles_of_faulted ht hf, hrest⟩

/-! ## The writers of each register and flag (10_state.md R21 to R36) -/

/-- What instruction `i`, started in `s`, has changed in the registers of `u` is a register it may write. -/
def OnlyOwnRegisters (i : Instr) (s u : State) : Prop :=
  (u.a ≠ s.a → MayWriteA i s.params.undocPolicy) ∧ (u.x ≠ s.x → MayWriteX i s.params.undocPolicy) ∧
  (u.y ≠ s.y → MayWriteY i) ∧ (u.sp ≠ s.sp → MayWriteS i s.params.undocPolicy) ∧ (u.pc ≠ s.pc → MayWritePc i)

theorem OnlyOwnRegisters.refl (i : Instr) (s : State) : OnlyOwnRegisters i s s :=
  ⟨absurd rfl, absurd rfl, absurd rfl, absurd rfl, absurd rfl⟩

theorem onlyOwnRegisters_survives (i : Instr) (s : State) : Survives (OnlyOwnRegisters i s) i s where
  log _ _ h := h
  run _ _ h := h
  cycles _ _ h := h
  a hw _ _ := fun ⟨_, h⟩ => ⟨fun _ => hw, h⟩
  x hw _ _ := fun ⟨ha, _, h⟩ => ⟨ha, fun _ => hw, h⟩
  y hw _ _ := fun ⟨ha, hx, _, h⟩ => ⟨ha, hx, fun _ => hw, h⟩
  sp hw _ _ := fun ⟨ha, hx, hy, _, h⟩ => ⟨ha, hx, hy, fun _ => hw, h⟩
  pc hw _ _ := fun ⟨ha, hx, hy, hsp, _⟩ => ⟨ha, hx, hy, hsp, fun _ => hw⟩
  p _ _ _ h := h
  free _ _ _ h := h
  mem _ _ _ _ h _ := h

/-- Settles O56: each write of a register stands in an instruction that may write it. -/
theorem registerWriters : Obligations.RegisterWriters := fun i s _ ht =>
  exec_survives (onlyOwnRegisters_survives i s) (OnlyOwnRegisters.refl i s) ht

theorem FlagEffect.refl (i : Instr) (policy : UndocPolicy) (p : Byte) : FlagEffect i policy p p :=
  ⟨absurd rfl, absurd rfl, absurd rfl, absurd rfl, absurd rfl, absurd rfl, id⟩

/-- The status register is written by effects of the instruction's own, which compose. -/
theorem flagEffect_survives (i : Instr) (s : State) :
    Survives (fun u => FlagEffect i s.params.undocPolicy s.p u.p) i s where
  log _ _ h := h
  run _ _ h := h
  cycles _ _ h := h
  a _ _ _ h := h
  x _ _ _ h := h
  y _ _ _ h := h
  sp _ _ _ h := h
  pc _ _ _ h := h
  p _ _ heffect h := h.trans heffect
  free _ _ _ h := h
  mem _ _ _ _ h _ := h

/-- Settles O57: each write of P is a flag effect of the instruction, and such effects compose. -/
theorem flagWriters : Obligations.FlagWriters := by
  intro i s t ⟨hlegal, _⟩ ht
  obtain ⟨hc, hz, hn, hint, hd, hv, hkeep⟩ := exec_survives (flagEffect_survives i s) (FlagEffect.refl i _ s.p) ht
  exact ⟨hc, fun h => h.elim hz hn, hint, hd, hv, hkeep hlegal⟩

/-! ## The state after `reset()` (10_state.md R48) -/

/-- Settles O16: P is 0x24 and nothing is written in memory. -/
theorem resetHasInv : Obligations.ResetHasInv := ⟨legalP_reset, rfl⟩

/-- Settles O17: the fields of `State.reset`; memory with nothing written reads 0x00 at both vector bytes. -/
theorem resetState : Obligations.ResetState := ⟨rfl, rfl, rfl, rfl, rfl, rfl, rfl, rfl, rfl⟩

end Sys2Proof.Machine
end

section
/-! The family 20_memory: the bus operations, the 16-bit reads and the stack, which bytes an instruction may change, and
that every change is a logged write. -/

namespace Sys2Proof.Machine

/-! ## The bus (20_memory.md R60, R83) -/

/-- A read that a device declines raises a fault with its own address. -/
theorem busRead_declined {a : Addr} {s : State} (h : backingOf s.busMap a = some .external)
    (hd : Config.externalRead s.busLog a = none) :
    busRead a s = .raised (.unmappedAddress a) (s.setRun (.faulted (.unmappedAddress a))) := by
  simp [busRead, raise, h, hd]

/-- A device answers a read with a byte of its own. -/
theorem busRead_external {a : Addr} {w : Byte} {s : State} (h : backingOf s.busMap a = some .external)
    (hd : Config.externalRead s.busLog a = some w) : busRead a s = .done w (s.log ⟨.read, a, w⟩) := by
  simp [busRead, h, hd]

/-- A device accepts a write: no byte of memory changes. -/
theorem busWrite_external {a : Addr} {v : Byte} {s : State} (h : backingOf s.busMap a = some .external)
    (hd : Config.externalWrite s.busLog a v = true) : busWrite a v s = .done () (s.log ⟨.write, a, v⟩) := by
  simp [busWrite, h, hd]

/-- A write that a device declines raises a fault with its own address. -/
theorem busWrite_declined {a : Addr} {v : Byte} {s : State} (h : backingOf s.busMap a = some .external)
    (hd : Config.externalWrite s.busLog a v = false) :
    busWrite a v s = .raised (.unmappedAddress a) (s.setRun (.faulted (.unmappedAddress a))) := by
  simp [busWrite, raise, h, hd]

/-- Settles O19: one rule of the bus for each backing. -/
theorem busAccesses : Obligations.BusAccesses := by
  intro a v s
  refine ⟨busRead_memory, fun hm hwf => ⟨_, busWrite_memory hm, memoryAfter_one hwf a v⟩,
    fun h w => busRead_external h, busWrite_external, ?_, ?_⟩
  · rintro (h | ⟨h, hd⟩)
    · exact busRead_unmapped h
    · exact busRead_declined h hd
  · rintro (h | ⟨h, hd⟩)
    · exact busWrite_unmapped h
    · exact busWrite_declined h hd

/-! ## The 16-bit reads (20_memory.md R62, R63) -/

/-- Inside a page the next byte of the page is the next byte of memory. -/
theorem nextInPage_of_lo_ne {a : Addr} (h : loByte a ≠ 0xFF#8) : nextInPage a = a + 1 := by
  have hlo : a.toNat % 256 ≠ 255 := fun he => h (BitVec.eq_of_toNat_eq ((toNat_loByte a).trans he))
  apply BitVec.eq_of_toNat_eq
  have := a.isLt
  have hbyte : (loByte a + 1).toNat = (a.toNat % 256 + 1) % 256 := by rw [BitVec.toNat_add, toNat_loByte]; rfl
  have hword : (a + 1).toNat = (a.toNat + 1) % 65536 := by rw [BitVec.toNat_add]; rfl
  rw [nextInPage, toNat_word16, toNat_hiByte, hbyte, hword]
  omega

/-- At the end of a page the next byte of the page is its first. -/
theorem nextInPage_of_lo_eq {a : Addr} (h : loByte a = 0xFF#8) : nextInPage a = word16 (hiByte a) 0x00#8 := by
  rw [nextInPage, h]; rfl

/-- Settles O20: both reads on memory, and where the second byte of a page lies. -/
theorem sixteenBitReads : Obligations.SixteenBitReads := by
  intro a s h
  refine ⟨memRead16_memory h, ?_⟩
  rintro b rfl h'
  exact ⟨memReadWrap_memory h h', nextInPage_of_lo_ne, nextInPage_of_lo_eq⟩

/-! ## The stack (20_memory.md R70 to R75) -/

/-- Settles O21: a push and a pull on memory. -/
theorem pushAndPull : Obligations.PushAndPull := fun v _ =>
  ⟨fun hm hwf => ⟨_, push_memory hm, memoryAfter_one hwf _ v⟩, pull_memory⟩

/-- `Pull16` from two below `sp`: the word at `sp` and below it, and the stack pointer is `sp` again. -/
theorem pull16_of_sp_sub_two {t : State} {sp : Byte} (hsp : t.sp = sp - 2) (h : t.isMemory (stackAddr sp) = true)
    (h' : t.isMemory (stackAddr (sp - 1)) = true) :
    ∃ u, pull16 t = .done (word16 (t.peek (stackAddr sp)) (t.peek (stackAddr (sp - 1)))) u ∧ u.sp = sp ∧
      ∀ b : Addr, u.peek b = t.peek b := by
  have h1 : t.sp + 1 = sp - 1 := by rw [hsp]; bv_omega
  have h2 : t.sp + 2 = sp := by rw [hsp]; exact BitVec.sub_add_cancel sp 2
  have hpull := pull16_memory (s := t) (by rw [h1]; exact h') (by rw [h2]; exact h)
  rw [h1, h2] at hpull
  exact ⟨_, hpull, rfl, fun _ => rfl⟩

/-- Every byte after `Push16` on a stack in RAM. -/
theorem read_memAfterPush16 {w : Addr} {s : State} (hwf : Memory.wf s.mem = true)
    (h : s.isRam (stackAddr s.sp) = true) (h' : s.isRam (stackAddr (s.sp - 1)) = true) (b : Addr) :
    Memory.read (memAfterPush16 w s) b.toNat =
      if b = stackAddr (s.sp - 1) then loByte w else if b = stackAddr s.sp then hiByte w else s.peek b := by
  rw [memoryAfter_push16 hwf b]
  simp only [storedByte, h, h', and_true]

/-- Settles O22: `Pull16` reads the two bytes that `Push16` left below S, low byte first. -/
theorem push16ThenPull16 : Obligations.Push16ThenPull16 := by
  intro w s hwf h h'
  have hread := read_memAfterPush16 (w := w) hwf h h'
  have hne : stackAddr s.sp ≠ stackAddr (s.sp - 1) := by rw [Ne, stackAddr_inj]; bv_omega
  have hhi := (hread (stackAddr s.sp)).trans ((if_neg hne).trans (if_pos rfl))
  have hlo := (hread (stackAddr (s.sp - 1))).trans (if_pos rfl)
  have hm := isMemory_of_isRam h
  have hm' := isMemory_of_isRam h'
  obtain ⟨t, ht, hsp, hmem, hmap⟩ : ∃ t, push16 w s = .done () t ∧ t.sp = s.sp - 2 ∧ t.mem = memAfterPush16 w s ∧
      t.busMap = s.busMap := ⟨_, push16_memory w hm hm', rfl, rfl, rfl⟩
  obtain ⟨u, hu, husp, hupeek⟩ := pull16_of_sp_sub_two hsp (by rw [State.isMemory, hmap]; exact hm)
    (by rw [State.isMemory, hmap]; exact hm')
  have hpeek (b : Addr) : t.peek b = Memory.read (memAfterPush16 w s) b.toNat := congrArg (Memory.read · _) hmem
  rw [hpeek, hpeek, hhi, hlo, word16_hi_lo] at hu
  refine ⟨t, u, ht, hsp, (hpeek _).trans hhi, (hpeek _).trans hlo, fun b hb hb' => ?_, hu, husp, hupeek⟩
  exact (hpeek b).trans ((hread b).trans ((if_neg hb').trans (if_neg hb)))

/-! ## Loads and stores (20_memory.md R90; 48_load_store_incdec.md R270 to R275) -/

/-- A storing instruction whose target is in RAM completes with its byte there, the run state and the bus as before. -/
theorem perform_storeByte_ram {i : Instr} (hi : WellFormed i) {s : State} {w : Addr} (hwf : Memory.wf s.mem = true)
    (hram : s.isRam w = true) (he : effectiveAddr i.operand s = some w) (hr : resolvable i.operand s = true)
    {value : State → Byte} {v : Byte} (hv : value (logReads (pointerReads i.operand s) s) = v) :
    ∃ t, perform i (storeByte value) s = .next t ∧ t.run = s.run ∧ t.busMap = s.busMap ∧ t.peek w = v := by
  obtain ⟨op, hop⟩ := opcodeOf_of_wf hi
  have hs : storable i.operand s = true := by simp [storable, hr, he, isMemory_of_isRam hram]
  refine ⟨_, perform_storeByte hop he hs value, ?_, ?_, ?_⟩
  · rw [logReads_eq]; rfl
  · rw [logReads_eq]; rfl
  · exact (read_memAfterWrite hwf).trans ((if_pos ⟨rfl, hram⟩).trans hv)

/-- A reading instruction whose operand is a byte of memory completes, with the run state as before, and brings that
byte into the register its effect loads. -/
theorem perform_readThen_loads {i : Instr} (hi : WellFormed i) {s : State} {w : Addr} (hm : s.isMemory w = true)
    (himm : i.operand.mode ≠ .immediate) (he : effectiveAddr i.operand s = some w)
    (hr : resolvable i.operand s = true) {f : Byte → State → State} {reg : State → Byte}
    (hf : ∀ v u n, ((f v u).addCycles n).run = u.run ∧ reg ((f v u).addCycles n) = v) :
    ∃ u, perform i (readThen i.operand f) s = .next u ∧ u.run = s.run ∧ reg u = s.peek w := by
  obtain ⟨op, hop⟩ := opcodeOf_of_wf hi
  have hread : readable i.operand s = true := by simp [readable, hr, dataReads_of_ea himm he, hm]
  refine ⟨_, perform_readThen hop hread f, ?_, ?_⟩
  · rw [(hf _ _ _).1, logReads_eq]
  · rw [(hf _ _ _).2, operandByte_of_ea himm he]

/-- STA, STX and STY complete with their register's byte in RAM. -/
theorem exec_store_ram {o : Operand} {w : Addr} {s : State} {store : Instr} {v : Byte}
    (hmem : (store, v) ∈ [(.sta o, s.a), (.stx o, s.x), (.sty o, s.y)]) (hi : WellFormed store)
    (hwf : Memory.wf s.mem = true) (hram : s.isRam w = true) (he : effectiveAddr o s = some w)
    (hr : resolvable o s = true) :
    ∃ t, exec store s = .next t ∧ t.run = s.run ∧ t.busMap = s.busMap ∧ t.peek w = v := by
  simp only [List.mem_cons, Prod.mk.injEq, List.not_mem_nil, or_false] at hmem
  rcases hmem with ⟨rfl, rfl⟩ | ⟨rfl, rfl⟩ | ⟨rfl, rfl⟩
  · exact perform_storeByte_ram hi hwf hram he hr (by rw [logReads_eq])
  · exact perform_storeByte_ram hi hwf hram he hr (by rw [logReads_eq])
  · exact perform_storeByte_ram hi hwf hram he hr (by rw [logReads_eq])

/-- Settles O23: the store leaves its byte in RAM, and each load brings the byte at its address into its register. -/
theorem loadSeesStore : Obligations.LoadSeesStore := by
  intro o o' w s store v hmem hi hwf hram he hr
  obtain ⟨t, ht, hrun, hmap, hpeek⟩ := exec_store_ram hmem hi hwf hram he hr
  refine ⟨t, ht, hrun, hpeek, fun t' hmem' hmap' hnot he' hr' => ?_⟩
  have hm : t'.isMemory w = true := by
    rw [State.isMemory, hmap', hmap]
    exact isMemory_of_isRam hram
  have himm : o'.mode ≠ .immediate := by
    cases o' with
    | immediate imm8 => exact absurd rfl (hnot imm8)
    | _ => exact nofun
  have hv : t'.peek w = v := by rw [← hpeek, State.peek, hmem']; rfl
  subst hv
  exact ⟨fun hi' => perform_readThen_loads hi' hm himm he' hr' fun _ _ _ => ⟨rfl, rfl⟩,
    fun hi' => perform_readThen_loads hi' hm himm he' hr' fun _ _ _ => ⟨rfl, rfl⟩,
    fun hi' => perform_readThen_loads hi' hm himm he' hr' fun _ _ _ => ⟨rfl, rfl⟩⟩

/-! ## Which bytes an instruction may change (20_memory.md R66, R67) -/

/-- A byte that an instruction cannot store at survives its writes. -/
theorem byte_survives {i : Instr} {s : State} {b : Addr} (hno : ¬ MayStoreAt i s b) :
    Survives (fun u => u.peek b = s.peek b) i s where
  log _ _ h := h
  run _ _ h := h
  cycles _ _ h := h
  a _ _ _ h := h
  x _ _ _ h := h
  y _ _ _ h := h
  sp _ _ _ h := h
  pc _ _ _ h := h
  p _ _ _ h := h
  free _ _ _ h := h
  mem a v u hat h _ := by
    have hne : b.toNat ≠ a.toNat := fun he => hno (BitVec.eq_of_toNat_eq he ▸ hat)
    exact (Memory.read_write_other u.mem v hne).trans h

/-- An instruction changes only the bytes it may store at, whether or not a fault is raised. -/
theorem exec_peek_of_not_mayStoreAt {i : Instr} {s t : State} {b : Addr} (ht : exec i s = .next t)
    (hno : ¬ MayStoreAt i s b) : t.peek b = s.peek b := exec_survives (byte_survives hno) rfl ht

/-- The implicit mode has no effective address to store at (40_addressing_modes.md R141). -/
theorem ea_of_resolve_implicit {o : Operand} {s u : State} {r : Resolved} (hmode : o.mode = .implicit)
    (hr : resolve o s = .done r u) : r.ea = none := by
  cases o <;> cases hmode
  cases hr
  rfl

/-- Settles O58: each clause of `MayStoreAt` is excluded by a hypothesis about the mnemonic, the mode or the policy. -/
theorem nonStoringFormsKeepMemory : Obligations.NonStoringFormsKeepMemory := by
  intro i s t b ht hstores himplicit hpolicy
  refine exec_peek_of_not_mayStoreAt ht ?_
  rintro (⟨hm, r, u, hr, hea⟩ | ⟨hx, hm, -⟩ | ⟨hx, hm, -⟩ | ⟨hm, -⟩ | ⟨hm, -⟩ | ⟨hm, -⟩)
  · have hshift : i.mnemonic ∈ [.asl, .lsr, .rol, .ror] := (show ∀ m ∈ _, m ∉ _ → m ∈ _ by decide) _ hm hstores
    rw [ea_of_resolve_implicit (himplicit hshift) hr] at hea
    cases hea
  · cases hx.symm.trans (hpolicy ((show ∀ m ∈ _, m ∈ _ by decide) _ hm))
  · cases hx.symm.trans (hpolicy (by rw [hm]; decide))
  · exact hstores ((show ∀ m ∈ _, m ∈ _ by decide) _ hm)
  · exact hstores ((show ∀ m ∈ _, m ∈ _ by decide) _ hm)
  · exact hstores (by rw [hm]; decide)

/-- Settles O59: the byte is outside every clause of `MayStoreAt` that the mnemonic leaves. -/
theorem storingFormsKeepOtherBytes : Obligations.StoringFormsKeepOtherBytes := by
  intro i s t b ht
  have hkeep := exec_peek_of_not_mayStoreAt (b := b) ht
  refine ⟨fun hm hb => hkeep ?_, fun hm hb => hkeep ?_, fun hm hb => hkeep ?_, fun hm hb hb' => hkeep ?_,
    fun hm hb hb' hb'' => hkeep ?_⟩
  · rintro (⟨-, r, u, hr, hea⟩ | ⟨-, -, r, u, hr, hea⟩ | ⟨-, h, -⟩ | ⟨h, -⟩ | ⟨h, -⟩ | ⟨h, -⟩)
    · exact hb r u hr hea
    · exact hb r u hr hea
    · simp [h] at hm
    · exact (show ∀ m ∈ _, m ∉ _ by decide) _ h hm
    · exact (show ∀ m ∈ _, m ∉ _ by decide) _ h hm
    · simp [h] at hm
  · rintro (⟨h, -⟩ | ⟨-, h, -⟩ | ⟨-, -, r, u, hr, hea⟩ | ⟨h, -⟩ | ⟨h, -⟩ | ⟨h, -⟩)
    · simp [hm] at h
    · simp [hm] at h
    · exact hb r u hr hea
    all_goals simp [hm] at h
  · simp only [List.mem_cons, List.not_mem_nil, or_false] at hm
    rcases hm with hm | hm <;> simp [MayStoreAt, hm, hb]
  · simpa [MayStoreAt, hm] using ⟨hb, hb'⟩
  · simpa [MayStoreAt, hm] using ⟨hb, hb', hb''⟩

/-! ## Every change of memory is a logged write (20_memory.md R60, R66, R90) -/

/-- A property of memory, the bus and its trace that every bus access keeps: a logged access, and a store in RAM taken
together with its own entry in the trace. -/
structure KeptByBus (P : State → Prop) : Prop where
  same : ∀ {u w : State}, P u → w.mem = u.mem → w.busMap = u.busMap → w.busLog = u.busLog → P w
  log : ∀ acc u, P u → P (u.log acc)
  store : ∀ (a : Addr) v u, P u → u.isRam a = true →
    P ((u.setMem (Memory.write u.mem a.toNat v)).log ⟨.write, a, v⟩)

namespace KeptByBus

variable {P : State → Prop} {s t u : State}

theorem run (h : KeptByBus P) (f : Fault) (u : State) (hu : P u) : P (u.setRun (.faulted f)) :=
  h.same hu rfl rfl rfl

theorem cycles (h : KeptByBus P) (n : Nat) (u : State) (hu : P u) : P (u.addCycles n) := h.same hu rfl rfl rfl

theorem busWrite_all (h : KeptByBus P) (a : Addr) (v : Byte) (hu : P u) : (busWrite a v u).All P := by
  rcases busWrite_cases a v u with ⟨hr, e⟩ | ⟨-, e⟩ | ⟨-, e⟩ <;> rw [e]
  · exact h.store a v u hu hr
  · exact h.log _ _ hu
  · exact h.run _ _ hu

theorem writeOperand_all (h : KeptByBus P) (r : Resolved) (v : Byte) (hu : P u) : (writeOperand r v u).All P := by
  unfold writeOperand
  split
  · exact h.busWrite_all _ v hu
  · exact h.same hu rfl rfl rfl

theorem storeByte_all (h : KeptByBus P) (value : State → Byte) (r : Resolved) (hu : P u) :
    (storeByte value r u).All P :=
  (h.writeOperand_all r _ hu).bind fun _ _ hw => hw

theorem storeUnstable_all (h : KeptByBus P) (r : Resolved) (hu : P u) : (storeUnstable r u).All P :=
  h.storeByte_all _ r (h.same hu rfl rfl rfl)

theorem readModifyWrite_all (h : KeptByBus P) {o : Operand} {change : Byte → State → Byte}
    {after : Byte → State → State} (hafter : ∀ v w, P w → P (after v w)) (r : Resolved) (hu : P u) :
    (readModifyWrite o change after r u).All P :=
  (readOperand_all h.log h.run o r hu).bind fun v _ hw => (h.writeOperand_all r _ hw).bind fun _ _ hx => hafter v _ hx

theorem push_all (h : KeptByBus P) (v : Byte) (hu : P u) : (push v u).All P :=
  (h.busWrite_all _ v hu).bind fun _ _ hw => h.same hw rfl rfl rfl

theorem push16_all (h : KeptByBus P) (w : Addr) (hu : P u) : (push16 w u).All P :=
  (h.push_all _ hu).bind fun _ _ hw => h.push_all _ hw

theorem enterException_all (h : KeptByBus P) (brk : Bool) (vector : Addr) (hu : P u) :
    (enterException brk vector u).All P :=
  (h.push16_all _ hu).bind fun _ _ hw => (h.push_all _ hw).bind fun _ _ hx =>
    (memRead16_all h.log h.run vector (beforeVector_all (fun _ hy => h.same hy rfl rfl rfl) brk hx)).bind
      fun _ _ hy => h.same hy rfl rfl rfl

/-- An instruction that stores at no address keeps the property: its accesses are reads. -/
theorem survives (h : KeptByBus P) {i : Instr} {s : State} (hno : ∀ a, ¬ MayStoreAt i s a) : Survives P i s where
  log := h.log
  run := h.run
  cycles := h.cycles
  a _ _ _ hu := h.same hu rfl rfl rfl
  x _ _ _ hu := h.same hu rfl rfl rfl
  y _ _ _ hu := h.same hu rfl rfl rfl
  sp _ _ _ hu := h.same hu rfl rfl rfl
  pc _ _ _ hu := h.same hu rfl rfl rfl
  p _ _ _ hu := h.same hu rfl rfl rfl
  free _ _ _ hu := h.same hu rfl rfl rfl
  mem a _ _ hat := absurd hat (hno a)

/-- Every instruction: the storing forms by the shape of their handler, the others by `survives`. -/
theorem of_exec (h : KeptByBus P) {i : Instr} (hs : P s) (ht : exec i s = .next t) : P t := by
  cases i with
  | sta o | stx o | sty o =>
    refine perform_all h.log h.run h.cycles hs (fun r u hu => ?_) ht
    exact h.storeByte_all _ r hu
  | inc o | dec o | asl o | lsr o | rol o | ror o =>
    refine perform_all h.log h.run h.cycles hs (fun r u hu => ?_) ht
    refine h.readModifyWrite_all (fun v w hw => ?_) r hu
    exact h.same hw rfl rfl rfl
  | pha | php =>
    unfold exec at ht
    refine perform_all h.log h.run h.cycles hs (fun r u hu => ?_) ht
    exact (h.push_all _ hu).bind fun _ _ hw => hw
  | jsr addr16 =>
    unfold exec at ht
    refine perform_all h.log h.run h.cycles hs (fun r u hu => ?_) ht
    exact (h.push16_all _ hu).bind fun _ _ hw => jumpTo_keeps (fun _ _ hx => h.same hx rfl rfl rfl) r hw
  | brk =>
    unfold exec at ht
    refine perform_all h.log h.run h.cycles hs (fun r u hu => ?_) ht
    have hu' : P (u.setPc (u.pc + brkPadding u)) := h.same hu rfl rfl rfl
    exact (h.enterException_all true _ hu').bind fun _ _ hw => hw
  | slo o | rla o | sre o | rra o | dcp o | isc o =>
    refine performUndoc_all h.log h.run h.cycles hs (fun r u _ hu => ?_) ht
    refine h.readModifyWrite_all (fun v w hw => ?_) r hu
    exact h.same hw rfl rfl rfl
  | sax o =>
    refine performUndoc_all h.log h.run h.cycles hs (fun r u _ hu => ?_) ht
    exact h.storeByte_all _ r hu
  | shy addr16 | shx addr16 =>
    unfold exec at ht
    refine performUndoc_all h.log h.run h.cycles hs (fun r u _ hu => ?_) ht
    exact h.storeUnstable_all r hu
  | ahx o | tas addr16 =>
    unfold exec at ht
    refine performUndoc_all h.log h.run h.cycles hs (fun r u _ hu => ?_) ht
    exact h.storeUnstable_all _ (h.same hu rfl rfl rfl)
  | _ => exact exec_survives (h.survives (by simp [MayStoreAt, Instr.mnemonic])) hs ht

theorem of_interruptEntry (h : KeptByBus P) {kind : InterruptKind} (hs : P s)
    (ht : interruptEntry kind s = .next t) : P t := by
  unfold interruptEntry at ht
  split at ht
  · cases ht
  · have hs' : P (kind.acknowledge s) := by cases kind; exacts [h.same hs rfl rfl rfl, hs]
    refine Result.All.of_next ((h.enterException_all false _ hs').bind fun _ u hu => ?_) ht
    exact h.cycles u.params.intCycles u hu

theorem of_step (h : KeptByBus P) (hs : P s) (ht : step s = .next t) : P t := by
  have hfetch := fetchInstr_all h.log h.run (fun _ _ hu => h.same hu rfl rfl rfl) hs
  obtain ⟨-, ⟨kind, hentry⟩ | ⟨i, u, hdone, hexec⟩ | ⟨f, hraised⟩⟩ := step_cases ht
  · exact h.of_interruptEntry hs hentry
  · rw [hdone] at hfetch
    exact h.of_exec hfetch hexec
  · rw [hraised] at hfetch
    exact hfetch

end KeptByBus

/-- Every byte in which `u` differs from `s` lies in RAM and holds what a write logged since `s` put there. -/
def ChangesAreLogged (s u : State) : Prop :=
  Memory.wf u.mem = true ∧ u.busMap = s.busMap ∧ ∃ accesses : List BusAccess, u.busLog = accesses ++ s.busLog ∧
    ∀ addr : Addr, u.peek addr ≠ s.peek addr →
      s.isRam addr = true ∧ ⟨.write, addr, u.peek addr⟩ ∈ accesses

theorem ChangesAreLogged.refl {s : State} (hwf : Memory.wf s.mem = true) : ChangesAreLogged s s :=
  ⟨hwf, rfl, [], rfl, fun _ hne => absurd rfl hne⟩

theorem changesAreLogged_kept (s : State) : KeptByBus (ChangesAreLogged s) where
  same := by
    rintro u w ⟨hwf, hmap, accesses, hlog, hchg⟩ emem emap elog
    have hpeek : w.peek = u.peek := funext fun b => congrArg (Memory.read · b.toNat) emem
    exact ⟨emem ▸ hwf, emap.trans hmap, accesses, elog.trans hlog, hpeek ▸ hchg⟩
  log acc _ := fun ⟨hwf, hmap, accesses, hlog, hchg⟩ =>
    ⟨hwf, hmap, acc :: accesses, congrArg (acc :: ·) hlog,
      fun addr hne => (hchg addr hne).imp_right (List.mem_cons_of_mem acc)⟩
  store := by
    rintro a v u ⟨hwf, hmap, accesses, hlog, hchg⟩ hram
    refine ⟨Memory.wf_write hwf a v, hmap, _ :: accesses, congrArg (_ :: ·) hlog, fun addr hne => ?_⟩
    simp only [State.log_peek, State.setMem_peek, Memory.read_write hwf] at hne ⊢
    by_cases heq : addr = a
    · subst heq
      exact ⟨by rwa [State.isRam, ← hmap], by simp⟩
    · rw [if_neg heq] at hne ⊢
      exact (hchg addr hne).imp_right (List.mem_cons_of_mem _)

/-- Settles O14: every bus access keeps `ChangesAreLogged`, so every step does. -/
theorem stepStoresOnlyLoggedWrites : Obligations.StepStoresOnlyLoggedWrites := by
  intro s t addr hwf ht hne
  obtain ⟨-, -, accesses, hlog, hchg⟩ := (changesAreLogged_kept s).of_step (ChangesAreLogged.refl hwf) ht
  exact ⟨(hchg addr hne).1, accesses, hlog, (hchg addr hne).2⟩

end Sys2Proof.Machine
end

section
/-! The family 30_encoding: `encode` and `decode` are inverse to each other, the opcode byte alone fixes what follows it,
and the terms that no bytes encode are the ones `exec` refuses. -/

namespace Sys2Proof.Machine

/-! ## The bytes of an instruction (30_encoding.md R100, R101, R103, R115) -/

/-- The bytes of an instruction are its opcode byte and then those of its operand. -/
theorem encode_eq_some_iff {i : Instr} {bytes : List Byte} :
    encode i = some bytes ↔ ∃ op : Byte, opcodeOf i = some op ∧ op :: i.operand.bytes = bytes :=
  Option.map_eq_some_iff

theorem encode_of_opcodeOf {i : Instr} {op : Byte} (hop : opcodeOf i = some op) :
    encode i = some (op :: i.operand.bytes) :=
  encode_eq_some_iff.mpr ⟨op, hop, rfl⟩

theorem length_operand_bytes (o : Operand) : o.bytes.length = o.mode.operandCount := by cases o <;> rfl

/-- As many bytes as a mode takes are the bytes of an operand of that mode. -/
theorem exists_operandOf_bytes (m : Mode) {l : List Byte} (h : m.operandCount ≤ l.length) :
    ∃ b1 b2 : Byte, (operandOf m b1 b2).bytes ++ l.drop m.operandCount = l := by
  cases m with
  | implicit => exact ⟨0, 0, rfl⟩
  | immediate | zeroPage | zeroPageX | zeroPageY | indexedIndirect | indirectIndexed | relative =>
    obtain _ | ⟨b1, rest⟩ := l
    · exact absurd h (by decide)
    · exact ⟨b1, 0, rfl⟩
  | absolute | absoluteX | absoluteY | indirect =>
    obtain _ | ⟨b1, _ | ⟨b2, rest⟩⟩ := l
    · exact absurd h (by decide)
    · exact absurd h (by simp [Mode.operandCount])
    · exact ⟨b1, b2, by simp [operandOf, Operand.bytes, Mode.operandCount]⟩

/-! ## The decoder (30_encoding.md R100, R110, R115) -/

/-- The decoder takes as many operand bytes as the opcode byte's mode has, and passes them on as they stand. -/
theorem decode_operand_bytes {op : Byte} {o : Operand} (hmode : (entryOf op).mode = o.mode) (rest : List Byte) :
    ∃ b1 b2 : Byte, operandOf o.mode b1 b2 = o ∧
      decode (op :: (o.bytes ++ rest)) = .instr (instrOf op b1 b2) rest := by
  cases o with
  | implicit => exact ⟨0, 0, rfl, by simp [decode, hmode, Operand.mode, Mode.operandCount, Operand.bytes]⟩
  | immediate b | zeroPage b | zeroPageX b | zeroPageY b | indexedIndirect b | indirectIndexed b | relative b =>
    exact ⟨b, 0, rfl, by simp [decode, hmode, Operand.mode, Mode.operandCount, Operand.bytes]⟩
  | absolute w | absoluteX w | absoluteY w | indirect w =>
    exact ⟨loByte w, hiByte w, by simp [operandOf, Operand.mode],
      by simp [decode, hmode, Operand.mode, Mode.operandCount, Operand.bytes]⟩

/-- An instruction's own opcode byte and operand bytes are read back as it. -/
theorem decode_opcode_operand {i : Instr} {op : Byte} (hop : opcodeOf i = some op) (rest : List Byte) :
    decode (op :: (i.operand.bytes ++ rest)) = .instr i rest := by
  obtain ⟨-, hmode, hread⟩ := Laws.tableRow i op hop
  obtain ⟨b1, b2, hoperand, hdecode⟩ := decode_operand_bytes hmode rest
  rw [hdecode, hread b1 b2 hoperand]

theorem decode_of_operands_short {op : Byte} {l : List Byte} (h : l.length < (entryOf op).mode.operandCount) :
    decode (op :: l) = .rejected (.operandBytesMissing op) := by
  simp only [decode]
  split
  next hcount => simp [hcount] at h
  next hcount => simp [hcount] at h
  next hcount => simp [hcount] at h
  next => rfl

/-- Enough operand bytes after an opcode byte are an instruction with that opcode byte. -/
theorem decode_of_operands_enough {op : Byte} {l : List Byte} (h : (entryOf op).mode.operandCount ≤ l.length) :
    ∃ i : Instr, opcodeOf i = some op ∧ i.operand.bytes ++ l.drop (entryOf op).mode.operandCount = l ∧
      decode (op :: l) = .instr i (l.drop (entryOf op).mode.operandCount) := by
  obtain ⟨b1, b2, hbytes⟩ := exists_operandOf_bytes _ h
  obtain ⟨hop, hoperand⟩ := instrOf_row op b1 b2
  rw [← hoperand] at hbytes
  refine ⟨instrOf op b1 b2, hop, hbytes, ?_⟩
  rw [← decode_opcode_operand hop, hbytes]

/-- Settles O2: the encoder's opcode byte selects the instruction's own row of the table. -/
theorem decodeOfEncode : Obligations.DecodeOfEncode := by
  intro i bytes rest hencode
  obtain ⟨op, hop, rfl⟩ := encode_eq_some_iff.mp hencode
  exact decode_opcode_operand hop rest

/-- Settles O3: the bytes hold an opcode byte and enough operand bytes, or they would be rejected. -/
theorem encodeOfDecode : Obligations.EncodeOfDecode := by
  intro i bytes rest hdecode
  obtain _ | ⟨op, operands⟩ := bytes
  · cases hdecode
  obtain hshort | henough := Nat.lt_or_ge operands.length (entryOf op).mode.operandCount
  · cases (decode_of_operands_short hshort).symm.trans hdecode
  · obtain ⟨j, hop, hbytes, hj⟩ := decode_of_operands_enough henough
    cases hj.symm.trans hdecode
    exact ⟨op :: i.operand.bytes, encode_of_opcodeOf hop, congrArg (op :: ·) hbytes.symm⟩

/-- Settles O4: the instruction read has the opcode byte it was read from, so its row is that byte's. -/
theorem everyByteSelectsAnInstruction : Obligations.EveryByteSelectsAnInstruction := by
  intro op operands
  refine ⟨decode_of_operands_short, fun henough => ?_⟩
  obtain ⟨i, hop, -, hdecode⟩ := decode_of_operands_enough henough
  obtain ⟨hmnemonic, hmode, -⟩ := Laws.tableRow i op hop
  exact ⟨i, hdecode, hmnemonic.symm, hmode.symm, wf_of_opcodeOf hop, by rw [hmode]; rfl⟩

/-- Settles O1, by running the decoder on each word. -/
theorem sampleWordsDecode : Obligations.SampleWordsDecode := by
  unfold Obligations.SampleWordsDecode
  decide

/-! ## What `exec` refuses -/

theorem exec_of_opcodeOf_none {i : Instr} (h : opcodeOf i = none) (s : State) : exec i s = .refused .illFormed := by
  obtain ⟨handler, he⟩ := exec_is_perform i s
  rw [he, perform, tableEntry, h]
  rfl

theorem exec_of_opcodeOf_some {i : Instr} {op : Byte} (h : opcodeOf i = some op) (s : State) :
    ∃ t : State, exec i s = .next t := by
  obtain ⟨handler, he⟩ := exec_is_perform i s
  rw [he, perform_eq h]
  exact Result.toOutcome_next _

/-- Settles O5: all three clauses turn on whether the term has an opcode byte. -/
theorem illFormedTermsAreRefused : Obligations.IllFormedTermsAreRefused := by
  refine ⟨fun i => ⟨fun hwf => ?_, fun ⟨bytes, hencode, _⟩ => ?_⟩, fun i s hwf => ?_, fun i s hwf => ?_⟩
  · obtain ⟨op, hop⟩ := opcodeOf_of_wf hwf
    refine ⟨_, encode_of_opcodeOf hop, ?_⟩
    rw [List.length_cons, length_operand_bytes, Nat.add_comm]
    rfl
  · obtain ⟨op, hop, -⟩ := encode_eq_some_iff.mp hencode
    exact wf_of_opcodeOf hop
  · cases hop : opcodeOf i with
    | none => exact exec_of_opcodeOf_none hop s
    | some op => exact absurd (wf_of_opcodeOf hop) hwf
  · obtain ⟨op, hop⟩ := opcodeOf_of_wf hwf
    exact exec_of_opcodeOf_some hop s

end Sys2Proof.Machine
end

section
/-! The family 40_addressing_modes: the fetch of an instruction, what the resolver hands to the handler, the cycles an
instruction adds, and the faults of an access that nothing claims. -/

namespace Sys2Proof.Machine

/-! ## The boundary of an instruction (40_addressing_modes.md R130, R131; 60_exceptions.md R351) -/

section

variable {s u t : State} {f : Fault}

theorem arbitrate_of_faulted (h : s.run = .faulted f) : arbitrate s = .faulted f := by
  rw [arbitrate, h]

/-- With no interrupt to take, the next transition is an instruction. -/
theorem arbitrate_of_no_interrupt (hrun : s.run = .running) (hnmi : s.nmiPending = false)
    (hirq : s.irqLine = false ∨ flagI s.p = true) : arbitrate s = .instruction := by
  have hmasked : (s.irqLine && !flagI s.p) = false := by rcases hirq with h | h <;> simp [h]
  simp only [arbitrate, hrun, hnmi, hmasked, Bool.false_eq_true, if_false]

theorem step_of_faulted (h : s.run = .faulted f) : step s = .fault f := by
  rw [step, advance, arbitrate_of_faulted h]

theorem interruptEntry_of_faulted (h : s.run = .faulted f) (kind : InterruptKind) :
    interruptEntry kind s = .fault f := by
  rw [interruptEntry, h]

theorem step_of_instruction (h : arbitrate s = .instruction) : step s = runInstruction s := by
  rw [step, advance, h]

/-- An instruction that is fetched is run. -/
theorem step_of_fetch_done (h : arbitrate s = .instruction) {i : Instr} (hf : fetchInstr s = .done i u) :
    step s = exec i u := by
  rw [step_of_instruction h, runInstruction, hf]

/-- A raise in the fetch ends the step. -/
theorem step_of_fetch_raised (h : arbitrate s = .instruction) (hf : fetchInstr s = .raised f u) :
    step s = .next u := by
  rw [step_of_instruction h, runInstruction, hf]

end

/-- Settles O8: Faulted comes before every interrupt and every instruction. -/
theorem faultedReportsItsFault : Obligations.FaultedReportsItsFault := fun _ _ h =>
  ⟨step_of_faulted h, interruptEntry_of_faulted h⟩

/-! ## `Fetch8()` (40_addressing_modes.md R132) -/

section

variable {s t : State} {v : Byte}

/-- The byte read, and then PC plus 1. -/
theorem fetch8_of_busRead (h : busRead s.pc s = .done v t) : fetch8 s = .done v (t.setPc (s.pc + 1)) := by
  have hpc : t.pc = s.pc := by
    rcases busRead_cases s.pc s with ⟨w, e⟩ | e
    · cases h.symm.trans e; rfl
    · cases h.symm.trans e
  rw [fetch8, h, Result.bind_done, hpc]

/-- The state after `Fetch8()` on memory. -/
def afterFetch8 (s : State) : State := (s.log ⟨.read, s.pc, s.peek s.pc⟩).setPc (s.pc + 1)

@[simp] theorem afterFetch8_pc (s : State) : (afterFetch8 s).pc = s.pc + 1 := rfl
@[simp] theorem afterFetch8_peek (s : State) (a : Addr) : (afterFetch8 s).peek a = s.peek a := rfl

theorem fetch8_memory (h : s.isMemory s.pc = true) : fetch8 s = .done (s.peek s.pc) (afterFetch8 s) :=
  fetch8_of_busRead (busRead_memory h)

theorem fetch8_unmapped (h : backingOf s.busMap s.pc = none) :
    fetch8 s = .raised (.unmappedAddress s.pc) (s.setRun (.faulted (.unmappedAddress s.pc))) := by
  rw [fetch8, busRead_unmapped h, Result.bind_raised]

/-- An opcode byte in memory: the operand bytes are fetched from the address after it. -/
theorem fetchInstr_memory (h : s.isMemory s.pc = true) :
    fetchInstr s = fetchOperands (s.peek s.pc) (afterFetch8 s) := by
  rw [fetchInstr, fetch8_memory h, Result.bind_done]

theorem fetchInstr_unmapped (h : backingOf s.busMap s.pc = none) :
    fetchInstr s = .raised (.unmappedAddress s.pc) (s.setRun (.faulted (.unmappedAddress s.pc))) := by
  rw [fetchInstr, fetch8_unmapped h, Result.bind_raised]

end

/-- Settles O11: the read is the bus's, and PC moves after it. -/
theorem fetch8ReadsThenIncrements : Obligations.Fetch8ReadsThenIncrements := fun _ =>
  ⟨fetch8_memory, fetch8_unmapped, fun _ _ => fetch8_of_busRead, fun hrun hnmi hirq h =>
    step_of_fetch_raised (arbitrate_of_no_interrupt hrun hnmi hirq) (fetchInstr_unmapped h)⟩

/-! ## The operand bytes (40_addressing_modes.md R138, R142) -/

section

variable {op : Byte} {u : State}

theorem fetchOperands_implicit (hmode : (entryOf op).mode = .implicit) :
    fetchOperands op u = .done (instrOf op 0 0) u := by
  simp only [fetchOperands, hmode, Mode.operandCount, reduceCtorEq, if_false]

theorem fetchOperands_immediate (hmode : (entryOf op).mode = .immediate) :
    fetchOperands op u = (fetchImmediate (entryOf op).mnemonic u).bind fun b1 w => .done (instrOf op b1 0) w := by
  rw [fetchOperands, if_pos hmode]

theorem fetchOperands_one (himm : (entryOf op).mode ≠ .immediate) (hcount : (entryOf op).mode.operandCount = 1) :
    fetchOperands op u = (fetch8 u).bind fun b1 w => .done (instrOf op b1 0) w := by
  simp only [fetchOperands, if_neg himm, hcount]

theorem fetchOperands_two (hcount : (entryOf op).mode.operandCount = 2) :
    fetchOperands op u =
      (fetch8 u).bind fun b1 w => (fetch8 w).bind fun b2 w => .done (instrOf op b1 b2) w := by
  have himm : (entryOf op).mode ≠ .immediate := fun h => by simp [h, Mode.operandCount] at hcount
  simp only [fetchOperands, if_neg himm, hcount]

end

/-- The instruction of an opcode byte depends on its operand bytes through the operand alone. -/
theorem instrOf_eq_of_operandOf_eq {op b1 b2 c1 c2 : Byte}
    (h : operandOf (entryOf op).mode b1 b2 = operandOf (entryOf op).mode c1 c2) :
    instrOf op b1 b2 = instrOf op c1 c2 := by
  obtain ⟨hop, hoperand⟩ := instrOf_row op c1 c2
  obtain ⟨-, hmode, hread⟩ := Laws.tableRow _ op hop
  exact hread b1 b2 (by rw [← hmode, h, hoperand])

theorem instrOf_of_implicit {op : Byte} (h : (entryOf op).mode = .implicit) (b1 b2 : Byte) :
    instrOf op b1 b2 = instrOf op 0 0 :=
  instrOf_eq_of_operandOf_eq (by rw [h]; rfl)

theorem instrOf_of_count_ne_two {op : Byte} (h : (entryOf op).mode.operandCount ≠ 2) (b1 b2 : Byte) :
    instrOf op b1 b2 = instrOf op b1 0 := by
  refine instrOf_eq_of_operandOf_eq ?_
  cases hmode : (entryOf op).mode with
  | absolute | absoluteX | absoluteY | indirect => exact absurd (by rw [hmode]; rfl) h
  | _ => rfl

/-- Three bytes are always enough, and the decoder reads the instruction of the first with the other two. -/
theorem eq_instrOf_of_decode {op b1 b2 : Byte} {i : Instr} {rest : List Byte}
    (h : decode [op, b1, b2] = .instr i rest) : i = instrOf op b1 b2 := by
  cases hmode : (entryOf op).mode with
  | implicit =>
    rw [instrOf_of_implicit hmode]
    simp only [decode, hmode, Mode.operandCount, Decoded.instr.injEq] at h
    exact h.1.symm
  | immediate | zeroPage | zeroPageX | zeroPageY | indexedIndirect | indirectIndexed | relative =>
    rw [instrOf_of_count_ne_two (by rw [hmode]; decide)]
    simp only [decode, hmode, Mode.operandCount, Decoded.instr.injEq] at h
    exact h.1.symm
  | absolute | absoluteX | absoluteY | indirect =>
    simp only [decode, hmode, Mode.operandCount, Decoded.instr.injEq] at h
    exact h.1.symm

/-- The fetches of operand bytes: none, an Immediate byte that is not read, one byte that is read, two bytes. -/
theorem mode_fetch_cases (m : Mode) (reads : Bool) :
    m = .implicit ∨ (m = .immediate ∧ reads = false) ∨
      (m.operandCount = 1 ∧ ¬ (m = .immediate ∧ reads = false)) ∨ m.operandCount = 2 := by
  cases m <;> cases reads <;> simp [Mode.operandCount]

theorem addr_add_one_add_one (a : Addr) : a + 1 + 1 = a + 2 := by rw [BitVec.add_assoc]; rfl
theorem addr_add_two_add_one (a : Addr) : a + 2 + 1 = a + 3 := by rw [BitVec.add_assoc]; rfl

theorem fetchImmediate_of_reads {m : Mnemonic} {u : State} (hreads : readsImmediate u.params.undocPolicy m = true) :
    fetchImmediate m u = busRead u.pc (u.setPc (u.pc + 1)) := by
  rw [fetchImmediate, if_pos hreads]

theorem fetchImmediate_of_not_reads {m : Mnemonic} {u : State}
    (hreads : readsImmediate u.params.undocPolicy m = false) :
    fetchImmediate m u = .done (u.peek u.pc) (u.setPc (u.pc + 1)) := by
  simp only [fetchImmediate, hreads, Bool.false_eq_true, if_false]

theorem afterFetch8_twice (s : State) : afterFetch8 (afterFetch8 s) =
    { s with pc := s.pc + 2, busLog := tracedReads [s.pc, s.pc + 1] s } := by
  rw [← addr_add_one_add_one]; rfl

theorem afterFetch8_thrice (s : State) : afterFetch8 (afterFetch8 (afterFetch8 s)) =
    { s with pc := s.pc + 3, busLog := tracedReads [s.pc, s.pc + 1, s.pc + 2] s } := by
  rw [afterFetch8_twice s, ← addr_add_two_add_one]; rfl

theorem fetchOperands_unread {op : Byte} {u : State} (hmode : (entryOf op).mode = .immediate)
    (hreads : readsImmediate u.params.undocPolicy (entryOf op).mnemonic = false) :
    fetchOperands op u = .done (instrOf op (u.peek u.pc) 0) (u.setPc (u.pc + 1)) := by
  rw [fetchOperands_immediate hmode, fetchImmediate_of_not_reads hreads, Result.bind_done]

/-- One operand byte that is read, the Immediate byte or another, in memory. -/
theorem fetchOperands_one_memory {op : Byte} {u : State} (hcount : (entryOf op).mode.operandCount = 1)
    (hread : ¬ ((entryOf op).mode = .immediate ∧
      readsImmediate u.params.undocPolicy (entryOf op).mnemonic = false)) (h : u.isMemory u.pc = true) :
    fetchOperands op u = .done (instrOf op (u.peek u.pc) 0) (afterFetch8 u) := by
  by_cases hmode : (entryOf op).mode = .immediate
  · have hreads : readsImmediate u.params.undocPolicy (entryOf op).mnemonic = true := by simpa [hmode] using hread
    rw [fetchOperands_immediate hmode, fetchImmediate_of_reads hreads, busRead_memory (by exact h)]
    rfl
  · rw [fetchOperands_one hmode hcount, fetch8_memory h, Result.bind_done]

theorem fetchOperands_two_memory {op : Byte} {u : State} (hcount : (entryOf op).mode.operandCount = 2)
    (h : u.isMemory u.pc = true) (h' : u.isMemory (u.pc + 1) = true) :
    fetchOperands op u = .done (instrOf op (u.peek u.pc) (u.peek (u.pc + 1))) (afterFetch8 (afterFetch8 u)) := by
  rw [fetchOperands_two hcount, fetch8_memory h, Result.bind_done, fetch8_memory (by exact h')]
  rfl

/-- The fetch of an instruction whose fetched bytes lie in memory: the reads are logged and PC stands after its bytes.
-/
theorem fetchInstr_of_decode {s : State} {i : Instr} {rest : List Byte}
    (hdecode : decode [s.peek s.pc, s.peek (s.pc + 1), s.peek (s.pc + 2)] = .instr i rest)
    (hmem : (fetchAddrs s.params.undocPolicy i s.pc).all s.isMemory = true) :
    fetchInstr s = .done i { s with
      pc := s.pc + BitVec.ofNat 16 i.mode.length
      busLog := tracedReads (fetchAddrs s.params.undocPolicy i s.pc) s } := by
  have hi := eq_instrOf_of_decode hdecode
  have hop : opcodeOf i = some (s.peek s.pc) := hi ▸ (instrOf_row _ _ _).1
  obtain ⟨hmnemonic, hmode, -⟩ := Laws.tableRow i _ hop
  rcases mode_fetch_cases i.mode (readsImmediate s.params.undocPolicy i.mnemonic) with
    h | ⟨h, hreads⟩ | ⟨hcount, hread⟩ | hcount
  case inl =>
    rw [instrOf_of_implicit (hmode.trans h)] at hi
    simp only [fetchAddrs, h, Mode.length, Mode.operandCount, List.all_cons, List.all_nil, Bool.and_true] at hmem ⊢
    rw [fetchInstr_memory hmem, fetchOperands_implicit (hmode.trans h), ← hi]
    rfl
  case inr.inl =>
    rw [instrOf_of_count_ne_two (by rw [hmode, h]; decide)] at hi
    simp only [fetchAddrs, h, hreads, Mode.length, Mode.operandCount, and_self, if_true, List.all_cons, List.all_nil,
      Bool.and_true] at hmem ⊢
    rw [fetchInstr_memory hmem, fetchOperands_unread (hmode.trans h) (by rw [hmnemonic]; exact hreads),
      afterFetch8_peek, afterFetch8_pc, ← hi, addr_add_one_add_one]
    rfl
  case inr.inr.inl =>
    rw [instrOf_of_count_ne_two (by rw [hmode, hcount]; decide)] at hi
    simp only [fetchAddrs, hcount, if_neg hread, Mode.length, List.all_cons, List.all_nil, Bool.and_true,
      Bool.and_eq_true] at hmem ⊢
    rw [fetchInstr_memory hmem.1, fetchOperands_one_memory (hmode ▸ hcount) (by rw [hmode, hmnemonic]; exact hread)
      hmem.2, afterFetch8_peek, afterFetch8_pc, ← hi, afterFetch8_twice]
    rfl
  case inr.inr.inr =>
    simp only [fetchAddrs, hcount, Mode.length, List.all_cons, List.all_nil, Bool.and_true, Bool.and_eq_true]
      at hmem ⊢
    obtain ⟨h0, h1, h2⟩ := hmem
    rw [← addr_add_one_add_one] at h2 hi
    rw [fetchInstr_memory h0, fetchOperands_two_memory (hmode ▸ hcount) h1 h2, afterFetch8_peek, afterFetch8_peek,
      afterFetch8_pc, ← hi, afterFetch8_thrice]
    rfl

/-- Settles O7: the decoder reads in memory the bytes that the fetch reads through the bus. -/
theorem stepRunsDecodedInstruction : Obligations.StepRunsDecodedInstruction :=
  fun _ _ _ hrun hnmi hirq hdecode hmem =>
    step_of_fetch_done (arbitrate_of_no_interrupt hrun hnmi hirq) (fetchInstr_of_decode hdecode hmem)

/-! ## The table (40_addressing_modes.md R153) -/

/-- Settles O6, by reading the table with each byte. -/
theorem eligibleEntries : Obligations.EligibleEntries := by
  unfold Obligations.EligibleEntries
  decide

/-! ## The resolver (40_addressing_modes.md R141 to R152) -/

/-- The second byte of a zero-page pointer lies in the zero page. -/
theorem nextInPage_zeroPageAddr (zp8 : Byte) : nextInPage (zeroPageAddr zp8) = zeroPageAddr (zp8 + 1) := by
  rw [nextInPage, zeroPageAddr, hiByte_word16, loByte_word16]; rfl

/-- A pointer in the zero page, both of its bytes in memory. -/
theorem memReadWrap_zeroPage {zp8 : Byte} {s : State} (h : s.isMemory (zeroPageAddr zp8) = true)
    (h' : s.isMemory (zeroPageAddr (zp8 + 1)) = true) :
    memReadWrap (zeroPageAddr zp8) s = .done (word16 (s.peek (zeroPageAddr (zp8 + 1))) (s.peek (zeroPageAddr zp8)))
      ((s.log ⟨.read, zeroPageAddr zp8, s.peek (zeroPageAddr zp8)⟩).log
        ⟨.read, zeroPageAddr (zp8 + 1), s.peek (zeroPageAddr (zp8 + 1))⟩) := by
  rw [← nextInPage_zeroPageAddr] at h' ⊢
  exact memReadWrap_memory h h'

theorem indexedFrom_eq (base : Addr) (index : Byte) : indexedFrom base index =
    ⟨some (base + index.setWidth 16), decide (base.toNat / 256 ≠ (base + index.setWidth 16).toNat / 256)⟩ := by
  rw [indexedFrom, pageCrossed_eq, indexed]

/-- Settles O24: `MemReadWrap` reads the pointers, and a page is an address without its low byte. -/
theorem resolverModes : Obligations.ResolverModes := by
  intro zp8 w s
  refine ⟨rfl, rfl, rfl, rfl, rfl, rfl, ?_, ?_, ?_, ?_, ?_, ?_⟩
  · rw [resolve, indexedFrom_eq]
  · rw [resolve, indexedFrom_eq]
  · rw [resolve, pageCrossed_eq, branchTarget]
  · rintro z z' rfl rfl hz hz'
    rw [resolve, memReadWrap_zeroPage hz hz']
    rfl
  · rintro z z' base rfl rfl hz hz' rfl
    rw [resolve, memReadWrap_zeroPage hz hz', Result.bind_done, indexedFrom_eq]
    rfl
  · rintro z' rfl hw hz'
    rw [resolve, memReadWrap_memory hw hz']
    rfl

/-! ## The cycles of an instruction (40_addressing_modes.md R136, R139) -/

/-- The interrupt inputs, the parameters and the bus of `u` are those of `s`, and the free values drawn since are
instruction `i`'s own. -/
def SameInputs (i : Instr) (s u : State) : Prop :=
  u.nmiPending = s.nmiPending ∧ u.irqLine = s.irqLine ∧ u.params = s.params ∧ u.busMap = s.busMap ∧
  (u.freeIndex ≠ s.freeIndex → MayDraw i s.params.undocPolicy)

theorem SameInputs.refl (i : Instr) (s : State) : SameInputs i s s := ⟨rfl, rfl, rfl, rfl, absurd rfl⟩

theorem sameInputs_survives (i : Instr) (s : State) : Survives (SameInputs i s) i s where
  log _ _ h := h
  run _ _ h := h
  cycles _ _ h := h
  a _ _ _ h := h
  x _ _ _ h := h
  y _ _ _ h := h
  sp _ _ _ h := h
  pc _ _ _ h := h
  p _ _ _ h := h
  free hdraw _ _ := fun ⟨hnmi, hirq, hparams, hbus, _⟩ => ⟨hnmi, hirq, hparams, hbus, fun _ => hdraw⟩
  mem _ _ _ _ h _ := h

/-- Settles O12: the cycles are `exec_charge`; no write of an instruction touches its inputs. -/
theorem execAccountsForCycles : Obligations.ExecAccountsForCycles := by
  intro i s t hrun ht
  have hinputs := exec_survives (sameInputs_survives i s) (SameInputs.refl i s) ht
  exact ⟨(exec_charge ht).imp_right fun ⟨hsame, hcycles⟩ => ⟨hsame.trans hrun, hcycles⟩, hinputs⟩

/-! ## A fault in the fetch of an operand byte (60_exceptions.md R342; 40_addressing_modes.md R132, R142) -/

section

variable {s : State}

/-- The first operand byte, when it is no Immediate byte, is unmapped. -/
theorem fetchInstr_first_unmapped (hpc : s.isMemory s.pc = true)
    (himplicit : (entryOf (s.peek s.pc)).mode ≠ .implicit) (himm : (entryOf (s.peek s.pc)).mode ≠ .immediate)
    (h : backingOf s.busMap (s.pc + 1) = none) : fetchInstr s = .raised (.unmappedAddress (s.pc + 1))
      ((afterFetch8 s).setRun (.faulted (.unmappedAddress (s.pc + 1)))) := by
  have hread := fetch8_unmapped (s := afterFetch8 s) h
  rw [fetchInstr_memory hpc]
  rcases mode_fetch_cases (entryOf (s.peek s.pc)).mode false with he | ⟨he, -⟩ | ⟨hcount, -⟩ | hcount
  · exact absurd he himplicit
  · exact absurd he himm
  · rw [fetchOperands_one himm hcount, hread, Result.bind_raised, afterFetch8_pc]
  · rw [fetchOperands_two hcount, hread, Result.bind_raised, afterFetch8_pc]

theorem fetchInstr_second_unmapped (hpc : s.isMemory s.pc = true)
    (hcount : (entryOf (s.peek s.pc)).mode.operandCount = 2) (h : s.isMemory (s.pc + 1) = true)
    (h' : backingOf s.busMap (s.pc + 2) = none) : fetchInstr s = .raised (.unmappedAddress (s.pc + 2))
      ((afterFetch8 (afterFetch8 s)).setRun (.faulted (.unmappedAddress (s.pc + 2)))) := by
  rw [← addr_add_one_add_one] at h' ⊢
  rw [fetchInstr_memory hpc, fetchOperands_two hcount, fetch8_memory (s := afterFetch8 s) h, Result.bind_done,
    fetch8_unmapped (by exact h'), Result.bind_raised, afterFetch8_pc, afterFetch8_pc]

/-- PC has moved past an Immediate byte before it is read. -/
theorem fetchInstr_immediate_unmapped (hpc : s.isMemory s.pc = true) (hmode : (entryOf (s.peek s.pc)).mode = .immediate)
    (hreads : readsImmediate s.params.undocPolicy (entryOf (s.peek s.pc)).mnemonic = true)
    (h : backingOf s.busMap (s.pc + 1) = none) : fetchInstr s = .raised (.unmappedAddress (s.pc + 1))
      (((afterFetch8 s).setPc (s.pc + 2)).setRun (.faulted (.unmappedAddress (s.pc + 1)))) := by
  rw [← addr_add_one_add_one, fetchInstr_memory hpc, fetchOperands_immediate hmode,
    fetchImmediate_of_reads (u := afterFetch8 s) hreads, busRead_unmapped (by exact h), Result.bind_raised,
    afterFetch8_pc]

end

/-- Which Immediate bytes are read (40_addressing_modes.md R142; 49_undocumented.md R300, R302). -/
theorem readsImmediate_of_mem {policy : UndocPolicy} {m : Mnemonic}
    (h : m ∈ [.adc, .sbc, .and, .ora, .eor, .cmp, .cpx, .cpy, .lda, .ldx, .ldy] ∨
      (policy = .execute ∧ m ∈ [.anc, .alr, .arr, .axs, .lax])) : readsImmediate policy m = true := by
  rcases h with h | ⟨rfl, h⟩
  · cases policy <;> exact (show ∀ m ∈ _, readsImmediate _ m = true by decide) m h
  · exact (show ∀ m ∈ _, readsImmediate _ m = true by decide) m h

/-! ## A fault in the resolver's pointer (60_exceptions.md R342, R346) -/

theorem memReadWrap_unmapped {a : Addr} {s : State} (h : backingOf s.busMap a = none) :
    memReadWrap a s = .raised (.unmappedAddress a) (s.setRun (.faulted (.unmappedAddress a))) := by
  rw [memReadWrap, busRead_unmapped h, Result.bind_raised]

theorem memReadWrap_second_unmapped {a : Addr} {s : State} (h : s.isMemory a = true)
    (h' : backingOf s.busMap (nextInPage a) = none) :
    memReadWrap a s = .raised (.unmappedAddress (nextInPage a))
      ((s.log ⟨.read, a, s.peek a⟩).setRun (.faulted (.unmappedAddress (nextInPage a)))) := by
  rw [memReadWrap, busRead_memory h, Result.bind_done, busRead_unmapped (by exact h'), Result.bind_raised]

/-- A mode with a pointer resolves through `MemReadWrap`: a raise there is the resolver's. -/
theorem resolve_of_pointer_raised {o : Operand} {s u : State} {ptr : Addr} {f : Fault}
    (hptr : pointerAddr o s = some ptr) (h : memReadWrap ptr s = .raised f u) : resolve o s = .raised f u := by
  cases o with
  | indexedIndirect zp8 | indirectIndexed zp8 | indirect ptr16 =>
    cases hptr
    rw [resolve, h, Result.bind_raised]
  | _ => cases hptr

/-- A raise in the read of the pointer is the outcome, whatever the instruction. -/
theorem exec_of_pointer_raised {i : Instr} {s u : State} {ptr : Addr} {f : Fault} (hi : WellFormed i)
    (hptr : pointerAddr i.operand s = some ptr) (h : memReadWrap ptr s = .raised f u) : exec i s = .next u := by
  obtain ⟨op, hop⟩ := opcodeOf_of_wf hi
  exact exec_of_resolve_raised hop (resolve_of_pointer_raised hptr h)

/-! ## A fault at the effective address (60_exceptions.md R342, R346) -/

/-- A handler whose first statement is an access at the effective address: where nothing claims it, that is the fault
and nothing else has happened. -/
def AccessesFirst (handler : Resolved → State → Result Bool) : Prop :=
  ∀ (r : Resolved) (ea : Addr) (u : State), r.ea = some ea → backingOf u.busMap ea = none →
    handler r u = .raised (.unmappedAddress ea) (u.setRun (.faulted (.unmappedAddress ea)))

theorem readThen_accessesFirst {o : Operand} (himm : o.mode ≠ .immediate) (f : Byte → State → State) :
    AccessesFirst (readThen o f) := fun r ea u he h => by
  rw [readThen, readOperand_of_ea himm he, busRead_unmapped h, Result.bind_raised]

theorem readModifyWrite_accessesFirst {o : Operand} (himm : o.mode ≠ .immediate) (change : Byte → State → Byte)
    (after : Byte → State → State) : AccessesFirst (readModifyWrite o change after) := fun r ea u he h => by
  rw [readModifyWrite, readOperand_of_ea himm he, busRead_unmapped h, Result.bind_raised]

theorem writeOperand_of_ea {r : Resolved} {ea : Addr} (h : r.ea = some ea) (v : Byte) (s : State) :
    writeOperand r v s = busWrite ea v s := by
  simp only [writeOperand, h]

theorem storeByte_accessesFirst (value : State → Byte) : AccessesFirst (storeByte value) := fun r ea u he h => by
  rw [storeByte, writeOperand_of_ea he, busWrite_unmapped h, Result.bind_raised]

/-- Such a handler around a pointer in memory and an effective address that nothing claims. -/
theorem perform_of_ea_unmapped {i : Instr} {handler : Resolved → State → Result Bool} (hfirst : AccessesFirst handler)
    {s : State} {ea : Addr} (hi : WellFormed i) (hr : resolvable i.operand s = true)
    (he : effectiveAddr i.operand s = some ea) (h : backingOf s.busMap ea = none) :
    perform i handler s =
      .next ((logReads (pointerReads i.operand s) s).setRun (.faulted (.unmappedAddress ea))) := by
  obtain ⟨op, hop⟩ := opcodeOf_of_wf hi
  rw [perform_resolvable hop hr, hfirst _ ea _ he (by rw [logReads_busMap]; exact h), Result.bind_raised,
    Result.toOutcome_raised]

/-- The documented instructions that read or write their operand do so first. -/
theorem exec_accessesFirst {i : Instr} (hi : i.mnemonic ∈ [.adc, .sbc, .and, .ora, .eor, .bit, .asl, .lsr, .rol, .ror,
      .cmp, .cpx, .cpy, .lda, .ldx, .ldy, .sta, .stx, .sty, .inc, .dec]) (himm : i.mode ≠ .immediate) (s : State) :
    ∃ handler, AccessesFirst handler ∧ exec i s = perform i handler s := by
  cases i with
  | adc o | sbc o | and o | ora o | eor o | bit o | cmp o | cpx o | cpy o | lda o | ldx o | ldy o =>
    exact ⟨_, readThen_accessesFirst himm _, rfl⟩
  | asl o | lsr o | rol o | ror o | inc o | dec o => exact ⟨_, readModifyWrite_accessesFirst himm _ _, rfl⟩
  | sta o | stx o | sty o => exact ⟨_, storeByte_accessesFirst _, rfl⟩
  | sbcUndoc imm8 => exact absurd rfl himm
  | _ => simp [Instr.mnemonic] at hi

/-- Settles O60: the access that nothing claims is the last one, in the fetch, the resolver or the handler. -/
theorem unmappedOperandFaults : Obligations.UnmappedOperandFaults := by
  refine ⟨fun s entry hrun hnmi hirq hpc hentry => ?_, fun i s ptr hwf hptr => ⟨fun h => ?_, fun h h' => ?_⟩,
    fun i s ea hi hwf himm hr he h => ?_⟩
  · subst hentry
    have hboundary := arbitrate_of_no_interrupt hrun hnmi hirq
    refine ⟨fun himplicit himm h => ?_, fun hmode h h' => ?_, fun hmode hreads h => ?_⟩
    · exact step_of_fetch_raised hboundary (fetchInstr_first_unmapped hpc himplicit himm h)
    · have hcount : (entryOf (s.peek s.pc)).mode.operandCount = 2 :=
        (show ∀ m ∈ _, Mode.operandCount m = 2 by decide) _ hmode
      rw [step_of_fetch_raised hboundary (fetchInstr_second_unmapped hpc hcount h h'), afterFetch8_twice]
      rfl
    · exact step_of_fetch_raised hboundary
        (fetchInstr_immediate_unmapped hpc hmode (readsImmediate_of_mem hreads) h)
  · exact exec_of_pointer_raised hwf hptr (memReadWrap_unmapped h)
  · exact exec_of_pointer_raised hwf hptr (memReadWrap_second_unmapped h h')
  · obtain ⟨handler, hfirst, hexec⟩ := exec_accessesFirst hi himm s
    rw [hexec, perform_of_ea_unmapped hfirst hwf hr he h, logReads_eq]
    rfl

end Sys2Proof.Machine
end

section
/-! The family 41_arithmetic: ADC and SBC, their results and flags, that they do not see the Decimal flag, and when one
undoes the other. -/

namespace Sys2Proof.Machine

/-! ## A reading instruction on memory (40_addressing_modes.md R130, R136) -/

/-- A reading instruction whose operand lies in memory is its effect in the state after its reads and its cycles, when
the effect and the added cycles do not touch each other. -/
theorem perform_readThen_afterRead {i : Instr} {s : State} {f : Byte → State → State} (hwf : WellFormed i)
    (hi : i.mnemonic ∈ [.adc, .sbc, .and, .ora, .eor, .bit, .cmp, .cpx, .cpy, .lda, .ldx, .ldy, .lax, .las,
      .anc, .alr, .arr, .axs])
    (hr : readable i.operand s = true) (hf : ∀ m u n, (f m u).addCycles n = f m (u.addCycles n)) :
    perform i (readThen i.operand f) s = .next (f (operandByte i.operand s) (afterRead i.operand s)) := by
  obtain ⟨op, hop⟩ := opcodeOf_of_wf hwf
  rw [perform_readThen hop hr, cost_read hop hi, hf, logReads_eq]
  rfl

/-! ## Results and flags (41_arithmetic.md R161, R162) -/

theorem flagC_adcP (a m p : Byte) : flagC (adcP a m p) = decide (adcSum a m p > 0xFF) := by simp [adcP]

theorem flagV_adcP (a m p : Byte) : flagV (adcP a m p) = true ↔
    a.toInt + m.toInt + (flagC p).toNat < -128 ∨ 127 < a.toInt + m.toInt + (flagC p).toNat := by
  rw [adcP, flagV_setZN, flagV_setV]
  exact overflow_add a m (flagC p)

theorem flagC_sbcP (a m p : Byte) : flagC (sbcP a m p) = decide (0 ≤ sbcDiff a m p) := by simp [sbcP]

theorem flagV_sbcP (a m p : Byte) : flagV (sbcP a m p) = true ↔
    a.toInt - m.toInt - (1 - (flagC p).toNat) < -128 ∨ 127 < a.toInt - m.toInt - (1 - (flagC p).toNat) := by
  rw [sbcP, flagV_setZN, flagV_setV]
  exact overflow_sub a m (flagC p)

/-- ADC whose operand lies in memory. -/
theorem exec_adc {o : Operand} {s : State} (hwf : WellFormed (.adc o)) (hr : readable o s = true) :
    exec (.adc o) s = .next (adcEffect (operandByte o s) (afterRead o s)) :=
  perform_readThen_afterRead hwf (by simp [Instr.mnemonic]) hr fun _ _ _ => rfl

/-- Opcode 0xEB runs the handler of SBC (49_undocumented.md R303). -/
theorem exec_eq_perform_sbc {i : Instr} (hi : i.mnemonic = .sbc) (s : State) :
    exec i s = perform i (readThen i.operand sbcEffect) s := by
  cases i with
  | sbc o | sbcUndoc imm8 => rfl
  | _ => cases hi

/-- SBC by either constructor, where its operand lies in memory. -/
theorem exec_sbc {i : Instr} {s : State} (hi : i.mnemonic = .sbc) (hwf : WellFormed i)
    (hr : readable i.operand s = true) :
    exec i s = .next (sbcEffect (operandByte i.operand s) (afterRead i.operand s)) := by
  rw [exec_eq_perform_sbc hi]
  exact perform_readThen_afterRead hwf (by simp [hi]) hr fun _ _ _ => rfl

/-- Settles O25: the status after ADC is `adcP`, whose overflow expression is the signed range test of `overflow_add`. -/
theorem adcAddsWithCarry : Obligations.AdcAddsWithCarry := by
  rintro o s m sum hwf hr rfl rfl
  exact ⟨adcP s.a (operandByte o s) s.p, exec_adc hwf hr, flagC_adcP .., flagV_adcP .., znOf_setZN ..,
    sameFlags_setC_setV_setZN ..⟩

/-- Settles O26: the status after SBC is `sbcP`, whose overflow expression is the signed range test of `overflow_sub`. -/
theorem sbcSubtractsWithBorrow : Obligations.SbcSubtractsWithBorrow := by
  rintro i s m d hi hwf hr rfl rfl
  exact ⟨sbcP s.a (operandByte i.operand s) s.p, exec_sbc hi hwf hr, flagC_sbcP .., flagV_sbcP .., znOf_setZN ..,
    sameFlags_setC_setV_setZN ..⟩

/-! ## SBC after ADC (41_arithmetic.md R163) -/

/-- Adding and then subtracting one byte leaves the two carries and the constant borrow: `a + c + c' - 1`. -/
theorem sbcResult_adcResult_eq_iff (a m p q : Byte) : sbcResult (adcResult a m p) m q = a ↔ flagC q ≠ flagC p := by
  have ha := a.isLt
  have hm := m.isLt
  rw [← BitVec.toNat_inj, sbcResult, sbcDiff, adcResult, adcSum, carryNat, carryNat, BitVec.toNat_ofInt,
    BitVec.toNat_ofNat]
  cases flagC p <;> cases flagC q <;> simp <;> omega

/-- SBC of `m`, from a state whose accumulator is the result of ADC of `m`, by that state's own carry. -/
theorem sbc_undoes_adc_iff {m a p : Byte} {t u : State} (ha : t.a = adcResult a m p)
    (hu : exec (.sbc (.immediate m)) t = .next u) : u.a = a ↔ flagC t.p ≠ flagC p := by
  rw [exec_sbc rfl rfl rfl] at hu
  cases hu
  show sbcResult t.a m t.p = a ↔ _
  rw [ha, sbcResult_adcResult_eq_iff]

/-- Settles O28: both clauses are `sbc_undoes_adc_iff`, with the carry out and with the carry set in between. -/
theorem adcThenSbc : Obligations.AdcThenSbc := by
  intro m s t ht
  have hflip : flagC (setC (!flagC s.p) t.p) ≠ flagC s.p := by simp
  rw [exec_adc rfl rfl] at ht
  cases ht
  exact ⟨fun u hu => sbc_undoes_adc_iff rfl hu, fun u hu => (sbc_undoes_adc_iff rfl hu).mpr hflip⟩

/-! ## The accesses of a reading instruction do not see P (40_addressing_modes.md R133, R134) -/

/-- The status register replaced by a function of itself. -/
def State.mapP (g : Byte → Byte) (s : State) : State := s.setP (g s.p)

/-- A computation's end with the state replaced by a function of it. -/
def Result.mapState {α : Type} (φ : State → State) : Result α → Result α
  | .done v s => .done v (φ s)
  | .raised f s => .raised f (φ s)

theorem Result.toOutcome_mapState {α : Type} {r : Result α} {φ : State → State} {t : State}
    (h : r.toOutcome = .next t) : (r.mapState φ).toOutcome = .next (φ t) := by
  cases r <;> cases h <;> rfl

/-- Changing P before a computation changes P after it, and nothing else. -/
def IgnoresP {α : Type} (g : Byte → Byte) (c : State → Result α) : Prop :=
  ∀ s : State, c (s.mapP g) = (c s).mapState (State.mapP g)

section

variable {g : Byte → Byte}

theorem IgnoresP.bind {α β : Type} {c : State → Result α} {k : α → State → Result β} (hc : IgnoresP g c)
    (hk : ∀ v, IgnoresP g (k v)) : IgnoresP g fun s => (c s).bind k := by
  intro s
  simp only [hc s]
  cases c s with
  | done v u => exact hk v u
  | raised f u => rfl

theorem busRead_ignoresP (a : Addr) : IgnoresP g (busRead a) := by
  intro s
  rw [busRead, busRead, show (s.mapP g).busMap = s.busMap from rfl, show (s.mapP g).busLog = s.busLog from rfl]
  cases backingOf s.busMap a with
  | none => rfl
  | some backing =>
    cases backing with
    | ram | rom => rfl
    | external => cases Config.externalRead s.busLog a <;> rfl

theorem memReadWrap_ignoresP (a : Addr) : IgnoresP g (memReadWrap a) :=
  (busRead_ignoresP a).bind fun _ => (busRead_ignoresP _).bind fun _ _ => rfl

theorem resolve_ignoresP (o : Operand) : IgnoresP g (resolve o) := by
  cases o with
  | indexedIndirect zp8 => exact fun s => (memReadWrap_ignoresP (zeroPageAddr (zp8 + s.x))).bind (fun _ _ => rfl) s
  | indirectIndexed zp8 => exact (memReadWrap_ignoresP _).bind fun _ _ => rfl
  | indirect ptr16 => exact (memReadWrap_ignoresP _).bind fun _ _ => rfl
  | _ => exact fun _ => rfl

theorem readOperand_ignoresP (o : Operand) (r : Resolved) : IgnoresP g (readOperand o r) := by
  by_cases himm : o.mode = .immediate
  · cases o <;> cases himm
    exact fun _ => rfl
  · obtain ⟨ea, crossed⟩ := r
    cases ea with
    | none => cases o <;> exact fun _ => rfl
    | some ea =>
      intro s
      rw [readOperand_of_ea himm rfl, readOperand_of_ea himm rfl]
      exact busRead_ignoresP ea s

theorem readThen_ignoresP {f : Byte → State → State} (hf : ∀ m u, f m (u.mapP g) = (f m u).mapP g) (o : Operand)
    (r : Resolved) : IgnoresP g (readThen o f r) :=
  (readOperand_ignoresP o r).bind fun m u => congrArg (Result.done false) (hf m u)

theorem addCycles_ignoresP (n : Nat) : IgnoresP g fun u => Result.done () (u.addCycles n) := fun _ => rfl

/-- An instruction whose handler carries a change of P through carries it through as a whole. -/
theorem perform_mapP {i : Instr} {handler : Resolved → State → Result Bool} {s t : State}
    (hh : ∀ r, IgnoresP g (handler r)) (ht : perform i handler s = .next t) :
    perform i handler (s.mapP g) = .next (t.mapP g) := by
  cases he : tableEntry i with
  | none => simp [perform, he] at ht
  | some e =>
    have hsteps := (resolve_ignoresP i.operand).bind fun r => (hh r).bind fun taken =>
      addCycles_ignoresP (OpcodeEntry.cost e r.crossed taken)
    simp only [perform, he] at ht ⊢
    exact (congrArg Result.toOutcome (hsteps s)).trans (Result.toOutcome_mapState ht)

end

/-! ## The Decimal flag (41_arithmetic.md R160) -/

/-- The flags that ADC and SBC write do not touch D. -/
theorem setZN_setV_setC_setD (d o c : Bool) (v p : Byte) :
    setZN v (setV o (setC c (setD d p))) = setD d (setZN v (setV o (setC c p))) := by
  apply status_ext <;> simp

theorem carryNat_setD (d : Bool) (p : Byte) : carryNat (setD d p) = carryNat p := by simp [carryNat]

theorem adcEffect_mapP_setD (d : Bool) (m : Byte) (u : State) :
    adcEffect m (u.mapP (setD d)) = (adcEffect m u).mapP (setD d) := by
  have hsum : adcSum u.a m (setD d u.p) = adcSum u.a m u.p := by rw [adcSum, carryNat_setD, adcSum]
  simp only [adcEffect, State.mapP, State.setP_a, State.setP_p, adcResult, adcP, hsum, setZN_setV_setC_setD]
  rfl

theorem sbcEffect_mapP_setD (d : Bool) (m : Byte) (u : State) :
    sbcEffect m (u.mapP (setD d)) = (sbcEffect m u).mapP (setD d) := by
  have hdiff : sbcDiff u.a m (setD d u.p) = sbcDiff u.a m u.p := by rw [sbcDiff, carryNat_setD, sbcDiff]
  simp only [sbcEffect, State.mapP, State.setP_a, State.setP_p, sbcResult, sbcP, hdiff, setZN_setV_setC_setD]
  rfl

/-- Settles O27: ADC and SBC write no D, and neither their accesses nor their effect see it. -/
theorem decimalFlagIsInert : Obligations.DecimalFlagIsInert := by
  intro i s t d hi ht
  have hd : flagD t.p = flagD s.p := by
    by_contra hne
    have hwrites := (exec_survives (flagEffect_survives i s) (FlagEffect.refl i _ s.p) ht).d hne
    exact (show ∀ m ∈ _, m ∉ _ by decide) _ hi hwrites
  refine ⟨hd, ?_⟩
  simp only [List.mem_cons, List.not_mem_nil, or_false] at hi
  rcases hi with hi | hi
  · cases i with
    | adc o => exact perform_mapP (readThen_ignoresP (adcEffect_mapP_setD d) _) ht
    | _ => cases hi
  · rw [exec_eq_perform_sbc hi] at ht ⊢
    exact perform_mapP (readThen_ignoresP (sbcEffect_mapP_setD d) _) ht

end Sys2Proof.Machine
end

section
/-! The family 42_logical: AND, ORA and EOR, which combine the accumulator with the operand, and BIT, which only tests
it. -/

namespace Sys2Proof.Machine

/-! ## The flags that a masked write leaves alone (10_state.md R26) -/

theorem SameFlags.trans {mask p q r : Byte} (h : SameFlags mask p q) (h' : SameFlags mask q r) : SameFlags mask p r :=
  Eq.trans h' h

/-- A write under one mask keeps the flags under a mask disjoint from it. -/
theorem sameFlags_writeMask {mask m : Byte} (hdisjoint : m &&& mask = 0#8) (b : Bool) (p : Byte) :
    SameFlags mask p (writeMask m b p) := by
  refine BitVec.eq_of_getLsbD_eq fun k hk => ?_
  have hbit : (m.getLsbD k && mask.getLsbD k) = false := by
    rw [← BitVec.getLsbD_and, hdisjoint, BitVec.getLsbD_zero]
  rw [BitVec.getLsbD_and, BitVec.getLsbD_and, getLsbD_writeMask _ _ _ _ hk]
  cases hm : m.getLsbD k with
  | false => rfl
  | true =>
    have hmask : mask.getLsbD k = false := by rwa [hm, Bool.true_and] at hbit
    rw [hmask, Bool.and_false, Bool.and_false]

/-! ## AND, ORA and EOR (42_logical.md R170, R171, R172) -/

/-- AND, ORA and EOR, where their operand lies in memory, load the accumulator with their result. -/
theorem exec_logical {i : Instr} {r : Byte} {o : Operand} {s : State}
    (hi : (i, r) ∈ [(.and o, s.a &&& operandByte o s), (.ora o, s.a ||| operandByte o s),
      (.eor o, s.a ^^^ operandByte o s)]) (hwf : WellFormed i) (hr : readable o s = true) :
    exec i s = .next (loadA r (afterRead o s)) := by
  simp only [List.mem_cons, Prod.mk.injEq, List.not_mem_nil, or_false] at hi
  rcases hi with ⟨rfl, rfl⟩ | ⟨rfl, rfl⟩ | ⟨rfl, rfl⟩ <;>
    exact perform_readThen_afterRead hwf (by simp [Instr.mnemonic]) hr fun _ _ _ => rfl

/-- Settles O29: the result is loaded into A by `loadA`, whose only flag write is `SetZN`. -/
theorem logicalCombinesWithA : Obligations.LogicalCombinesWithA := fun _ s _ r hi hwf hr =>
  ⟨setZN r s.p, exec_logical hi hwf hr, znOf_setZN .., sameFlags_setZN ..⟩

/-! ## BIT (42_logical.md R173) -/

@[simp] theorem flagZ_bitP (a m p : Byte) : flagZ (bitP a m p) = decide (a &&& m = 0#8) := by
  rw [bitP, flagZ_setN, flagZ_setV, flagZ_setZ]; rfl

@[simp] theorem flagV_bitP (a m p : Byte) : flagV (bitP a m p) = m.getLsbD 6 := by
  rw [bitP, flagV_setN, flagV_setV]

@[simp] theorem flagN_bitP (a m p : Byte) : flagN (bitP a m p) = m.getLsbD 7 := flagN_setN ..

/-- BIT writes Z, V and N. -/
theorem sameFlags_bitP (a m p : Byte) : SameFlags 0x3D#8 p (bitP a m p) :=
  ((sameFlags_writeMask (by decide) _ _).trans (sameFlags_writeMask (by decide) _ _)).trans
    (sameFlags_writeMask (by decide) _ _)

/-- BIT whose operand lies in memory writes P alone. -/
theorem exec_bit {o : Operand} {s : State} (hwf : WellFormed (.bit o)) (hr : readable o s = true) :
    exec (.bit o) s = .next ((afterRead o s).setP (bitP s.a (operandByte o s) s.p)) :=
  perform_readThen_afterRead (f := fun m u => u.setP (bitP u.a m u.p)) hwf (by simp [Instr.mnemonic]) hr
    fun _ _ _ => rfl

/-- Settles O30: BIT is `exec_bit`, and the status it writes is `bitP`. -/
theorem bitTestsMemory : Obligations.BitTestsMemory := by
  rintro o s m hwf hr rfl
  exact ⟨bitP s.a (operandByte o s) s.p, exec_bit hwf hr, flagZ_bitP .., flagV_bitP .., flagN_bitP ..,
    sameFlags_bitP ..⟩

end Sys2Proof.Machine
end

section
/-! The family 43_shift_rotate: ASL, LSR, ROL and ROR, of the accumulator and of a memory byte. -/

namespace Sys2Proof.Machine

/-! ## A read-modify-write on memory (40_addressing_modes.md R130, R136) -/

/-- A read-modify-write of a byte of memory is its effect on the registers in the state after its two accesses and its
cycles, when the effect and the added cycles do not touch each other. -/
theorem perform_readModifyWrite_afterModify {i : Instr} {s : State} {ea : Addr} {change : Byte → State → Byte}
    {after : Byte → State → State} {v : Byte} (hwf : WellFormed i)
    (hi : i.mnemonic ∈ [.asl, .lsr, .rol, .ror, .inc, .dec, .slo, .rla, .sre, .rra, .dcp, .isc])
    (he : effectiveAddr i.operand s = some ea) (hs : storable i.operand s = true)
    (hv : change (s.peek ea) (logReads (pointerReads i.operand s ++ [ea]) s) = v)
    (hafter : ∀ m u n, (after m u).addCycles n = after m (u.addCycles n)) :
    perform i (readModifyWrite i.operand change after) s =
      .next (after (s.peek ea) (afterModify i.operand ea v (memAfterWrite ea v s) s)) := by
  obtain ⟨op, hop⟩ := opcodeOf_of_wf hwf
  rw [perform_readModifyWrite hop (modify_not_immediate hop hi) he hs, hv, cost_modify hop hi, hafter, logReads_eq]
  rfl

/-! ## The four shifts as numbers (43_shift_rotate.md R181 to R184) -/

theorem aslShift_eq (v p : Byte) : aslShift v p = ⟨BitVec.ofNat 8 (v.toNat * 2 % 256), v.getLsbD 7⟩ := by
  have hresult : v <<< 1 = BitVec.ofNat 8 (v.toNat * 2 % 256) := by
    apply BitVec.eq_of_toNat_eq
    rw [BitVec.toNat_shiftLeft, BitVec.toNat_ofNat, Nat.mod_mod, Nat.shiftLeft_eq]
  rw [aslShift, hresult]

theorem lsrShift_eq (v p : Byte) : lsrShift v p = ⟨BitVec.ofNat 8 (v.toNat / 2), v.getLsbD 0⟩ := by
  have hresult : v >>> 1 = BitVec.ofNat 8 (v.toNat / 2) := by
    apply BitVec.eq_of_toNat_eq
    rw [BitVec.toNat_ushiftRight, BitVec.toNat_ofNat, Nat.shiftRight_eq_div_pow]
    omega
  rw [lsrShift, hresult]

@[simp] theorem toNat_carryByte (c : Bool) : (carryByte c).toNat = c.toNat := by cases c <;> rfl

/-- The carry enters the bit that the left shift cleared, so it is added. -/
theorem rolShift_eq (v p : Byte) :
    rolShift v p = ⟨BitVec.ofNat 8 ((v.toNat * 2 + (flagC p).toNat) % 256), v.getLsbD 7⟩ := by
  have hdisjoint : v <<< 1 &&& carryByte (flagC p) = 0#8 := by
    ext k hk
    cases k with
    | zero => simp
    | succ k => cases flagC p <;> simp [carryByte]
  have hresult : v <<< 1 ||| carryByte (flagC p) = BitVec.ofNat 8 ((v.toNat * 2 + (flagC p).toNat) % 256) := by
    apply BitVec.eq_of_toNat_eq
    rw [← BitVec.add_eq_or_of_and_eq_zero _ _ hdisjoint, BitVec.toNat_add, BitVec.toNat_shiftLeft, toNat_carryByte,
      BitVec.toNat_ofNat, Nat.shiftLeft_eq]
    omega
  rw [rolShift, hresult]

/-- The carry enters the bit that the right shift cleared, so it is added. -/
theorem rorShift_eq (v p : Byte) :
    rorShift v p = ⟨BitVec.ofNat 8 (v.toNat / 2 + (flagC p).toNat * 128), v.getLsbD 0⟩ := by
  have hdisjoint : v >>> 1 &&& carryByte (flagC p) <<< 7 = 0#8 := by
    ext k hk
    by_cases hk7 : k < 7
    · simp [hk7]
    · obtain rfl : k = 7 := by omega
      simp
  have hresult : v >>> 1 ||| carryByte (flagC p) <<< 7 = BitVec.ofNat 8 (v.toNat / 2 + (flagC p).toNat * 128) := by
    apply BitVec.eq_of_toNat_eq
    rw [← BitVec.add_eq_or_of_and_eq_zero _ _ hdisjoint, BitVec.toNat_add, BitVec.toNat_ushiftRight,
      BitVec.toNat_shiftLeft, toNat_carryByte, BitVec.toNat_ofNat, Nat.shiftRight_eq_div_pow, Nat.shiftLeft_eq]
    omega
  rw [rorShift, hresult]

/-! ## The handler they share (43_shift_rotate.md R180) -/

@[simp] theorem flagC_shiftP (r : Shifted) (p : Byte) : flagC (shiftP r p) = r.out := by simp [shiftP]

/-- The instruction is one of the four, on operand `o`, and its function from the old byte and P is `shift`. -/
structure ShiftsBy (i : Instr) (o : Operand) (shift : Byte → Byte → Shifted) : Prop where
  operand : i.operand = o
  mnemonic : i.mnemonic ∈ [.asl, .lsr, .rol, .ror]
  exec_eq (s : State) : exec i s = perform i (shiftHandler o shift) s

/-- Each of the four shifts a byte `v` to the number R181 to R184 give, and moves the bit they name into C. -/
theorem exists_shiftsBy {i : Instr} {r : Nat} {c : Bool} {o : Operand} {v p : Byte}
    (h : (i, r, c) ∈ [(.asl o, v.toNat * 2 % 256, v.getLsbD 7), (.lsr o, v.toNat / 2, v.getLsbD 0),
      (.rol o, (v.toNat * 2 + (flagC p).toNat) % 256, v.getLsbD 7),
      (.ror o, v.toNat / 2 + (flagC p).toNat * 128, v.getLsbD 0)]) :
    ∃ shift, ShiftsBy i o shift ∧ shift v p = ⟨BitVec.ofNat 8 r, c⟩ := by
  simp only [List.mem_cons, Prod.mk.injEq, List.not_mem_nil, or_false] at h
  rcases h with ⟨rfl, rfl, rfl⟩ | ⟨rfl, rfl, rfl⟩ | ⟨rfl, rfl, rfl⟩ | ⟨rfl, rfl, rfl⟩
  · exact ⟨aslShift, ⟨rfl, by simp [Instr.mnemonic], fun _ => rfl⟩, aslShift_eq v p⟩
  · exact ⟨lsrShift, ⟨rfl, by simp [Instr.mnemonic], fun _ => rfl⟩, lsrShift_eq v p⟩
  · exact ⟨rolShift, ⟨rfl, by simp [Instr.mnemonic], fun _ => rfl⟩, rolShift_eq v p⟩
  · exact ⟨rorShift, ⟨rfl, by simp [Instr.mnemonic], fun _ => rfl⟩, rorShift_eq v p⟩

section

variable {i : Instr} {o : Operand} {shift : Byte → Byte → Shifted}

theorem ShiftsBy.mem_modify (h : ShiftsBy i o shift) :
    i.mnemonic ∈ [.asl, .lsr, .rol, .ror, .inc, .dec, .slo, .rla, .sre, .rra, .dcp, .isc] :=
  List.mem_append_left _ h.mnemonic

/-- All four have an accumulator form (30_encoding.md R111). -/
theorem ShiftsBy.wellFormed_implicit (h : ShiftsBy i .implicit shift) : WellFormed i := by
  obtain ⟨ho, hi, -⟩ := h
  cases i with
  | asl o | lsr o | rol o | ror o => cases ho; rfl
  | _ => simp [Instr.mnemonic] at hi

/-- A shift of the accumulator writes A and P and makes no access. -/
theorem ShiftsBy.exec_accumulator (h : ShiftsBy i .implicit shift) (s : State) : exec i s =
    .next (((afterInternal 2 s).setA (shift s.a s.p).result).setP (shiftP (shift s.a s.p) s.p)) := by
  obtain ⟨op, hop⟩ := opcodeOf_of_wf h.wellFormed_implicit
  rw [h.exec_eq, perform_implicit hop h.operand]
  simp only [shiftHandler, readModifyWrite, readOperand, writeOperand, Result.bind_done, Result.toOutcome_done,
    cost_modify hop h.mem_modify, h.operand]
  rfl

/-- A shift of a byte of memory writes it back and writes P. -/
theorem ShiftsBy.exec_memory (h : ShiftsBy i o shift) {s : State} {ea : Addr} {r : Shifted} (hwf : WellFormed i)
    (he : effectiveAddr o s = some ea) (hs : storable o s = true) (hr : shift (s.peek ea) s.p = r) :
    exec i s = .next ((afterModify o ea r.result (memAfterWrite ea r.result s) s).setP (shiftP r s.p)) := by
  obtain rfl := h.operand
  subst hr
  rw [h.exec_eq]
  exact perform_readModifyWrite_afterModify hwf h.mem_modify he hs (by rw [logReads_p]) fun _ _ _ => rfl

end

/-- Settles O31: the accumulator and P are written by `ShiftsBy.exec_accumulator`, P being `shiftP`. -/
theorem shiftsOfTheAccumulator : Obligations.ShiftsOfTheAccumulator := by
  rintro s i r c carry rfl hi
  obtain ⟨shift, hshift, hr⟩ := exists_shiftsBy hi
  refine ⟨shiftP ⟨BitVec.ofNat 8 r, c⟩ s.p, ?_, flagC_shiftP .., znOf_setZN .., sameFlags_setC_setZN ..⟩
  rw [hshift.exec_accumulator, hr]
  rfl

/-- Settles O32: one byte is stored, as `memoryAfter_one` says, and P is `shiftP`. -/
theorem shiftsOfMemory : Obligations.ShiftsOfMemory := by
  rintro o s ea v i r c carry he rfl rfl hi hwf hs hmem
  obtain ⟨shift, hshift, hr⟩ := exists_shiftsBy hi
  exact ⟨memAfterWrite ea (BitVec.ofNat 8 r) s, shiftP ⟨BitVec.ofNat 8 r, c⟩ s.p, hshift.exec_memory hwf he hs hr,
    memoryAfter_one hmem _ _, flagC_shiftP .., znOf_setZN .., sameFlags_setC_setZN ..⟩

end Sys2Proof.Machine
end

section
/-! The family 44_compare: CMP, CPX and CPY, which write C, Z and N of a register minus the operand and keep the
register. -/

namespace Sys2Proof.Machine

/-! ## The status after a compare (44_compare.md R190) -/

@[simp] theorem flagC_compareP (reg m p : Byte) : flagC (compareP reg m p) = decide (m.toNat ≤ reg.toNat) := by
  rw [compareP, flagC_setZN, flagC_setC]

@[simp] theorem flagZ_compareP (reg m p : Byte) : flagZ (compareP reg m p) = decide (reg = m) := by
  rw [compareP, flagZ_setZN, beq_eq_decide, decide_eq_decide]
  exact sub_eq_zero

@[simp] theorem flagN_compareP (reg m p : Byte) : flagN (compareP reg m p) = (reg - m).msb := (znOf_setZN _ _).2

/-- A compare writes C, Z and N. -/
theorem sameFlags_compareP (reg m p : Byte) : SameFlags 0x7C#8 p (compareP reg m p) := sameFlags_setC_setZN ..

/-! ## CMP, CPX and CPY (44_compare.md R191, R192, R193) -/

/-- CMP, CPX and CPY, where their operand lies in memory, write P alone. -/
theorem exec_compare {i : Instr} {reg : Byte} {o : Operand} {s : State}
    (hi : (i, reg) ∈ [(.cmp o, s.a), (.cpx o, s.x), (.cpy o, s.y)]) (hwf : WellFormed i)
    (hr : readable o s = true) :
    exec i s = .next ((afterRead o s).setP (compareP reg (operandByte o s) s.p)) := by
  simp only [List.mem_cons, Prod.mk.injEq, List.not_mem_nil, or_false] at hi
  rcases hi with ⟨rfl, rfl⟩ | ⟨rfl, rfl⟩ | ⟨rfl, rfl⟩ <;>
    exact perform_readThen_afterRead hwf (by simp [Instr.mnemonic]) hr fun _ _ _ => rfl

/-- Settles O33: a compare is `exec_compare`, and the status it writes is `compareP`. -/
theorem comparesSetFlags : Obligations.ComparesSetFlags := by
  rintro o s i reg m hi hwf hr rfl
  exact ⟨compareP reg (operandByte o s) s.p, exec_compare hi hwf hr, flagC_compareP .., flagZ_compareP ..,
    flagN_compareP .., sameFlags_compareP ..⟩

end Sys2Proof.Machine
end

section
/-! The family 45_branch: the eight conditional branches, each on one flag of P. -/

namespace Sys2Proof.Machine

/-! ## The branch operation they share (45_branch.md R200) -/

/-- The cycles of a branch by its two addresses: a page is an address without its low byte (40 R133, R136). -/
theorem branchCost_pageCrossed (taken : Bool) (pc target : Addr) : branchCost taken (pageCrossed pc target) =
    if taken then (if pc.toNat / 256 = target.toNat / 256 then 3 else 4) else 2 := by
  rw [pageCrossed_eq]
  by_cases hpage : pc.toNat / 256 = target.toNat / 256 <;> simp [branchCost, extra, hpage]

/-- The instruction is a branch by `rel8` with opcode byte `op`, taken when `cond` holds of P. -/
structure BranchesOn (i : Instr) (op rel8 : Byte) (cond : Byte → Bool) : Prop where
  operand : i.operand = .relative rel8
  mnemonic : i.mnemonic ∈ [.bcc, .bcs, .beq, .bne, .bmi, .bpl, .bvc, .bvs]
  opcode : opcodeOf i = some op
  exec_eq (s : State) : exec i s = perform i (branchIf cond) s

/-- Each of the eight branches is taken on the flag and the value R201 to R208 give it. -/
theorem exists_branchesOn {i : Instr} {op rel8 p : Byte} {taken : Bool}
    (h : (i, op, taken) ∈ [(.bcc rel8, 0x90#8, !flagC p), (.bcs rel8, 0xB0#8, flagC p),
      (.beq rel8, 0xF0#8, flagZ p), (.bne rel8, 0xD0#8, !flagZ p),
      (.bmi rel8, 0x30#8, flagN p), (.bpl rel8, 0x10#8, !flagN p),
      (.bvc rel8, 0x50#8, !flagV p), (.bvs rel8, 0x70#8, flagV p)]) :
    ∃ cond, BranchesOn i op rel8 cond ∧ cond p = taken := by
  simp only [List.mem_cons, Prod.mk.injEq, List.not_mem_nil, or_false] at h
  rcases h with ⟨rfl, rfl, rfl⟩ | ⟨rfl, rfl, rfl⟩ | ⟨rfl, rfl, rfl⟩ | ⟨rfl, rfl, rfl⟩ | ⟨rfl, rfl, rfl⟩ |
    ⟨rfl, rfl, rfl⟩ | ⟨rfl, rfl, rfl⟩ | ⟨rfl, rfl, rfl⟩ <;>
    exact ⟨_, ⟨rfl, by simp [Instr.mnemonic], rfl, fun _ => rfl⟩, rfl⟩

section

variable {i : Instr} {op rel8 : Byte} {cond : Byte → Bool}

theorem BranchesOn.encode_eq (h : BranchesOn i op rel8 cond) : encode i = some [op, rel8] := by
  rw [encode_of_opcodeOf h.opcode, h.operand]; rfl

/-- A branch completes in every state: the resolver and the handler make no access, and only PC and the cycles are
written. -/
theorem BranchesOn.exec_next (h : BranchesOn i op rel8 cond) (s : State) : exec i s = .next { s with
    pc := if cond s.p then branchTarget s.pc rel8 else s.pc
    cycles := s.cycles + branchCost (cond s.p) (pageCrossed s.pc (branchTarget s.pc rel8)) } := by
  rw [h.exec_eq, perform_eq h.opcode, h.operand, resolve, Result.bind_done]
  simp only [cost_branch h.opcode h.mnemonic, branchIf]
  cases cond s.p with
  | true => rfl
  | false => rfl

end

/-- Settles O34: every one of the eight is `BranchesOn` its flag, and what such a branch does is
`BranchesOn.exec_next`. -/
theorem branchesTestOneFlag : Obligations.BranchesTestOneFlag := by
  rintro rel8 s target i op taken rfl hi
  obtain ⟨cond, hbranch, rfl⟩ := exists_branchesOn hi
  refine ⟨hbranch.encode_eq, ?_⟩
  rw [hbranch.exec_next, branchCost_pageCrossed]
  rfl

end Sys2Proof.Machine
end

section
/-! The family 46_stack_control: PHA, PHP, PLA, PLP, JSR, RTS, RTI, JMP and BRK, and that RTI and RTS undo what pushed
the bytes they pull. -/

namespace Sys2Proof.Machine

/-! ## An instruction by the end of its handler (40_addressing_modes.md R130; 60_exceptions.md R341) -/

section

variable {i : Instr} {op : Byte} {handler : Resolved → State → Result Bool} {s u t : State} {r : Resolved}

/-- An instruction whose resolver and handler are done ends in the handler's state with its cycles added. -/
theorem exec_of_done {taken : Bool} {t' : State} (he : exec i s = perform i handler s) (hop : opcodeOf i = some op)
    (hr : resolve i.operand s = .done r u) (hh : handler r u = .done taken t)
    (ht : t.addCycles (OpcodeEntry.cost (entryOf op) r.crossed taken) = t') : exec i s = .next t' := by
  rw [he, perform_eq hop, hr, Result.bind_done, hh, Result.bind_done, Result.toOutcome_done, ht]

/-- A raise of the handler is the outcome, with no cycles added. -/
theorem exec_of_raised {f : Fault} (he : exec i s = perform i handler s) (hop : opcodeOf i = some op)
    (hr : resolve i.operand s = .done r u) (hh : handler r u = .raised f t) : exec i s = .next t := by
  rw [he, perform_eq hop, hr, Result.bind_done, hh, Result.bind_raised, Result.toOutcome_raised]

end

/-! ## The status byte on the stack (10_state.md R31, R33, R37) -/

theorem pushedP_true (p : Byte) : pushedP true p = p ||| 0x30#8 := by
  rw [pushedP, if_pos rfl, BitVec.or_assoc]
  rfl

/-- A legal status byte comes back from the stack as it was, whatever Break was pushed as. -/
theorem pulledP_pushedP {p : Byte} (h : LegalP p) (brk : Bool) : pulledP (pushedP brk p) = p := by
  obtain ⟨hB, hR⟩ := h
  apply status_ext <;> simp [hB, hR]

/-! ## PHA, PHP, PLA and PLP (46_stack_control.md R220 to R223) -/

theorem exec_pha {s : State} (h : s.isMemory (stackAddr s.sp) = true) : exec .pha s = .next { afterInternal 3 s with
    sp := s.sp - 1
    mem := memAfterWrite (stackAddr s.sp) s.a s
    busLog := ⟨.write, stackAddr s.sp, s.a⟩ :: s.busLog } :=
  exec_of_done rfl rfl rfl (by rw [push_memory h, Result.bind_done]) (by rfl)

theorem exec_php {s : State} (h : s.isMemory (stackAddr s.sp) = true) : exec .php s = .next { afterInternal 3 s with
    sp := s.sp - 1
    mem := memAfterWrite (stackAddr s.sp) (pushedP true s.p) s
    busLog := ⟨.write, stackAddr s.sp, pushedP true s.p⟩ :: s.busLog } :=
  exec_of_done rfl rfl rfl (by rw [push_memory h, Result.bind_done]) (by rfl)

/-- Settles O35: one byte is stored by `exec_pha` or `exec_php`, P with Break and Reserved set. -/
theorem pushInstructions : Obligations.PushInstructions := by
  intro s i opcode v hi hm hwf
  simp only [List.mem_cons, Prod.mk.injEq, List.not_mem_nil, or_false] at hi
  rcases hi with ⟨rfl, rfl, rfl⟩ | ⟨rfl, rfl, rfl⟩
  · exact ⟨rfl, _, exec_pha hm, memoryAfter_one hwf _ _⟩
  · rw [← pushedP_true]
    exact ⟨rfl, _, exec_php hm, memoryAfter_one hwf _ _⟩

/-- Settles O36: the byte is pulled from memory; `SetZN` writes the flags for PLA. -/
theorem pullInstructions : Obligations.PullInstructions := by
  rintro s top v rfl hm rfl
  refine ⟨rfl, rfl, ⟨setZN _ s.p, ?_, znOf_setZN .., sameFlags_setZN ..⟩, ?_⟩
  · exact exec_of_done rfl rfl rfl (by rw [pull_memory hm, Result.bind_done]) (by rfl)
  · exact exec_of_done rfl rfl rfl (by rw [pull_memory hm, Result.bind_done]) (by rfl)

/-! ## JSR (46_stack_control.md R224) -/

theorem exec_jsr (target : Addr) {s : State} (h : s.isMemory (stackAddr s.sp) = true)
    (h' : s.isMemory (stackAddr (s.sp - 1)) = true) : exec (.jsr target) s = .next { afterInternal 6 s with
      pc := target
      sp := s.sp - 2
      mem := memAfterPush16 (s.pc - 1) s
      busLog := ⟨.write, stackAddr (s.sp - 1), loByte (s.pc - 1)⟩ ::
        ⟨.write, stackAddr s.sp, hiByte (s.pc - 1)⟩ :: s.busLog } :=
  exec_of_done rfl rfl rfl (by rw [push16_memory _ h h', Result.bind_done]) (by rfl)

/-- Settles O37: JSR is `exec_jsr`, and its two stores are those of `Push16`. -/
theorem jsrPushesReturnAddress : Obligations.JsrPushesReturnAddress := fun target _ hwf h h' =>
  ⟨_, exec_jsr target h h', memoryAfter_push16 hwf⟩

/-- `Push16` whose second byte nothing claims has pushed its first. -/
theorem push16_second_unmapped (w : Addr) {s : State} (h : s.isMemory (stackAddr s.sp) = true)
    (h' : backingOf s.busMap (stackAddr (s.sp - 1)) = none) :
    push16 w s = .raised (.unmappedAddress (stackAddr (s.sp - 1))) { s with
      sp := s.sp - 1
      mem := memAfterWrite (stackAddr s.sp) (hiByte w) s
      busLog := ⟨.write, stackAddr s.sp, hiByte w⟩ :: s.busLog
      run := .faulted (.unmappedAddress (stackAddr (s.sp - 1))) } := by
  rw [push16, push_memory h, Result.bind_done, push, busWrite_unmapped (by exact h')]
  rfl

/-- Settles O38: the raise of `Push16` is the outcome, before JSR writes PC. -/
theorem jsrSecondPushFaults : Obligations.JsrSecondPushFaults := fun _ _ hwf h h' =>
  ⟨_, exec_of_raised rfl rfl rfl (by rw [push16_second_unmapped _ h h', Result.bind_raised]; rfl),
    memoryAfter_one hwf _ _⟩

/-! ## RTS and RTI (46_stack_control.md R225, R226) -/

theorem exec_rts {s : State} (h1 : s.isMemory (stackAddr (s.sp + 1)) = true)
    (h2 : s.isMemory (stackAddr (s.sp + 2)) = true) : exec .rts s = .next { afterInternal 6 s with
      pc := word16 (s.peek (stackAddr (s.sp + 2))) (s.peek (stackAddr (s.sp + 1))) + 1
      sp := s.sp + 2
      busLog := ⟨.read, stackAddr (s.sp + 2), s.peek (stackAddr (s.sp + 2))⟩ ::
        ⟨.read, stackAddr (s.sp + 1), s.peek (stackAddr (s.sp + 1))⟩ :: s.busLog } :=
  exec_of_done rfl rfl rfl (by rw [pull16_memory h1 h2, Result.bind_done]) (by rfl)

theorem exec_rti {s : State} (h1 : s.isMemory (stackAddr (s.sp + 1)) = true)
    (h2 : s.isMemory (stackAddr (s.sp + 2)) = true) (h3 : s.isMemory (stackAddr (s.sp + 3)) = true) :
    exec .rti s = .next { afterInternal 6 s with
      p := pulledP (s.peek (stackAddr (s.sp + 1)))
      pc := word16 (s.peek (stackAddr (s.sp + 3))) (s.peek (stackAddr (s.sp + 2)))
      sp := s.sp + 3
      busLog := ⟨.read, stackAddr (s.sp + 3), s.peek (stackAddr (s.sp + 3))⟩ ::
        ⟨.read, stackAddr (s.sp + 2), s.peek (stackAddr (s.sp + 2))⟩ ::
        ⟨.read, stackAddr (s.sp + 1), s.peek (stackAddr (s.sp + 1))⟩ :: s.busLog } :=
  exec_of_done rfl rfl rfl (by rw [returnFromException_memory h1 h2 h3, Result.bind_done]) (by rfl)

/-- Settles O39: `exec_rts` and `exec_rti`. -/
theorem returns : Obligations.Returns := by
  rintro s _ _ _ rfl rfl rfl h1 h2
  exact ⟨exec_rts h1 h2, exec_rti h1 h2⟩

/-! ## JMP (46_stack_control.md R227) -/

/-- Settles O40: the resolver finds the target, in the operand or through a pointer in memory. -/
theorem jmpSetsPc : Obligations.JmpSetsPc := by
  intro w hiAt s
  refine ⟨rfl, ?_⟩
  rintro rfl h (h' : s.isMemory (nextInPage w) = true)
  have hr : resolvable (.indirect w) s = true := by simp [resolvable, pointerReads, pointerAddr, h, h']
  exact exec_of_done rfl rfl (resolve_resolvable hr) rfl (by rfl)

/-! ## BRK (46_stack_control.md R228) -/

/-- BRK takes the exception at the address that `BRK_PAD` gives, and then adds its cycles. -/
theorem exec_brk (s : State) : exec .brk s =
    ((enterException true Config.vecIrq (s.setPc (s.pc + brkPadding s))).bind fun _ u =>
      .done () (u.addCycles 7)).toOutcome := by
  cases h : enterException true Config.vecIrq (s.setPc (s.pc + brkPadding s)) with
  | done _ u => exact exec_of_done rfl rfl rfl (by rw [h, Result.bind_done]) rfl
  | raised f u => exact exec_of_raised rfl rfl rfl (by rw [h, Result.bind_raised])

/-- Settles O41: BRK is `enterException` with Break set, on a stack and a vector in memory. -/
theorem brkTakesTheException : Obligations.BrkTakesTheException := by
  rintro s _ rfl hwf hm
  simp only [List.all_cons, List.all_nil, Bool.and_true, Bool.and_eq_true] at hm
  obtain ⟨h0, h1, h2, hv, hv'⟩ := hm
  have hentry := enterException_memory true (lo := 0xFE#8) (lo' := 0xFF#8)
    (s := s.setPc (s.pc + brkPadding s)) hwf h0 h1 h2 (by decide) hv hv'
  rw [← pushedP_true]
  exact ⟨_, (exec_brk s).trans (congrArg (fun r => (Result.bind r _).toOutcome) hentry),
    memoryAfter_entry (s := s.setPc (s.pc + brkPadding s)) hwf⟩

/-! ## The bytes an exception leaves on the stack (60_exceptions.md R352, R357) -/

/-- A computation that no fault stopped was done: a raise would stand in the run state. -/
theorem Result.UnchargedFrom.done_of_running {α β : Type} {r : Result α} {k : α → State → Result β} {s t : State}
    (hr : r.UnchargedFrom s) (ht : (r.bind k).toOutcome = .next t) (hrun : t.run = .running) :
    ∃ v u, r = .done v u ∧ (k v u).toOutcome = .next t := by
  cases r with
  | done v u => exact ⟨v, u, rfl, ht⟩
  | raised f u =>
    obtain ⟨hfaulted, -⟩ := hr
    cases ht
    rw [hrun] at hfaulted
    cases hfaulted

theorem eq_log_of_busRead_done {a : Addr} {s t : State} {v : Byte} (h : busRead a s = .done v t) :
    t = s.log ⟨.read, a, v⟩ := by
  rcases busRead_cases a s with ⟨w, hw⟩ | hw <;> rw [hw] at h <;> cases h
  rfl

/-- The two reads of a word change the trace alone. -/
theorem eq_of_memRead16_done {a w : Addr} {s t : State} (h : memRead16 a s = .done w t) :
    ∃ l, t = { s with busLog := l } := by
  obtain ⟨lo, u, hlo, h⟩ := Result.bind_eq_done.mp h
  obtain ⟨hi, v, hhi, h⟩ := Result.bind_eq_done.mp h
  cases h
  rw [eq_log_of_busRead_done hhi, eq_log_of_busRead_done hlo]
  exact ⟨_, rfl⟩

/-- Taking an exception on a stack in memory, whatever answers its vector: the three pushes, and then P, PC and the
trace. -/
theorem eq_of_enterException_done {brk : Bool} {vector : Addr} {s t : State}
    (h : enterException brk vector s = .done () t) (h0 : s.isMemory (stackAddr s.sp) = true)
    (h1 : s.isMemory (stackAddr (s.sp - 1)) = true) (h2 : s.isMemory (stackAddr (s.sp - 2)) = true) :
    ∃ p pc l, t = { afterEntryPushes brk s with p := p, pc := pc, busLog := l } := by
  rw [enterException_pushes brk vector h0 h1 h2, beforeVector_eq] at h
  obtain ⟨target, u, hread, h⟩ := Result.bind_eq_done.mp h
  obtain ⟨l, rfl⟩ := eq_of_memRead16_done hread
  cases h
  exact ⟨_, _, _, rfl⟩

/-- Every byte after the three pushes of an exception on a stack in RAM. -/
theorem read_memAfterEntry {brk : Bool} {s : State} (hwf : Memory.wf s.mem = true)
    (h0 : s.isRam (stackAddr s.sp) = true) (h1 : s.isRam (stackAddr (s.sp - 1)) = true)
    (h2 : s.isRam (stackAddr (s.sp - 2)) = true) (b : Addr) :
    Memory.read (memAfterEntry brk s) b.toNat =
      if b = stackAddr (s.sp - 2) then pushedP brk s.p
      else if b = stackAddr (s.sp - 1) then loByte s.pc
      else if b = stackAddr s.sp then hiByte s.pc else s.peek b := by
  rw [memoryAfter_entry hwf b]
  simp only [storedByte, h0, h1, h2, and_true]

/-! ## RTI and RTS where those bytes are still on top of the stack (46_stack_control.md R225, R226) -/

theorem isMemory_of_same_busMap {s t : State} (hmap : t.busMap = s.busMap) {a : Addr} (h : s.isRam a = true) :
    t.isMemory a = true := by
  rw [State.isMemory, hmap]
  exact isMemory_of_isRam h

/-- RTI after the three pushes of an exception on a stack in RAM. -/
theorem exec_rti_of_afterEntry {brk : Bool} {s t : State} (hwf : Memory.wf s.mem = true)
    (h0 : s.isRam (stackAddr s.sp) = true) (h1 : s.isRam (stackAddr (s.sp - 1)) = true)
    (h2 : s.isRam (stackAddr (s.sp - 2)) = true) (hsp : t.sp = s.sp - 3) (hmem : t.mem = memAfterEntry brk s)
    (hmap : t.busMap = s.busMap) :
    ∃ l, exec .rti t =
      .next { afterInternal 6 t with p := pulledP (pushedP brk s.p), pc := s.pc, sp := s.sp, busLog := l } := by
  have hpeek (b : Addr) := (congrArg (Memory.read · b.toNat) hmem).trans (read_memAfterEntry hwf h0 h1 h2 b)
  have hstatus : t.peek (stackAddr (s.sp - 2)) = pushedP brk s.p := (hpeek _).trans (if_pos rfl)
  have hlo : t.peek (stackAddr (s.sp - 1)) = loByte s.pc := by
    have hne : s.sp - 1 ≠ s.sp - 2 := by bv_omega
    exact (hpeek _).trans (by simp only [stackAddr_inj, hne, if_false, if_true])
  have hhi : t.peek (stackAddr s.sp) = hiByte s.pc := by
    have hne1 : s.sp ≠ s.sp - 1 := by bv_omega
    have hne2 : s.sp ≠ s.sp - 2 := by bv_omega
    exact (hpeek _).trans (by simp only [stackAddr_inj, hne1, hne2, if_false, if_true])
  have e1 : t.sp + 1 = s.sp - 2 := by rw [hsp]; bv_omega
  have e2 : t.sp + 2 = s.sp - 1 := by rw [hsp]; bv_omega
  have e3 : t.sp + 3 = s.sp := by rw [hsp]; exact BitVec.sub_add_cancel _ _
  have hexec := exec_rti (s := t) (by rw [e1]; exact isMemory_of_same_busMap hmap h2)
    (by rw [e2]; exact isMemory_of_same_busMap hmap h1) (by rw [e3]; exact isMemory_of_same_busMap hmap h0)
  rw [e1, e2, e3, hstatus, hlo, hhi, word16_hi_lo] at hexec
  exact ⟨_, hexec⟩

/-- RTS after a `Push16` on a stack in RAM. -/
theorem exec_rts_of_afterPush16 {w : Addr} {s t : State} (hwf : Memory.wf s.mem = true)
    (h0 : s.isRam (stackAddr s.sp) = true) (h1 : s.isRam (stackAddr (s.sp - 1)) = true) (hsp : t.sp = s.sp - 2)
    (hmem : t.mem = memAfterPush16 w s) (hmap : t.busMap = s.busMap) :
    ∃ l, exec .rts t = .next { afterInternal 6 t with pc := w + 1, sp := s.sp, busLog := l } := by
  have hpeek (b : Addr) := (congrArg (Memory.read · b.toNat) hmem).trans (read_memAfterPush16 hwf h0 h1 b)
  have hlo : t.peek (stackAddr (s.sp - 1)) = loByte w := (hpeek _).trans (if_pos rfl)
  have hhi : t.peek (stackAddr s.sp) = hiByte w := by
    have hne : s.sp ≠ s.sp - 1 := by bv_omega
    exact (hpeek _).trans (by simp only [stackAddr_inj, hne, if_false, if_true])
  have e1 : t.sp + 1 = s.sp - 1 := by rw [hsp]; bv_omega
  have e2 : t.sp + 2 = s.sp := by rw [hsp]; exact BitVec.sub_add_cancel _ _
  have hexec := exec_rts (s := t) (by rw [e1]; exact isMemory_of_same_busMap hmap h1)
    (by rw [e2]; exact isMemory_of_same_busMap hmap h0)
  rw [e1, e2, hlo, hhi, word16_hi_lo] at hexec
  exact ⟨_, hexec⟩

/-- RTI undoes an exception taken on a stack in RAM. -/
theorem exec_rti_of_exception {brk : Bool} {vector : Addr} {s t : State} (hinv : StateInv s)
    (h0 : s.isRam (stackAddr s.sp) = true) (h1 : s.isRam (stackAddr (s.sp - 1)) = true)
    (h2 : s.isRam (stackAddr (s.sp - 2)) = true) (h : enterException brk vector s = .done () t) (n : Nat) :
    ∃ u, exec .rti (t.addCycles n) = .next u ∧ u.run = s.run ∧ u.pc = s.pc ∧ u.p = s.p ∧ u.sp = s.sp ∧
      u.a = s.a ∧ u.x = s.x ∧ u.y = s.y := by
  obtain ⟨hlegal, hwf⟩ := hinv
  obtain ⟨p, pc, l, ht⟩ := eq_of_enterException_done h (isMemory_of_isRam h0) (isMemory_of_isRam h1)
    (isMemory_of_isRam h2)
  obtain ⟨l', hexec⟩ := exec_rti_of_afterEntry (t := t.addCycles n) hwf h0 h1 h2 (by rw [ht]; rfl) (by rw [ht]; rfl)
    (by rw [ht]; rfl)
  subst ht
  exact ⟨_, hexec, rfl, rfl, pulledP_pushedP hlegal brk, rfl, rfl, rfl, rfl⟩

/-- Settles O42: an entry and BRK took an exception, which RTI undoes; JSR pushed a word, to which RTS returns. -/
theorem returnsUndoEntries : Obligations.ReturnsUndoEntries := by
  intro s t hinv hrunning hram
  simp only [List.all_cons, List.all_nil, Bool.and_true, Bool.and_eq_true] at hram
  obtain ⟨h0, h1, h2⟩ := hram
  refine ⟨fun kind ht hrun => ?_, fun ht hrun => ?_, fun target ht => ?_⟩
  · rw [interruptEntry, hrunning] at ht
    obtain ⟨_, v, hentry, hv⟩ := (enterException_uncharged ..).done_of_running ht hrun
    cases hv
    rw [← hrunning]
    cases kind with
    | nmi => exact exec_rti_of_exception (s := s.setNmiPending false) hinv h0 h1 h2 hentry _
    | irq => exact exec_rti_of_exception hinv h0 h1 h2 hentry _
  · rw [exec_brk] at ht
    obtain ⟨_, v, hentry, hv⟩ := (enterException_uncharged ..).done_of_running ht hrun
    cases hv
    obtain ⟨u, hexec, hurun, hpc, hp, hsp, -⟩ :=
      exec_rti_of_exception (s := s.setPc (s.pc + brkPadding s)) hinv h0 h1 h2 hentry 7
    exact ⟨u, hexec, hurun.trans hrunning, hpc, hp, hsp⟩
  · rw [exec_jsr target (isMemory_of_isRam h0) (isMemory_of_isRam h1)] at ht
    injection ht with ht
    obtain ⟨-, hwf⟩ := hinv
    obtain ⟨l, hexec⟩ := exec_rts_of_afterPush16 (t := t) hwf h0 h1 (by rw [← ht]) (by rw [← ht]) (by rw [← ht]; rfl)
    subst ht
    exact ⟨_, hexec, hrunning, BitVec.sub_add_cancel _ _, rfl, rfl⟩

end Sys2Proof.Machine
end

section
/-! The family 47_transfer_flag_nop: the six transfers, the seven flag instructions and the NOPs. None makes a bus
access of its own, so each completes in every state. -/

namespace Sys2Proof.Machine

/-- An instruction with no operand that only changes registers and flags takes the two cycles of its row. -/
theorem exec_of_registerOnly {i : Instr} {op : Byte} {f : State → State} {s t : State}
    (he : ∀ u, exec i u = perform i (registerOnly f) u) (hop : opcodeOf i = some op) (ho : i.operand = .implicit)
    (hcost : OpcodeEntry.cost (entryOf op) false false = 2) (ht : (f s).addCycles 2 = t) : exec i s = .next t := by
  have hcrosses : crosses i.operand s = false := by rw [ho]; rfl
  rw [he, perform_registerOnly hop (by rw [ho]; rfl), hcrosses, hcost, ht]

/-! ## The transfers (47_transfer_flag_nop.md R240 to R245) -/

/-- Settles O43: the handler of each transfer writes the register and, except for TXS, `SetZN` of it. -/
theorem transfersCopy : Obligations.TransfersCopy := by
  intro s
  refine ⟨rfl,
    ⟨setZN s.a s.p, ?_, znOf_setZN .., sameFlags_setZN ..⟩,
    ⟨setZN s.x s.p, ?_, znOf_setZN .., sameFlags_setZN ..⟩,
    ⟨setZN s.a s.p, ?_, znOf_setZN .., sameFlags_setZN ..⟩,
    ⟨setZN s.y s.p, ?_, znOf_setZN .., sameFlags_setZN ..⟩,
    ⟨setZN s.sp s.p, ?_, znOf_setZN .., sameFlags_setZN ..⟩, ?_⟩ <;>
    exact exec_of_registerOnly (fun _ => rfl) rfl rfl rfl (by rfl)

/-! ## The flag instructions (47_transfer_flag_nop.md R250 to R256) -/

/-- The instruction has opcode byte `op` and no operand, and writes the flags of `mask` with `b`. -/
structure WritesFlag (i : Instr) (op mask : Byte) (b : Bool) : Prop where
  operand : i.operand = .implicit
  opcode : opcodeOf i = some op
  cost : OpcodeEntry.cost (entryOf op) false false = 2
  exec_eq (s : State) : exec i s = perform i (registerOnly fun u => u.setP (writeMask mask b u.p)) s

/-- Each of the seven writes the flag and the value R250 to R256 give it, which they also give as a mask. -/
theorem exists_writesFlag {i : Instr} {op p p' : Byte}
    (h : (i, op, p') ∈ [(.clc, 0x18#8, p &&& 0xFE#8), (.sec, 0x38#8, p ||| 0x01#8), (.cli, 0x58#8, p &&& 0xFB#8),
      (.sei, 0x78#8, p ||| 0x04#8), (.cld, 0xD8#8, p &&& 0xF7#8), (.sed, 0xF8#8, p ||| 0x08#8),
      (.clv, 0xB8#8, p &&& 0xBF#8)]) :
    ∃ mask b, WritesFlag i op mask b ∧ writeMask mask b p = p' := by
  simp only [List.mem_cons, Prod.mk.injEq, List.not_mem_nil, or_false] at h
  rcases h with ⟨rfl, rfl, rfl⟩ | ⟨rfl, rfl, rfl⟩ | ⟨rfl, rfl, rfl⟩ | ⟨rfl, rfl, rfl⟩ | ⟨rfl, rfl, rfl⟩ |
    ⟨rfl, rfl, rfl⟩ | ⟨rfl, rfl, rfl⟩ <;>
    exact ⟨_, _, ⟨rfl, rfl, rfl, fun _ => rfl⟩, rfl⟩

/-- Settles O44: every one of the seven `WritesFlag`, by a handler that changes P alone. -/
theorem flagInstructions : Obligations.FlagInstructions := by
  intro s i op p' hi
  obtain ⟨mask, b, hflag, rfl⟩ := exists_writesFlag hi
  refine ⟨?_, exec_of_registerOnly hflag.exec_eq hflag.opcode hflag.operand hflag.cost rfl⟩
  rw [encode_of_opcodeOf hflag.opcode, hflag.operand]
  rfl

/-! ## The NOPs (47_transfer_flag_nop.md R260; 49_undocumented.md R302) -/

/-- The cycles of an undocumented NOP by its mode and the page-crossed indication. -/
def nopCost (m : Mode) (crossed : Bool) : Nat :=
  match m with
  | .zeroPage => 3
  | .zeroPageX | .absolute => 4
  | .absoluteX => 4 + extra crossed
  | _ => 2

/-- Every undocumented NOP byte of a mode has that mode's cost in the opcode table. -/
theorem cost_nopUndoc {m : Mode} {op : Byte} (h : (nopUndocOpcodes m).contains op = true) (c : Bool) :
    OpcodeEntry.cost (entryOf op) c false = nopCost m c := by
  have hk : ∀ b ∈ nopUndocOpcodes m, ∀ c, OpcodeEntry.cost (entryOf b) c false = nopCost m c := by
    cases m <;> decide
  exact hk op (List.contains_iff_mem.mp h) c

/-- No mode of an undocumented NOP has a pointer. -/
theorem pointerAddr_nopUndoc {op : Byte} {o : Operand} (h : (nopUndocOpcodes o.mode).contains op = true) (s : State) :
    pointerAddr o s = none := by
  cases o with
  | indexedIndirect zp8 | indirectIndexed zp8 | indirect ptr16 => cases h
  | _ => rfl

/-- An undocumented NOP adds its cycles and changes nothing else. -/
theorem exec_nopUndoc {op : Byte} {o : Operand} (h : WellFormed (.nopUndoc op o)) (s : State) :
    exec (.nopUndoc op o) s = .next (afterInternal (nopCost o.mode (crosses o s)) s) := by
  have hop : (nopUndocOpcodes o.mode).contains op = true := (Bool.and_eq_true_iff.mp h).2
  rw [← cost_nopUndoc hop]
  exact perform_registerOnly (i := .nopUndoc op o) (if_pos hop) (pointerAddr_nopUndoc hop s) _

/-- The cycle of a page crossing by the two addresses: a page is an address without its low byte (40 R133, R136). -/
theorem add_extra_pageCrossed (n : Nat) (a b : Addr) :
    n + extra (pageCrossed a b) = if a.toNat / 256 = b.toNat / 256 then n else n + 1 := by
  rw [pageCrossed_eq]
  by_cases hpage : a.toNat / 256 = b.toNat / 256 <;> simp [extra, hpage]

/-- Settles O45: the cost of an undocumented NOP is that of its mode, and only AbsoluteX can cross a page. -/
theorem nopsOnlyTakeTime : Obligations.NopsOnlyTakeTime := by
  intro s
  refine ⟨rfl, exec_of_registerOnly (fun _ => rfl) rfl rfl rfl (by rfl), fun op o hwf => ?_⟩
  rw [exec_nopUndoc hwf]
  cases o with
  | absoluteX w =>
    have hcost : nopCost .absoluteX (crosses (.absoluteX w) s) = _ := add_extra_pageCrossed 4 w (indexed w s.x)
    exact congrArg (Host.Outcome.next <| afterInternal · s) hcost
  | _ => rfl

end Sys2Proof.Machine
end

section
/-! The family 48_load_store_incdec: loads, stores, and the increments and decrements of memory and of X and Y. -/

namespace Sys2Proof.Machine

/-! ## Loads (48_load_store_incdec.md R270 to R272) -/

/-- Settles O46: each load writes its register and `SetZN` of the byte in the state after its reads. -/
theorem loadsReadMemory : Obligations.LoadsReadMemory := by
  rintro o s m hr rfl
  refine ⟨setZN (operandByte o s) s.p, znOf_setZN .., sameFlags_setZN .., ?_, ?_, ?_⟩ <;>
    exact fun hwf => perform_readThen_afterRead hwf (by simp [Instr.mnemonic]) hr fun _ _ _ => rfl

/-! ## Stores (48_load_store_incdec.md R273 to R275) -/

/-- A storing instruction whose target lies in memory is one write in the state after the pointer's reads, and its
cycles. -/
theorem perform_storeByte_afterStore {i : Instr} {s : State} {ea : Addr} {value : State → Byte} {v : Byte}
    (hwf : WellFormed i) (hi : i.mnemonic ∈ [.sta, .stx, .sty, .sax, .ahx, .shy, .shx, .tas])
    (he : effectiveAddr i.operand s = some ea) (hs : storable i.operand s = true)
    (hv : value (logReads (pointerReads i.operand s) s) = v) :
    perform i (storeByte value) s = .next (afterStore i.operand ea v (memAfterWrite ea v s) s) := by
  obtain ⟨op, hop⟩ := opcodeOf_of_wf hwf
  rw [perform_storeByte hop he hs, hv, cost_store hop hi, logReads_eq]
  rfl

/-- STA, STX and STY, where their target lies in memory, store their register. -/
theorem exec_store {i : Instr} {v : Byte} {o : Operand} {s : State} {ea : Addr}
    (hi : (i, v) ∈ [(.sta o, s.a), (.stx o, s.x), (.sty o, s.y)]) (hwf : WellFormed i)
    (he : effectiveAddr o s = some ea) (hs : storable o s = true) :
    exec i s = .next (afterStore o ea v (memAfterWrite ea v s) s) := by
  simp only [List.mem_cons, Prod.mk.injEq, List.not_mem_nil, or_false] at hi
  rcases hi with ⟨rfl, rfl⟩ | ⟨rfl, rfl⟩ | ⟨rfl, rfl⟩ <;>
    exact perform_storeByte_afterStore hwf (by simp [Instr.mnemonic]) he hs (by rw [logReads_eq])

/-- Settles O47: a store is `exec_store`, and memory after it holds the one byte. -/
theorem storesWriteMemory : Obligations.StoresWriteMemory := fun _ _ ea _ v hi hwf he hs hmem =>
  ⟨_, exec_store hi hwf he hs, memoryAfter_one hmem ea v⟩

/-! ## Increments and decrements (48_load_store_incdec.md R280 to R285) -/

/-- INC and DEC, where their operand lies in memory, write the changed byte back and then `SetZN` of it. -/
theorem exec_incDec {i : Instr} {r : Byte} {o : Operand} {s : State} {ea : Addr}
    (hi : (i, r) ∈ [(.inc o, s.peek ea + 1), (.dec o, s.peek ea - 1)]) (hwf : WellFormed i)
    (he : effectiveAddr o s = some ea) (hs : storable o s = true) :
    exec i s = .next ((afterModify o ea r (memAfterWrite ea r s) s).setP (setZN r s.p)) := by
  simp only [List.mem_cons, Prod.mk.injEq, List.not_mem_nil, or_false] at hi
  rcases hi with ⟨rfl, rfl⟩ | ⟨rfl, rfl⟩ <;>
    exact perform_readModifyWrite_afterModify hwf (by simp [Instr.mnemonic]) he hs rfl fun _ _ _ => rfl

/-- Settles O48: one byte is stored, and the status is `setZN` of it. -/
theorem incDecMemory : Obligations.IncDecMemory := fun _ s ea _ r he hi hwf hs hmem =>
  ⟨_, setZN r s.p, exec_incDec hi hwf he hs, memoryAfter_one hmem ea r, znOf_setZN .., sameFlags_setZN ..⟩

/-- Settles O49: the handler of each writes the register and `SetZN` of it. -/
theorem incDecRegisters : Obligations.IncDecRegisters := by
  intro s
  refine ⟨rfl,
    ⟨setZN (s.x + 1) s.p, ?_, znOf_setZN .., sameFlags_setZN ..⟩,
    ⟨setZN (s.y + 1) s.p, ?_, znOf_setZN .., sameFlags_setZN ..⟩,
    ⟨setZN (s.x - 1) s.p, ?_, znOf_setZN .., sameFlags_setZN ..⟩,
    ⟨setZN (s.y - 1) s.p, ?_, znOf_setZN .., sameFlags_setZN ..⟩⟩ <;>
    exact exec_of_registerOnly (fun _ => rfl) rfl rfl rfl (by rfl)

end Sys2Proof.Machine
end

section
/-! The family 49_undocumented: what the undocumented-only opcodes do under `UNDOC_POLICY = fault`, and under
`execute`. -/

namespace Sys2Proof.Machine

/-! ## The policy (49_undocumented.md R300) -/

/-- Handlers that agree wherever the parameters are those of `s` run an instruction alike: the resolver keeps them. -/
theorem perform_congr {i : Instr} {handler handler' : Resolved → State → Result Bool} {s : State}
    (h : ∀ r u, u.params = s.params → handler r u = handler' r u) : perform i handler s = perform i handler' s := by
  have hparams : (resolve i.operand s).All fun u => u.params = s.params :=
    resolve_all (fun _ _ h => h) (fun _ _ h => h) i.operand rfl
  unfold perform
  split
  · rfl
  · cases hr : resolve i.operand s with
    | raised f u => rfl
    | done r u =>
      rw [hr] at hparams
      rw [Result.bind_done, Result.bind_done, h r u hparams]

theorem performUndoc_of_fault {i : Instr} {s : State} (hx : s.params.undocPolicy = .fault)
    (handler : Resolved → State → Result Bool) :
    performUndoc i handler s = perform i (fun _ u => unimplemented i u) s :=
  perform_congr fun _ _ hu => by rw [hu, hx]

theorem performUndoc_of_execute {i : Instr} {s : State} (hx : s.params.undocPolicy = .execute)
    (handler : Resolved → State → Result Bool) : performUndoc i handler s = perform i handler s :=
  perform_congr fun _ _ hu => by rw [hu, hx]

/-! ## The fault (49_undocumented.md R300, R301, R315) -/

/-- An instruction whose handler only raises has made the resolver's reads, and raises its own opcode byte. -/
theorem exec_of_unimplemented {i : Instr} {op : Byte} {s : State}
    (he : exec i s = perform i (fun _ u => unimplemented i u) s) (hop : opcodeOf i = some op)
    (hr : resolvable i.operand s = true) : exec i s = .next { s with
      run := .faulted (.unimplementedInstruction op)
      busLog := tracedReads (pointerReads i.operand s) s } := by
  rw [exec_of_raised he hop (resolve_resolvable hr) rfl, hop, logReads_eq]
  rfl

/-- All but KIL and XAA run by the policy. -/
theorem exec_eq_performUndoc {i : Instr} (hi : i.mnemonic ∈ [.slo, .rla, .sre, .rra, .sax, .lax, .dcp, .isc, .anc,
    .alr, .arr, .axs, .ahx, .shy, .shx, .tas, .las]) (s : State) :
    ∃ handler, exec i s = performUndoc i handler s := by
  cases i with
  | slo o | rla o | sre o | rra o | sax o | lax o | dcp o | isc o | ahx o => exact ⟨_, rfl⟩
  | anc opcode imm8 | alr imm8 | arr imm8 | axs imm8 => exact ⟨_, rfl⟩
  | shy addr16 | shx addr16 | tas addr16 | las addr16 => exact ⟨_, rfl⟩
  | _ => simp [Instr.mnemonic] at hi

/-- Settles O50: the handler of each is `unimplemented`, of KIL and XAA whatever the policy. -/
theorem undocumentedOpcodesFault : Obligations.UndocumentedOpcodesFault := by
  refine ⟨fun opcode s hwf => ?_, fun imm8 s => exec_of_unimplemented rfl rfl rfl, fun i opcode s hi hx hop hr => ?_⟩
  · exact exec_of_unimplemented rfl (if_pos (Bool.and_eq_true_iff.mp hwf).2) rfl
  · obtain ⟨handler, he⟩ := exec_eq_performUndoc hi s
    exact exec_of_unimplemented (he.trans (performUndoc_of_fault hx handler)) hop hr

/-! ## The three shapes of handler under `execute` -/

section

variable {i : Instr} {s : State}

theorem exec_undocRead {f : Byte → State → State} (hx : s.params.undocPolicy = .execute)
    (he : exec i s = performUndoc i (readThen i.operand f) s) (hwf : WellFormed i)
    (hi : i.mnemonic ∈ [.adc, .sbc, .and, .ora, .eor, .bit, .cmp, .cpx, .cpy, .lda, .ldx, .ldy, .lax, .las,
      .anc, .alr, .arr, .axs])
    (hr : readable i.operand s = true) (hf : ∀ m u n, (f m u).addCycles n = f m (u.addCycles n)) :
    exec i s = .next (f (operandByte i.operand s) (afterRead i.operand s)) := by
  rw [he, performUndoc_of_execute hx, perform_readThen_afterRead hwf hi hr hf]

theorem exec_undocModify {change : Byte → State → Byte} {after : Byte → State → State} {ea : Addr} {v : Byte}
    (hx : s.params.undocPolicy = .execute)
    (hexec : exec i s = performUndoc i (readModifyWrite i.operand change after) s) (hwf : WellFormed i)
    (hi : i.mnemonic ∈ [.asl, .lsr, .rol, .ror, .inc, .dec, .slo, .rla, .sre, .rra, .dcp, .isc])
    (he : effectiveAddr i.operand s = some ea) (hs : storable i.operand s = true)
    (hv : change (s.peek ea) (logReads (pointerReads i.operand s ++ [ea]) s) = v)
    (hafter : ∀ m u n, (after m u).addCycles n = after m (u.addCycles n)) :
    exec i s = .next (after (s.peek ea) (afterModify i.operand ea v (memAfterWrite ea v s) s)) := by
  rw [hexec, performUndoc_of_execute hx, perform_readModifyWrite_afterModify hwf hi he hs hv hafter]

end

/-! ## The read-modify-write mnemonics (49_undocumented.md R304 to R307, R310, R311) -/

theorem SameFlags.mono {mask mask' p q : Byte} (h : SameFlags mask p q) (hsub : mask &&& mask' = mask') :
    SameFlags mask' p q := by
  rw [SameFlags, ← hsub, ← BitVec.and_assoc, ← BitVec.and_assoc, h]

/-- Overflow of a sum by the signs: those of the operands agree, and that of the result is another. -/
theorem overflow_add_msb (a m r : Byte) :
    ((a ^^^ r) &&& (m ^^^ r)).getLsbD 7 = decide (a.msb = m.msb ∧ r.msb ≠ a.msb) := by
  simp only [BitVec.msb_eq_getLsbD_last, BitVec.getLsbD_and, BitVec.getLsbD_xor, Nat.add_one_sub_one]
  cases a.getLsbD 7 <;> cases m.getLsbD 7 <;> cases r.getLsbD 7 <;> rfl

/-- Overflow of a difference is that of the sum with the complement. -/
theorem overflow_sub_msb (a m r : Byte) :
    ((a ^^^ m) &&& (a ^^^ r)).getLsbD 7 = decide (a.msb = (~~~m).msb ∧ r.msb ≠ a.msb) := by
  simp only [BitVec.msb_eq_getLsbD_last, BitVec.getLsbD_and, BitVec.getLsbD_xor, BitVec.getLsbD_not,
    Nat.add_one_sub_one]
  cases a.getLsbD 7 <;> cases m.getLsbD 7 <;> cases r.getLsbD 7 <;> rfl

theorem flagV_adcP_msb (a m p : Byte) :
    flagV (adcP a m p) = decide (a.msb = m.msb ∧ (adcResult a m p).msb ≠ a.msb) := by
  rw [adcP, flagV_setZN, flagV_setV, overflow_add_msb]

theorem flagV_sbcP_msb (a m p : Byte) :
    flagV (sbcP a m p) = decide (a.msb = (~~~m).msb ∧ (sbcResult a m p).msb ≠ a.msb) := by
  rw [sbcP, flagV_setZN, flagV_setV, overflow_sub_msb]

/-- SBC as a sum: the complement of the operand and the carry are added. -/
theorem sbcResult_eq_ofNat (a m p : Byte) :
    sbcResult a m p = BitVec.ofNat 8 (a.toNat + (255 - m.toNat) + (flagC p).toNat) := by
  apply BitVec.eq_of_toNat_eq
  have hm := m.isLt
  rw [sbcResult, sbcDiff, carryNat, BitVec.toNat_ofInt, BitVec.toNat_ofNat]
  omega

/-- SBC borrows unless A is at least the operand and the borrow in. -/
theorem flagC_sbcP_nat (a m p : Byte) :
    flagC (sbcP a m p) = decide (m.toNat + (1 - (flagC p).toNat) ≤ a.toNat) := by
  have hc := (flagC p).toNat_le
  rw [flagC_sbcP, sbcDiff, carryNat, decide_eq_decide]
  omega

/-- One of the three that shift memory and combine A with the result. -/
structure CombinesBy (i : Instr) (o : Operand) (shift : Byte → Byte → Shifted) (combine : Byte → Byte → Byte) :
    Prop where
  operand : i.operand = o
  mnemonic : i.mnemonic ∈ [.slo, .rla, .sre]
  exec_eq (s : State) : exec i s = performUndoc i (shiftThenCombine o shift combine) s

/-- Each of the three shifts a byte `v` to the number R304 to R306 give, moves the bit they name into C, and combines
the number with A. -/
theorem exists_combinesBy {i : Instr} {r a' : Nat} {c : Bool} {o : Operand} {v a p : Byte}
    (h : (i, r, a', c) ∈ [
      (.slo o, v.toNat * 2 % 256, a.toNat ||| (v.toNat * 2 % 256), v.getLsbD 7),
      (.rla o, (v.toNat * 2 + (flagC p).toNat) % 256, a.toNat &&& ((v.toNat * 2 + (flagC p).toNat) % 256), v.getLsbD 7),
      (.sre o, v.toNat / 2, a.toNat ^^^ (v.toNat / 2), v.getLsbD 0)]) :
    ∃ shift combine, CombinesBy i o shift combine ∧ shift v p = ⟨BitVec.ofNat 8 r, c⟩ ∧
      combine a (BitVec.ofNat 8 r) = BitVec.ofNat 8 a' := by
  simp only [List.mem_cons, Prod.mk.injEq, List.not_mem_nil, or_false] at h
  rcases h with ⟨rfl, rfl, rfl, rfl⟩ | ⟨rfl, rfl, rfl, rfl⟩ | ⟨rfl, rfl, rfl, rfl⟩
  · exact ⟨aslShift, _, ⟨rfl, by simp [Instr.mnemonic], fun _ => rfl⟩, aslShift_eq v p, by simp [BitVec.ofNat_or]⟩
  · exact ⟨rolShift, _, ⟨rfl, by simp [Instr.mnemonic], fun _ => rfl⟩, rolShift_eq v p, by simp [BitVec.ofNat_and]⟩
  · exact ⟨lsrShift, _, ⟨rfl, by simp [Instr.mnemonic], fun _ => rfl⟩, lsrShift_eq v p, by simp [BitVec.ofNat_xor]⟩

/-- SLO, RLA and SRE of a byte of memory write it back, and then A and P. -/
theorem CombinesBy.exec_memory {i : Instr} {o : Operand} {shift : Byte → Byte → Shifted}
    {combine : Byte → Byte → Byte} (h : CombinesBy i o shift combine) {s : State} {ea : Addr} {r : Shifted}
    (hx : s.params.undocPolicy = .execute) (hwf : WellFormed i) (he : effectiveAddr o s = some ea)
    (hs : storable o s = true) (hr : shift (s.peek ea) s.p = r) : exec i s =
      .next (((afterModify o ea r.result (memAfterWrite ea r.result s) s).setA (combine s.a r.result)).setP
        (setZN (combine s.a r.result) (setC r.out s.p))) := by
  obtain rfl := h.operand
  subst hr
  have hi : i.mnemonic ∈ [.asl, .lsr, .rol, .ror, .inc, .dec, .slo, .rla, .sre, .rra, .dcp, .isc] :=
    List.mem_append_right ([.asl, .lsr, .rol, .ror, .inc, .dec] : List Mnemonic)
      (List.mem_append_left ([.rra, .dcp, .isc] : List Mnemonic) h.mnemonic)
  exact exec_undocModify hx (h.exec_eq s) hwf hi he hs (by rw [logReads_p]) fun _ _ _ => rfl

theorem exec_rra {o : Operand} {s : State} {ea : Addr} {r : Shifted} (hx : s.params.undocPolicy = .execute)
    (hwf : WellFormed (.rra o)) (he : effectiveAddr o s = some ea) (hs : storable o s = true)
    (hr : rorShift (s.peek ea) s.p = r) : exec (.rra o) s =
      .next (adcEffect r.result ((afterModify o ea r.result (memAfterWrite ea r.result s) s).setP (shiftP r s.p))) := by
  subst hr
  exact exec_undocModify hx rfl hwf (by simp [Instr.mnemonic]) he hs (by rw [logReads_p]) fun _ _ _ => rfl

theorem exec_dcp {o : Operand} {s : State} {ea : Addr} {r : Byte} (hx : s.params.undocPolicy = .execute)
    (hwf : WellFormed (.dcp o)) (he : effectiveAddr o s = some ea) (hs : storable o s = true)
    (hr : s.peek ea - 1 = r) : exec (.dcp o) s =
      .next ((afterModify o ea r (memAfterWrite ea r s) s).setP (compareP s.a r s.p)) := by
  subst hr
  exact exec_undocModify hx rfl hwf (by simp [Instr.mnemonic]) he hs rfl fun _ _ _ => rfl

theorem exec_isc {o : Operand} {s : State} {ea : Addr} {r : Byte} (hx : s.params.undocPolicy = .execute)
    (hwf : WellFormed (.isc o)) (he : effectiveAddr o s = some ea) (hs : storable o s = true)
    (hr : s.peek ea + 1 = r) : exec (.isc o) s =
      .next (sbcEffect r (afterModify o ea r (memAfterWrite ea r s) s)) := by
  subst hr
  exact exec_undocModify hx rfl hwf (by simp [Instr.mnemonic]) he hs rfl fun _ _ _ => rfl

theorem toNat_getLsbD_zero (v : Byte) : (v.getLsbD 0).toNat = v.toNat % 2 := by
  rw [BitVec.getLsbD, Nat.testBit_zero]
  rcases Nat.mod_two_eq_zero_or_one v.toNat with h | h <;> rw [h] <;> rfl

/-- The sum of RRA: the carry in is the bit that the rotate shifted out. -/
theorem adcSum_shiftP {a v : Byte} {r : Nat} (hr : r < 256) (p : Byte) :
    adcSum a (BitVec.ofNat 8 r) (shiftP ⟨BitVec.ofNat 8 r, v.getLsbD 0⟩ p) = a.toNat + r + v.toNat % 2 := by
  rw [adcSum, carryNat, flagC_shiftP, toNat_getLsbD_zero, BitVec.toNat_ofNat, Nat.mod_eq_of_lt hr]

/-- RRA by numbers: the rotated byte and the carry the rotate produced are added to A. -/
theorem exec_rra_nat {o : Operand} {s : State} {ea : Addr} {r sum : Nat} (hx : s.params.undocPolicy = .execute)
    (hwf : WellFormed (.rra o)) (he : effectiveAddr o s = some ea) (hs : storable o s = true)
    (hr : r = (s.peek ea).toNat / 2 + (flagC s.p).toNat * 128) (hsum : sum = s.a.toNat + r + (s.peek ea).toNat % 2) :
    ∃ p', exec (.rra o) s = .next { afterModify o ea (BitVec.ofNat 8 r) (memAfterWrite ea (BitVec.ofNat 8 r) s) s with
        a := BitVec.ofNat 8 sum, p := p' } ∧
      flagC p' = decide (sum > 255) ∧ ZNOf (BitVec.ofNat 8 sum) p' ∧ SameFlags 0x3C#8 s.p p' ∧
      flagV p' = decide (s.a.msb = (BitVec.ofNat 8 r).msb ∧ (BitVec.ofNat 8 sum).msb ≠ s.a.msb) := by
  have hlt : r < 256 := by
    have hbyte := (s.peek ea).isLt
    have hcarry := (flagC s.p).toNat_le
    omega
  have hshift : rorShift (s.peek ea) s.p = ⟨BitVec.ofNat 8 r, (s.peek ea).getLsbD 0⟩ := hr ▸ rorShift_eq ..
  have hadc : adcSum s.a (BitVec.ofNat 8 r) (shiftP ⟨BitVec.ofNat 8 r, (s.peek ea).getLsbD 0⟩ s.p) = sum :=
    (adcSum_shiftP hlt s.p).trans hsum.symm
  have hresult := congrArg (BitVec.ofNat 8) hadc
  refine ⟨adcP s.a (BitVec.ofNat 8 r) (shiftP ⟨BitVec.ofNat 8 r, (s.peek ea).getLsbD 0⟩ s.p), ?_, ?_, ?_, ?_, ?_⟩
  · rw [exec_rra hx hwf he hs hshift, ← hresult]
    rfl
  · rw [flagC_adcP, hadc]
  · rw [← hresult]
    exact znOf_setZN ..
  · exact ((sameFlags_setC_setZN ..).mono (by decide)).trans (sameFlags_setC_setV_setZN ..)
  · rw [flagV_adcP_msb, adcResult, hadc]

/-- DCP by numbers: the decremented byte is compared with A. -/
theorem exec_dcp_nat {o : Operand} {s : State} {ea : Addr} {r : Nat} (hx : s.params.undocPolicy = .execute)
    (hwf : WellFormed (.dcp o)) (he : effectiveAddr o s = some ea) (hs : storable o s = true)
    (hr : r = ((s.peek ea).toNat + 255) % 256) :
    ∃ p', exec (.dcp o) s = .next { afterModify o ea (BitVec.ofNat 8 r) (memAfterWrite ea (BitVec.ofNat 8 r) s) s with
        p := p' } ∧
      flagC p' = decide (r ≤ s.a.toNat) ∧ ZNOf (BitVec.ofNat 8 (s.a.toNat + 256 - r)) p' ∧ SameFlags 0x3C#8 s.p p' ∧
      flagV p' = flagV s.p := by
  have hdec : s.peek ea - 1 = BitVec.ofNat 8 r := by bv_omega
  have hdiff : s.a - BitVec.ofNat 8 r = BitVec.ofNat 8 (s.a.toNat + 256 - r) := by bv_omega
  have hnat : (BitVec.ofNat 8 r).toNat = r := by
    rw [BitVec.toNat_ofNat]
    omega
  refine ⟨compareP s.a (BitVec.ofNat 8 r) s.p, exec_dcp hx hwf he hs hdec, ?_, ?_,
    (sameFlags_compareP ..).mono (by decide), by simp [compareP]⟩
  · rw [flagC_compareP, hnat]
  · rw [← hdiff]
    exact znOf_setZN ..

/-- ISC by numbers: the incremented byte and the borrow are subtracted from A. -/
theorem exec_isc_nat {o : Operand} {s : State} {ea : Addr} {r sum : Nat} (hx : s.params.undocPolicy = .execute)
    (hwf : WellFormed (.isc o)) (he : effectiveAddr o s = some ea) (hs : storable o s = true)
    (hr : r = ((s.peek ea).toNat + 1) % 256) (hsum : sum = s.a.toNat + (255 - r) + (flagC s.p).toNat) :
    ∃ p', exec (.isc o) s = .next { afterModify o ea (BitVec.ofNat 8 r) (memAfterWrite ea (BitVec.ofNat 8 r) s) s with
        a := BitVec.ofNat 8 sum, p := p' } ∧
      flagC p' = decide (r + (1 - (flagC s.p).toNat) ≤ s.a.toNat) ∧ ZNOf (BitVec.ofNat 8 sum) p' ∧
      SameFlags 0x3C#8 s.p p' ∧
      flagV p' = decide (s.a.msb = (~~~BitVec.ofNat 8 r).msb ∧ (BitVec.ofNat 8 sum).msb ≠ s.a.msb) := by
  have hinc : s.peek ea + 1 = BitVec.ofNat 8 r := by bv_omega
  have hnat : (BitVec.ofNat 8 r).toNat = r := by
    rw [BitVec.toNat_ofNat]
    omega
  have hresult : sbcResult s.a (BitVec.ofNat 8 r) s.p = BitVec.ofNat 8 sum := by
    rw [sbcResult_eq_ofNat, hnat, hsum]
  refine ⟨sbcP s.a (BitVec.ofNat 8 r) s.p, ?_, ?_, ?_, sameFlags_setC_setV_setZN .., ?_⟩
  · rw [exec_isc hx hwf he hs hinc, ← hresult]
    rfl
  · rw [flagC_sbcP_nat, hnat]
  · rw [← hresult]
    exact znOf_setZN ..
  · rw [flagV_sbcP_msb, hresult]

/-- Settles O52: SLO, RLA and SRE by `CombinesBy.exec_memory`, and RRA, DCP and ISC by what they do in numbers. -/
theorem undocumentedReadModifyWrite : Obligations.UndocumentedReadModifyWrite := by
  rintro o s ea _ _ r a' _ i carry hx he rfl rfl rfl hi hwf hs hmem
  rcases (List.mem_append (s := [_, _, _]) (t := [_, _, _])).mp hi with hi | hi
  · obtain ⟨shift, combine, hcombine, hr, ha⟩ := exists_combinesBy hi
    obtain ⟨hdcp, hsum⟩ : i.mnemonic ≠ .dcp ∧ i.mnemonic ∉ [.rra, .isc] :=
      (show ∀ m ∈ [.slo, .rla, .sre], m ≠ Mnemonic.dcp ∧ m ∉ [.rra, .isc] by decide) _ hcombine.mnemonic
    refine ⟨_, setZN (BitVec.ofNat 8 a') (setC carry s.p), ?_, memoryAfter_one hmem _ _, by simp,
      fun _ => znOf_setZN .., fun h => absurd h hdcp, (sameFlags_setC_setZN ..).mono (by decide),
      fun h => absurd h hsum, fun _ => by simp⟩
    rw [hcombine.exec_memory hx hwf he hs hr, ha]
    rfl
  · simp only [List.mem_cons, Prod.mk.injEq, List.not_mem_nil, or_false] at hi
    rcases hi with ⟨rfl, rfl, rfl, rfl⟩ | ⟨rfl, rfl, rfl, rfl⟩ | ⟨rfl, rfl, rfl, rfl⟩
    · obtain ⟨p', hexec, hC, hZN, hsame, hV⟩ := exec_rra_nat hx hwf he hs rfl rfl
      exact ⟨_, p', hexec, memoryAfter_one hmem _ _, hC, fun _ => hZN, nofun, hsame,
        fun _ m8 hm => (hm.trans (if_pos rfl)) ▸ hV, fun h => absurd (by simp [Instr.mnemonic]) h⟩
    · obtain ⟨p', hexec, hC, hZN, hsame, hV⟩ := exec_dcp_nat hx hwf he hs rfl
      rw [BitVec.ofNat_toNat, BitVec.setWidth_eq]
      exact ⟨_, p', hexec, memoryAfter_one hmem _ _, hC, absurd rfl, fun _ => hZN, hsame,
        fun h => absurd h (by simp [Instr.mnemonic]), fun _ => hV⟩
    · obtain ⟨p', hexec, hC, hZN, hsame, hV⟩ := exec_isc_nat hx hwf he hs rfl rfl
      exact ⟨_, p', hexec, memoryAfter_one hmem _ _, hC, fun _ => hZN, nofun, hsame,
        fun _ m8 hm => (hm.trans (if_neg nofun)) ▸ hV, fun h => absurd (by simp [Instr.mnemonic]) h⟩

/-! ## SAX and LAX (49_undocumented.md R308, R309) -/

/-- Settles O53: SAX is a store of A and X, and a stable LAX a load of both. -/
theorem undocumentedLoadAndStore : Obligations.UndocumentedLoadAndStore := by
  intro o s ea hx he
  refine ⟨fun hwf hs hmem => ⟨_, ?_, memoryAfter_one hmem ea (s.a &&& s.x)⟩, fun hwf himm hr =>
    ⟨setZN (s.peek ea) s.p, ?_, znOf_setZN .., sameFlags_setZN ..⟩⟩
  · exact (performUndoc_of_execute hx _).trans
      (perform_storeByte_afterStore hwf (by simp [Instr.mnemonic]) he hs (by rw [logReads_eq]))
  · have heffect : laxEffect o = loadAX := by
      cases o with
      | immediate imm8 => exact absurd rfl himm
      | _ => rfl
    have hexec : exec (.lax o) s = .next (loadAX (operandByte o s) (afterRead o s)) :=
      exec_undocRead hx (by rw [← heffect]; rfl) hwf (by simp [Instr.mnemonic]) hr fun _ _ _ => rfl
    rw [hexec, operandByte_of_ea himm he]
    rfl

/-! ## The Immediate mnemonics (49_undocumented.md R312, R313, R314, R316) -/

/-- Settles O54: the operand is in the instruction, so each is its effect and two cycles. -/
theorem undocumentedImmediates : Obligations.UndocumentedImmediates := by
  rintro m s v hx rfl
  refine ⟨fun opcode hwf => ⟨setC ((s.a &&& m).getLsbD 7) (setZN (s.a &&& m) s.p), ?_, ?_, ?_, ?_⟩,
    ⟨shiftP (lsrShift (s.a &&& m) s.p) s.p, ?_, flagC_shiftP .., znOf_setZN .., sameFlags_setC_setZN ..⟩, ?_,
    ⟨compareP (s.a &&& s.x) m s.p, ?_, flagC_compareP .., znOf_setZN .., sameFlags_compareP ..⟩⟩
  · exact exec_undocRead (i := .anc opcode m) hx rfl hwf (by simp [Instr.mnemonic]) rfl fun _ _ _ => rfl
  · rw [flagC_setC, BitVec.msb_eq_getLsbD_last]
  · exact ⟨(flagZ_setC ..).trans (znOf_setZN ..).1, (flagN_setC ..).trans (znOf_setZN ..).2⟩
  · exact ((sameFlags_setZN ..).mono (by decide)).trans (sameFlags_writeMask (by decide) _ _)
  · exact exec_undocRead (i := .alr m) hx rfl rfl (by simp [Instr.mnemonic]) rfl fun _ _ _ => rfl
  · rintro r hr
    obtain rfl : r = (rorShift (s.a &&& m) s.p).result := hr.trans (congrArg Shifted.result (rorShift_eq ..)).symm
    refine ⟨arrP _ s.p, ?_, by simp [arrP], by simp [arrP], znOf_setZN .., sameFlags_setC_setV_setZN ..⟩
    exact exec_undocRead (i := .arr m) hx rfl rfl (by simp [Instr.mnemonic]) rfl fun _ _ _ => rfl
  · exact exec_undocRead (i := .axs m) hx rfl rfl (by simp [Instr.mnemonic]) rfl fun _ _ _ => rfl

/-! ## The unstable mnemonics (49_undocumented.md R309, R317 to R321; 93_implementation_defined.md I2) -/

/-- A store at an address in memory completes, with its byte where memory is RAM. -/
theorem storeByte_memory {value : State → Byte} {r : Resolved} {ea : Addr} {u : State} (he : r.ea = some ea)
    (hm : u.isMemory ea = true) : storeByte value r u =
      .done false ((u.setMem (memAfterWrite ea (value u) u)).log ⟨.write, ea, value u⟩) := by
  rw [storeByte, writeOperand_of_ea he, busWrite_memory hm, Result.bind_done]

/-- A store of a free value at an address in memory. -/
theorem storeUnstable_memory {r : Resolved} {ea : Addr} {u : State} (he : r.ea = some ea) (hm : u.isMemory ea = true) :
    storeUnstable r u = .done false (((skipUnstable u).setMem (memAfterWrite ea (nextUnstable u) (skipUnstable u))).log
      ⟨.write, ea, nextUnstable u⟩) :=
  storeByte_memory he (u := skipUnstable u) hm

section

variable {s : State} (hall : ∀ a, s.isMemory a = true)
include hall

theorem all_isMemory (as : List Addr) : as.all s.isMemory = true := List.all_eq_true.mpr fun a _ => hall a

theorem readable_of_all_memory (o : Operand) : readable o s = true :=
  Bool.and_eq_true_iff.mpr ⟨all_isMemory hall _, all_isMemory hall _⟩

/-- A store of free value number `n`, by a handler that has set S and drawn the values before it. -/
theorem exec_storeUnstable {i : Instr} {handler : Resolved → State → Result Bool} {r : Resolved} {ea : Addr} {sp : Byte}
    {n : Nat} (hx : s.params.undocPolicy = .execute) (he : exec i s = performUndoc i handler s) (hwf : WellFormed i)
    (hi : i.mnemonic ∈ [.sta, .stx, .sty, .sax, .ahx, .shy, .shx, .tas]) (hea : r.ea = some ea)
    (hh : handler (resolvedView i.operand s) (logReads (pointerReads i.operand s) s) =
      storeUnstable r (((logReads (pointerReads i.operand s) s).setSp sp).setFreeIndex n)) :
    exec i s = .next { afterStore i.operand ea (Config.unstableValue n)
      (memAfterWrite ea (Config.unstableValue n) s) s with sp := sp, freeIndex := n + 1 } := by
  obtain ⟨op, hop⟩ := opcodeOf_of_wf hwf
  rw [he, performUndoc_of_execute hx, perform_resolvable hop (all_isMemory hall _), hh, logReads_eq,
    storeUnstable_memory hea (by exact hall ea), Result.bind_done, Result.toOutcome_done, cost_store hop hi]
  rfl

end

/-- AHX's target: the effective address but for a free high byte, and that only on a page crossing. -/
theorem ahxTarget_ea {r : Resolved} {ea : Addr} (h : r.ea = some ea) (u : State) :
    ∃ ea', (ahxTarget r u).ea = some ea' ∧ loByte ea' = loByte ea ∧ (r.crossed = false → ea' = ea) := by
  unfold ahxTarget
  rw [h]
  cases hc : r.crossed with
  | false => exact ⟨ea, h, rfl, fun _ => rfl⟩
  | true => exact ⟨word16 (nextUnstable u) (loByte ea), rfl, loByte_word16 .., nofun⟩

/-- Both forms of AHX have an effective address. -/
theorem effectiveAddr_ahx {o : Operand} (hwf : WellFormed (.ahx o)) (s : State) :
    ∃ ea, effectiveAddr o s = some ea := by
  cases o with
  | indirectIndexed zp8 | absoluteY addr16 => exact ⟨_, rfl⟩
  | _ => cases hwf

/-- Settles O55: each store is `exec_storeUnstable`, and LAS and immediate LAX load a free value. -/
theorem unstableOpcodesRun : Obligations.UnstableOpcodesRun := by
  intro s hx hmem hall
  refine ⟨fun o hwf => ?_, fun w ea o i sp' hi => ?_, fun w => ?_, fun imm8 => ?_⟩
  · obtain ⟨ea, he⟩ := effectiveAddr_ahx hwf s
    obtain ⟨ea', hea', hlo, hcross⟩ := ahxTarget_ea he s
    refine ⟨ea, ea', _, _, _, he, hlo, hcross,
      exec_storeUnstable (i := .ahx o) (n := s.freeIndex + 1) (sp := s.sp) hall hx rfl hwf (by simp [Instr.mnemonic])
        hea' ?_, memoryAfter_one hmem ea' _⟩
    rw [logReads_eq]
    rfl
  · simp only [List.mem_cons, Prod.mk.injEq, List.not_mem_nil, or_false] at hi
    rcases hi with ⟨rfl, rfl, rfl, rfl⟩ | ⟨rfl, rfl, rfl, rfl⟩ | ⟨rfl, rfl, rfl, rfl⟩ <;>
      exact ⟨_, _, _, exec_storeUnstable hall hx rfl rfl (by simp [Instr.mnemonic]) rfl rfl, memoryAfter_one hmem _ _⟩
  · exact ⟨nextUnstable s, setZN (nextUnstable s) s.p, s.freeIndex + 1,
      exec_undocRead (i := .las w) hx rfl rfl (by simp [Instr.mnemonic]) (readable_of_all_memory hall _)
        fun _ _ _ => rfl, znOf_setZN .., sameFlags_setZN ..⟩
  · exact ⟨nextUnstable s, setZN (nextUnstable s) s.p, s.freeIndex + 1,
      exec_undocRead (i := .lax (.immediate imm8)) hx rfl rfl (by simp [Instr.mnemonic])
        (readable_of_all_memory hall _) fun _ _ _ => rfl, znOf_setZN .., sameFlags_setZN ..⟩

end Sys2Proof.Machine
end

section
/-! The family 60_exceptions: arbitration at a boundary, the interrupt entries, and who raises which fault. -/

namespace Sys2Proof.Machine

/-! ## Arbitration (60_exceptions.md R351) -/

theorem arbitrate_of_nmi {s : State} (hrun : s.run = .running) (hnmi : s.nmiPending = true) :
    arbitrate s = .interrupt .nmi := by
  simp only [arbitrate, hrun, hnmi, if_true]

theorem arbitrate_of_irq {s : State} (hrun : s.run = .running) (hnmi : s.nmiPending = false)
    (hirq : s.irqLine = true) (hi : flagI s.p = false) : arbitrate s = .interrupt .irq := by
  simp [arbitrate, hrun, hnmi, hirq, hi]

theorem step_of_interrupt {s : State} {kind : InterruptKind} (h : arbitrate s = .interrupt kind) :
    step s = interruptEntry kind s := by
  rw [step, advance, h]

/-- Settles O9: the four cases of arbitration. -/
theorem advanceArbitrates : Obligations.AdvanceArbitrates := fun _ =>
  ⟨fun _ => step_of_faulted, fun hrun hnmi => step_of_interrupt (arbitrate_of_nmi hrun hnmi),
    fun hrun hnmi hirq hi => step_of_interrupt (arbitrate_of_irq hrun hnmi hirq hi),
    fun hrun hnmi hirq => step_of_instruction (arbitrate_of_no_interrupt hrun hnmi hirq)⟩

/-! ## Which faults a computation can record (60_exceptions.md R341 to R346) -/

/-- A fault recorded in a state, if there is one, is of the kind `F`. -/
def FaultedOnlyBy (F : Fault → Prop) (u : State) : Prop := ∀ f, u.run = .faulted f → F f

theorem faultedOnlyBy_of_running {F : Fault → Prop} {u : State} (h : u.run = .running) : FaultedOnlyBy F u := by
  intro f hf
  rw [h] at hf
  cases hf

/-- A raise records its own fault. -/
theorem faultedOnlyBy_setRun {F : Fault → Prop} {f : Fault} (hf : F f) (u : State) :
    FaultedOnlyBy F (u.setRun (.faulted f)) := by
  intro g hg
  cases hg
  exact hf

section

variable {F : Fault → Prop} {u : State}

/-! Every access raises `UnmappedAddress` alone, so where `F` allows that fault no computation made of accesses records
one that `F` does not allow. -/

variable (hF : ∀ a, F (.unmappedAddress a))
include hF

theorem busRead_faultedOnlyBy (a : Addr) (hu : FaultedOnlyBy F u) : (busRead a u).All (FaultedOnlyBy F) := by
  rcases busRead_cases a u with ⟨v, e⟩ | e <;> rw [e]
  · exact hu
  · exact faultedOnlyBy_setRun (hF a) u

theorem busWrite_faultedOnlyBy (a : Addr) (v : Byte) (hu : FaultedOnlyBy F u) :
    (busWrite a v u).All (FaultedOnlyBy F) := by
  rcases busWrite_cases a v u with ⟨-, e⟩ | ⟨-, e⟩ | ⟨-, e⟩ <;> rw [e]
  · exact hu
  · exact hu
  · exact faultedOnlyBy_setRun (hF a) u

theorem memRead16_faultedOnlyBy (a : Addr) (hu : FaultedOnlyBy F u) : (memRead16 a u).All (FaultedOnlyBy F) :=
  (busRead_faultedOnlyBy hF a hu).bind fun _ _ h => (busRead_faultedOnlyBy hF _ h).bind fun _ _ h => h

theorem memReadWrap_faultedOnlyBy (a : Addr) (hu : FaultedOnlyBy F u) : (memReadWrap a u).All (FaultedOnlyBy F) :=
  (busRead_faultedOnlyBy hF a hu).bind fun _ _ h => (busRead_faultedOnlyBy hF _ h).bind fun _ _ h => h

theorem push_faultedOnlyBy (v : Byte) (hu : FaultedOnlyBy F u) : (push v u).All (FaultedOnlyBy F) :=
  (busWrite_faultedOnlyBy hF _ v hu).bind fun _ _ h => h

theorem push16_faultedOnlyBy (w : Addr) (hu : FaultedOnlyBy F u) : (push16 w u).All (FaultedOnlyBy F) :=
  (push_faultedOnlyBy hF _ hu).bind fun _ _ h => push_faultedOnlyBy hF _ h

theorem pull_faultedOnlyBy (hu : FaultedOnlyBy F u) : (pull u).All (FaultedOnlyBy F) :=
  busRead_faultedOnlyBy hF _ (u := u.setSp (u.sp + 1)) hu

theorem pull16_faultedOnlyBy (hu : FaultedOnlyBy F u) : (pull16 u).All (FaultedOnlyBy F) :=
  (pull_faultedOnlyBy hF hu).bind fun _ _ h => (pull_faultedOnlyBy hF h).bind fun _ _ h => h

theorem enterException_faultedOnlyBy (brk : Bool) (vector : Addr) (hu : FaultedOnlyBy F u) :
    (enterException brk vector u).All (FaultedOnlyBy F) :=
  (push16_faultedOnlyBy hF _ hu).bind fun _ _ h => (push_faultedOnlyBy hF _ h).bind fun _ _ h =>
    (memRead16_faultedOnlyBy hF vector (beforeVector_all (fun _ h => h) brk h)).bind fun _ _ h => h

theorem returnFromException_faultedOnlyBy (hu : FaultedOnlyBy F u) :
    (returnFromException u).All (FaultedOnlyBy F) :=
  (pull_faultedOnlyBy hF hu).bind fun b v h =>
    (pull16_faultedOnlyBy hF (u := v.setP (pulledP b)) h).bind fun _ _ h => h

theorem resolve_faultedOnlyBy (o : Operand) (hu : FaultedOnlyBy F u) : (resolve o u).All (FaultedOnlyBy F) := by
  cases o with
  | indexedIndirect zp8 | indirectIndexed zp8 | indirect ptr16 =>
    exact (memReadWrap_faultedOnlyBy hF _ hu).bind fun _ _ h => h
  | _ => exact hu

theorem readOperand_faultedOnlyBy (o : Operand) (r : Resolved) (hu : FaultedOnlyBy F u) :
    (readOperand o r u).All (FaultedOnlyBy F) := by
  unfold readOperand
  split
  · exact hu
  · exact busRead_faultedOnlyBy hF _ hu
  · exact hu

theorem writeOperand_faultedOnlyBy (r : Resolved) (v : Byte) (hu : FaultedOnlyBy F u) :
    (writeOperand r v u).All (FaultedOnlyBy F) := by
  unfold writeOperand
  split
  · exact busWrite_faultedOnlyBy hF _ v hu
  · exact hu

end

/-- A handler from whose states the faults recorded are of the kind `F`, if those before it are. -/
def RaisesOnly (F : Fault → Prop) (handler : Resolved → State → Result Bool) : Prop :=
  ∀ r u, FaultedOnlyBy F u → (handler r u).All (FaultedOnlyBy F)

/-- An effect on registers and flags leaves the run state. -/
theorem KeepsClock.faultedOnlyBy {F : Fault → Prop} {f : State → State} (hf : KeepsClock f) {u : State}
    (hu : FaultedOnlyBy F u) : FaultedOnlyBy F (f u) := by
  intro g hg
  rw [(hf u).1] at hg
  exact hu g hg

theorem registerOnly_raisesOnly {F : Fault → Prop} {f : State → State} (hf : KeepsClock f) :
    RaisesOnly F (registerOnly f) := fun _ _ hu => hf.faultedOnlyBy hu

theorem branchIf_raisesOnly {F : Fault → Prop} (cond : Byte → Bool) : RaisesOnly F (branchIf cond) :=
  fun r _ hu => branchIf_all (fun _ _ h => h) cond r hu

section

variable {F : Fault → Prop} (hF : ∀ a, F (.unmappedAddress a))
include hF

theorem readThen_raisesOnly (o : Operand) {f : Byte → State → State} (hf : ∀ m, KeepsClock (f m)) :
    RaisesOnly F (readThen o f) :=
  fun r _ hu => (readOperand_faultedOnlyBy hF o r hu).bind fun m _ h => (hf m).faultedOnlyBy h

theorem storeByte_raisesOnly (value : State → Byte) : RaisesOnly F (storeByte value) :=
  fun r _ hu => (writeOperand_faultedOnlyBy hF r _ hu).bind fun _ _ h => h

theorem storeUnstable_raisesOnly : RaisesOnly F storeUnstable := fun r u hu =>
  storeByte_raisesOnly hF _ r (skipUnstable u) hu

theorem readModifyWrite_raisesOnly (o : Operand) (change : Byte → State → Byte) {after : Byte → State → State}
    (hafter : ∀ v, KeepsClock (after v)) : RaisesOnly F (readModifyWrite o change after) :=
  fun r _ hu => (readOperand_faultedOnlyBy hF o r hu).bind fun v _ h =>
    (writeOperand_faultedOnlyBy hF r _ h).bind fun _ _ h => (hafter v).faultedOnlyBy h

/-- What the resolver and the handler record, the instruction records. -/
theorem perform_faultedOnlyBy {i : Instr} {handler : Resolved → State → Result Bool} (hh : RaisesOnly F handler)
    {s t : State} (hs : FaultedOnlyBy F s) (ht : perform i handler s = .next t) : FaultedOnlyBy F t := by
  unfold perform at ht
  split at ht
  · cases ht
  · refine Result.All.of_next (Result.All.bind (resolve_faultedOnlyBy hF _ hs) fun r u hu =>
      Result.All.bind (hh r u hu) fun _ _ hw => ?_) ht
    exact hw

end

/-! ## Only the undocumented-only opcodes raise `UnimplementedInstruction` (60_exceptions.md R344) -/

/-- The mnemonics of the opcodes that raise it (30_encoding.md R112). -/
def undocumentedOnly : List Mnemonic :=
  [.kil, .slo, .rla, .sre, .rra, .sax, .lax, .dcp, .isc, .anc, .alr, .arr, .xaa, .axs, .ahx, .shy, .shx, .tas, .las]

/-- The faults an instruction may raise: `UnmappedAddress`, and `UnimplementedInstruction` with its own opcode byte. -/
inductive MayRaise (i : Instr) : Fault → Prop where
  | unmapped (a : Addr) : MayRaise i (.unmappedAddress a)
  | unimplemented (h : i.mnemonic ∈ undocumentedOnly) :
      MayRaise i (.unimplementedInstruction ((opcodeOf i).getD 0))

/-- Every meaning is `perform` around a handler that raises what its instruction may raise. -/
def PerformsRaising (i : Instr) (s : State) : Prop :=
  ∃ handler, RaisesOnly (MayRaise i) handler ∧ exec i s = perform i handler s

theorem unimplemented_raisesOnly {i : Instr} (hi : i.mnemonic ∈ undocumentedOnly) :
    RaisesOnly (MayRaise i) fun _ u => unimplemented i u := fun _ u _ => faultedOnlyBy_setRun (.unimplemented hi) u

theorem performsRaising {i : Instr} {handler : Resolved → State → Result Bool} {s : State}
    (he : exec i s = perform i handler s) (h : RaisesOnly (MayRaise i) handler) : PerformsRaising i s :=
  ⟨handler, h, he⟩

theorem performsRaising_undoc {i : Instr} {handler : Resolved → State → Result Bool} {s : State}
    (hi : i.mnemonic ∈ undocumentedOnly) (he : exec i s = performUndoc i handler s)
    (h : RaisesOnly (MayRaise i) handler) : PerformsRaising i s := by
  refine ⟨_, fun r u hu => ?_, he⟩
  split
  · exact unimplemented_raisesOnly hi r u hu
  · exact h r u hu

theorem exec_performsRaising (i : Instr) (s : State) : PerformsRaising i s := by
  cases i with
  | adc o | sbc o | and o | ora o | eor o | bit o | cmp o | cpx o | cpy o | lda o | ldx o | ldy o =>
    exact performsRaising rfl (readThen_raisesOnly .unmapped _ fun _ _ => ⟨rfl, rfl⟩)
  | sbcUndoc imm8 =>
    refine performsRaising (by unfold exec; rfl) ?_
    exact readThen_raisesOnly .unmapped _ fun _ _ => ⟨rfl, rfl⟩
  | asl o | lsr o | rol o | ror o | inc o | dec o =>
    exact performsRaising rfl (readModifyWrite_raisesOnly .unmapped _ _ fun _ _ => ⟨rfl, rfl⟩)
  | bcc rel8 | bcs rel8 | beq rel8 | bne rel8 | bmi rel8 | bpl rel8 | bvc rel8 | bvs rel8 =>
    exact performsRaising rfl (branchIf_raisesOnly _)
  | tax | txa | tay | tya | tsx | txs | clc | sec | cli | sei | cld | sed | clv | nop | inx | iny | dex | dey
  | nopUndoc opcode o =>
    refine performsRaising (by unfold exec; rfl) ?_
    exact registerOnly_raisesOnly fun _ => ⟨rfl, rfl⟩
  | sta o | stx o | sty o => exact performsRaising rfl (storeByte_raisesOnly .unmapped _)
  | pha | php =>
    exact performsRaising rfl fun _ _ hu => (push_faultedOnlyBy .unmapped _ hu).bind fun _ _ h => h
  | pla | plp => exact performsRaising rfl fun _ _ hu => (pull_faultedOnlyBy .unmapped hu).bind fun _ _ h => h
  | jsr addr16 =>
    exact performsRaising rfl fun r _ hu => (push16_faultedOnlyBy .unmapped _ hu).bind fun _ _ h =>
      (jumpTo_keepsClock r).faultedOnlyBy h
  | rts => exact performsRaising rfl fun _ _ hu => (pull16_faultedOnlyBy .unmapped hu).bind fun _ _ h => h
  | rti =>
    exact performsRaising rfl fun _ _ hu => (returnFromException_faultedOnlyBy .unmapped hu).bind fun _ _ h => h
  | jmp o => exact performsRaising rfl fun r _ hu => (jumpTo_keepsClock r).faultedOnlyBy hu
  | brk =>
    exact performsRaising rfl fun _ u hu =>
      (enterException_faultedOnlyBy .unmapped true _ (u := u.setPc (u.pc + brkPadding u)) hu).bind fun _ _ h => h
  | kil opcode | xaa imm8 =>
    exact performsRaising rfl (unimplemented_raisesOnly (by simp [Instr.mnemonic, undocumentedOnly]))
  | slo o | rla o | sre o | rra o | dcp o | isc o =>
    refine performsRaising_undoc (by simp [Instr.mnemonic, undocumentedOnly]) rfl ?_
    exact readModifyWrite_raisesOnly .unmapped _ _ fun _ _ => ⟨rfl, rfl⟩
  | lax o =>
    refine performsRaising_undoc (by simp [Instr.mnemonic, undocumentedOnly]) rfl ?_
    exact readThen_raisesOnly .unmapped _ (laxEffect_keepsClock o)
  | anc opcode imm8 | alr imm8 | arr imm8 | axs imm8 | las addr16 =>
    refine performsRaising_undoc (by simp [Instr.mnemonic, undocumentedOnly]) rfl ?_
    exact readThen_raisesOnly .unmapped _ fun _ _ => ⟨rfl, rfl⟩
  | sax o =>
    exact performsRaising_undoc (by simp [Instr.mnemonic, undocumentedOnly]) rfl (storeByte_raisesOnly .unmapped _)
  | shy addr16 | shx addr16 =>
    exact performsRaising_undoc (by simp [Instr.mnemonic, undocumentedOnly]) rfl (storeUnstable_raisesOnly .unmapped)
  | ahx o =>
    exact performsRaising_undoc (by simp [Instr.mnemonic, undocumentedOnly]) rfl fun _ u hu =>
      storeUnstable_raisesOnly .unmapped _ (skipUnstable u) hu
  | tas addr16 =>
    exact performsRaising_undoc (by simp [Instr.mnemonic, undocumentedOnly]) rfl fun _ u hu =>
      storeUnstable_raisesOnly .unmapped _ (u.setSp _) hu

/-- Settles O51: the fault recorded is one that the instruction may raise, and its opcode byte selects its own row. -/
theorem onlyUndocumentedOpcodesAreUnimplemented : Obligations.OnlyUndocumentedOpcodesAreUnimplemented := by
  intro i opcode s t hrun ht hfault
  obtain ⟨op, hop⟩ := opcodeOf_of_next ht
  obtain ⟨handler, hraises, hexec⟩ := exec_performsRaising i s
  have hmay : MayRaise i (.unimplementedInstruction opcode) :=
    perform_faultedOnlyBy .unmapped hraises (faultedOnlyBy_of_running hrun) (hexec ▸ ht) _ hfault
  obtain ⟨hmnemonic, -, -⟩ := Laws.tableRow i op hop
  generalize hf : Fault.unimplementedInstruction opcode = f at hmay
  cases hmay with
  | unmapped a => cases hf
  | unimplemented hi =>
    obtain rfl : opcode = op := by simpa [hop] using hf
    exact ⟨hop, hmnemonic ▸ hi⟩

/-! ## A vector read that nothing claims (60_exceptions.md R342) -/

theorem memRead16_unmapped {a : Addr} {s : State} (h : backingOf s.busMap a = none) :
    memRead16 a s = .raised (.unmappedAddress a) (s.setRun (.faulted (.unmappedAddress a))) := by
  rw [memRead16, busRead_unmapped h, Result.bind_raised]

theorem memRead16_second_unmapped {a : Addr} {s : State} (h : s.isMemory a = true)
    (h' : backingOf s.busMap (a + 1) = none) :
    memRead16 a s = .raised (.unmappedAddress (a + 1))
      ((s.log ⟨.read, a, s.peek a⟩).setRun (.faulted (.unmappedAddress (a + 1)))) := by
  rw [memRead16, busRead_memory h, Result.bind_done, busRead_unmapped (by exact h'), Result.bind_raised]

/-! ## The interrupt entries (60_exceptions.md R352, R353) -/

theorem interruptEntry_of_running {s : State} (hrun : s.run = .running) (kind : InterruptKind) :
    interruptEntry kind s = ((enterException false kind.vector (kind.acknowledge s)).bind fun _ u =>
      .done () (u.addCycles u.params.intCycles)).toOutcome := by
  rw [interruptEntry, hrun]

/-- The state after an entry's acknowledgement and its three pushes. -/
def afterEntrySaves (kind : InterruptKind) (s : State) : State := afterEntryPushes false (kind.acknowledge s)

/-- An entry on a stack in memory, whatever answers its vector read: the saves, and then that read. -/
theorem interruptEntry_saves {s : State} (hrun : s.run = .running) (kind : InterruptKind)
    (h0 : s.isMemory (stackAddr s.sp) = true) (h1 : s.isMemory (stackAddr (s.sp - 1)) = true)
    (h2 : s.isMemory (stackAddr (s.sp - 2)) = true) :
    interruptEntry kind s = ((memRead16 kind.vector (afterEntrySaves kind s)).bind fun target u =>
      .done () (((u.setP (setI true u.p)).setPc target).addCycles u.params.intCycles)).toOutcome := by
  rw [interruptEntry_of_running hrun,
    enterException_pushes false kind.vector (by cases kind <;> exact h0) (by cases kind <;> exact h1)
      (by cases kind <;> exact h2), Result.bind_assoc]
  rfl

/-- Both bytes of a vector lie in page 0xFF, so no entry's push reaches them. -/
theorem afterEntrySaves_peek_vector {s : State} (hwf : Memory.wf s.mem = true) (kind : InterruptKind) :
    (afterEntrySaves kind s).peek kind.vector = s.peek kind.vector ∧
      (afterEntrySaves kind s).peek (kind.vector + 1) = s.peek (kind.vector + 1) := by
  cases kind with
  | nmi => exact ⟨afterEntryPushes_peek_vector (s := s.setNmiPending false) hwf 0xFA#8,
      afterEntryPushes_peek_vector (s := s.setNmiPending false) hwf 0xFB#8⟩
  | irq => exact ⟨afterEntryPushes_peek_vector hwf 0xFE#8, afterEntryPushes_peek_vector hwf 0xFF#8⟩

theorem afterEntrySaves_busMap (kind : InterruptKind) (s : State) : (afterEntrySaves kind s).busMap = s.busMap := by
  cases kind <;> rfl

theorem afterEntrySaves_isMemory (kind : InterruptKind) (s : State) (a : Addr) :
    (afterEntrySaves kind s).isMemory a = s.isMemory a := by
  rw [State.isMemory, afterEntrySaves_busMap]
  rfl

/-- The state a computation ends in when it raises a fault, if it does, has the property. -/
def Result.RaisedIn {α : Type} (P : State → Prop) : Result α → Prop
  | .done _ _ => True
  | .raised _ t => P t

/-- The last part of a sequence may end without the property if it ends without a raise. -/
theorem Result.All.bind_raisedIn {α β : Type} {P : State → Prop} {r : Result α} {k : α → State → Result β}
    (hr : r.All P) (hk : ∀ v u, P u → (k v u).RaisedIn P) : (r.bind k).RaisedIn P := by
  cases r with
  | done v u => exact hk v u hr
  | raised f u => exact hr

/-- The registers and the latch that the accesses of an interrupt entry leave alone. -/
def SameButStack (s u : State) : Prop :=
  u.pc = s.pc ∧ u.p = s.p ∧ u.a = s.a ∧ u.x = s.x ∧ u.y = s.y ∧ u.nmiPending = s.nmiPending

/-- An interrupt's exception writes P and PC only after its last access, so not when one of them faults. -/
theorem enterException_raisedIn (vector : Addr) (s : State) :
    (enterException false vector s).RaisedIn (SameButStack s) := by
  have hlog : ∀ acc u, SameButStack s u → SameButStack s (u.log acc) := fun _ _ h => h
  have hrun : ∀ f u, SameButStack s u → SameButStack s (u.setRun (.faulted f)) := fun _ _ h => h
  have hsp : ∀ v u, SameButStack s u → SameButStack s (u.setSp v) := fun _ _ h => h
  have hs : SameButStack s s := ⟨rfl, rfl, rfl, rfl, rfl, rfl⟩
  exact (push16_all hlog hrun hsp (fun _ _ _ h _ => h) s.pc hs).bind_raisedIn fun _ _ h =>
    (push_all hlog hrun hsp _ (fun _ => h) h).bind_raisedIn fun _ _ h =>
      (memRead16_all hlog hrun vector h).bind_raisedIn fun _ _ _ => trivial

/-- An entry that ends in Faulted raised the fault among its accesses. -/
theorem enterException_raised_of_faulted {kind : InterruptKind} {s t : State} {f : Fault} (hrun : s.run = .running)
    (ht : interruptEntry kind s = .next t) (hf : t.run = .faulted f) :
    enterException false kind.vector (kind.acknowledge s) = .raised f t := by
  have hruns := enterException_uncharged false kind.vector (kind.acknowledge s)
  rw [interruptEntry_of_running hrun] at ht
  cases h : enterException false kind.vector (kind.acknowledge s) with
  | raised g u =>
    rw [h] at ht hruns
    cases ht
    obtain rfl : g = f := RunState.faulted.inj (hruns.1.symm.trans hf)
    rfl
  | done v u =>
    rw [h] at ht hruns
    cases ht
    have hack : (kind.acknowledge s).run = s.run := by cases kind <;> rfl
    cases ((hruns.1.trans hack).trans hrun).symm.trans hf

/-- An entry one of whose accesses faults. -/
theorem interruptEntry_faulted {kind : InterruptKind} {s t : State} {f : Fault} (hrun : s.run = .running)
    (ht : interruptEntry kind s = .next t) (hf : t.run = .faulted f) :
    (∃ addr, f = .unmappedAddress addr) ∧ t.cycles = s.cycles ∧ SameButStack (kind.acknowledge s) t := by
  have hraised := enterException_raised_of_faulted hrun ht hf
  have hsame := enterException_raisedIn kind.vector (kind.acknowledge s)
  have hfault := enterException_faultedOnlyBy (F := fun g => ∃ a, g = .unmappedAddress a) (fun a => ⟨a, rfl⟩) false
    kind.vector (u := kind.acknowledge s) (faultedOnlyBy_of_running (by cases kind <;> exact hrun))
  rw [hraised] at hsame hfault
  exact ⟨hfault f hf, interruptEntry_cycles_of_faulted ht hf, hsame⟩

/-- Settles O10: the saves of `interruptEntry_saves` and then one of the three ends of the vector read; a fault among the
accesses is `interruptEntry_faulted`. -/
theorem interruptEntrySavesAndVectors : Obligations.InterruptEntrySavesAndVectors := by
  refine ⟨fun kind vec s hvec hrun hwf hstack => ?_, fun kind s t f hrun ht hf => ?_,
    fun kind s f h => interruptEntry_of_faulted h kind⟩
  · obtain rfl : vec = kind.vector := by cases kind <;> exact hvec
    simp only [List.all_cons, List.all_nil, Bool.and_true, Bool.and_eq_true] at hstack
    obtain ⟨h0, h1, h2⟩ := hstack
    have hentry := interruptEntry_saves hrun kind h0 h1 h2
    obtain ⟨hlo, hhi⟩ := afterEntrySaves_peek_vector hwf kind
    rw [hentry]
    refine ⟨memAfterEntry false (kind.acknowledge s), afterEntrySaves kind s, by cases kind <;> rfl,
      by cases kind <;> exact memoryAfter_entry hwf, fun hv hv' => ?_, fun hv => ?_, fun hv hv' => ?_⟩
    · rw [memRead16_memory (by rw [afterEntrySaves_isMemory]; exact hv)
        (by rw [afterEntrySaves_isMemory]; exact hv'), hlo, hhi]
      cases kind <;> rfl
    · rw [memRead16_unmapped (by rw [afterEntrySaves_busMap]; exact hv)]
      rfl
    · rw [memRead16_second_unmapped (by rw [afterEntrySaves_isMemory]; exact hv)
        (by rw [afterEntrySaves_busMap]; exact hv'), hlo]
      rfl
  · obtain ⟨hfault, hcycles, hpc, hp, ha, hx, hy, hnmi⟩ := interruptEntry_faulted hrun ht hf
    cases kind <;> exact ⟨hfault, hcycles, hpc, hp, ha, hx, hy, hnmi⟩

end Sys2Proof.Machine
end

section
/-! The family 70_reset_and_hazards: `reset()`. -/

namespace Sys2Proof.Machine

/-- Settles O18: the register writes are `resetRegisters`, and then comes one of the three ends of the vector read. -/
theorem resetCall_spec : Obligations.ResetCall := by
  rintro s _ rfl
  refine ⟨fun h h' => ?_, fun h => ?_, fun h h' => ?_⟩
  · rw [resetCall, memRead16_memory (a := Config.vecReset) (s := resetRegisters s) h h']
    rfl
  · rw [resetCall, memRead16_unmapped (a := Config.vecReset) (s := resetRegisters s) h]
    rfl
  · rw [resetCall, memRead16_second_unmapped (a := Config.vecReset) (s := resetRegisters s) h h']
    rfl

end Sys2Proof.Machine
end
